-- ==== Sys2Proof/Word.lean ====
section
/-! DEFINITION. The word types of the block's command port (`00_scope.md` R9, `30_encoding.md` R110, R114).
Bit 0 is the least significant bit of every word. -/

namespace Sys2Proof

/-- One byte of a word on a narrower transport (R83), and the width of ERR_CODE and ERR_OPC (R40). -/
abbrev Byte := BitVec 8

/-- A command word (R110). -/
abbrev CommandWord := BitVec 64

/-- A response word (R114). -/
abbrev ResponseWord := BitVec 64

/-- The DATA field of a response word (R114). -/
abbrev Data := BitVec 56

/-- The SYM field of a command word (R110, R111). -/
abbrev SymField := BitVec 16

/-- The ARG field of a command word (R110, R112). -/
abbrev ArgField := BitVec 32

end Sys2Proof
end

