-- ==== Sys2Proof/Config.lean ====
section
/-! DEFINITION. The configuration parameters of the block, their legal ranges and the quantities derived from
them (`00_scope.md` R6 to R8), and the two open parameters of `92_eei_decisions.md`, which no rule of the block
reads. -/

namespace Sys2Proof

/-- The parameters a model takes as arguments (R6). They are fixed for the life of the block and are no state of
it (R30). -/
structure Config where
  /-- SYM_W: the alphabet is 0 .. 2^SYM_W − 1. -/
  symW : Nat
  /-- FREQ_W: the width of every frequency counter, of TOTAL and of node frequencies. -/
  freqW : Nat
  /-- LMAX: the maximum code length the ROM can hold. -/
  lmax : Nat
  deriving DecidableEq, Repr

/-- The legal ranges of R6. A configuration outside them is no configuration of this hardware (R8). -/
def Config.legal (c : Config) : Bool :=
  decide (1 ≤ c.symW) && decide (c.symW ≤ 16) && decide (1 ≤ c.freqW) && decide (c.freqW ≤ 32) &&
    decide (1 ≤ c.lmax) && decide (c.lmax ≤ 65535)

/-- The defaults of R6: SYM_W = 8, FREQ_W = 32, LMAX = 2^SYM_W − 1 = 255. -/
def Config.standard : Config := { symW := 8, freqW := 32, lmax := 255 }

/-- D_MAX (R7): the maximum number of distinct symbols. -/
def Config.dMax (c : Config) : Nat := 2 ^ c.symW

/-- NODE_MAX (R7): the capacity of the node store. -/
def Config.nodeMax (c : Config) : Nat := 2 * c.dMax - 1

/-- NODE_W (R7): the width of a node index. -/
def Config.nodeW (c : Config) : Nat := c.symW + 1

/-- HEAP_MAX (R7): the capacity of the heap. -/
def Config.heapMax (c : Config) : Nat := c.dMax

/-- NCHUNK (R7): ceil(LMAX / 32), the number of 32-bit chunks of one ROM code entry. -/
def Config.nchunk (c : Config) : Nat := (c.lmax + 31) / 32

/-- FMAX (R7): the largest frequency value. -/
def Config.fmax (c : Config) : Nat := 2 ^ c.freqW - 1

/-- How the host reaches the command port (R88). -/
inductive HostAttach where
  | memoryMapped
  | stream
  | coprocessor
  deriving DecidableEq, Repr, Inhabited

/-- HOST_ATTACH (R88, D26): open, a value of the platform that no rule of the block reads. It has no body, so
nothing can be proved from a choice of it. -/
opaque Config.hostAttach : HostAttach

/-- TRAILING_POLICY (D41): what the HOST's decode walk does with a partial code at the end of its input. Open, so
`hostDecode` takes it as an argument; no rule of the block reads it. -/
inductive TrailingPolicy where
  | reject
  | drop
  deriving DecidableEq, Repr

end Sys2Proof
end

