-- ==== Sys2Proof/Syntax.lean ====
section
/-! DEFINITION. The command set (`30_encoding.md` R116): one constructor of `Instr` for each row of the opcode
table, with the fields the row uses (R117), and the fifteen opcodes by name. -/

namespace Sys2Proof

/-- A command. `sym` is the raw SYM field and `arg` the raw ARG field, read unsigned (R122). -/
inductive Instr where
  /-- NOP (R151). -/
  | nop
  /-- CLEAR (R152). -/
  | clear
  /-- READ_REG: `arg` is the register number (R153). -/
  | readReg (arg : ArgField)
  /-- ADD_SYMBOL: `sym` is the symbol (R181). -/
  | addSymbol (sym : SymField)
  /-- SET_FREQ: `sym` is the symbol, `arg` the new count (R183). -/
  | setFreq (sym : SymField) (arg : ArgField)
  /-- READ_FREQ: `sym` is the symbol (R184). -/
  | readFreq (sym : SymField)
  /-- READ_ORDER: `arg` is the position (R185). -/
  | readOrder (arg : ArgField)
  /-- READ_HEAP: `arg` is the heap position (R218). -/
  | readHeap (arg : ArgField)
  /-- BUILD_INIT (R246). -/
  | buildInit
  /-- BUILD_STEP (R249). -/
  | buildStep
  /-- BUILD (R250). -/
  | build
  /-- READ_NODE_F: `arg` is the node index (R262). -/
  | readNodeF (arg : ArgField)
  /-- READ_NODE_L: `arg` is the node index (R263). -/
  | readNodeL (arg : ArgField)
  /-- READ_CODE_LEN: `sym` is the symbol (R287). -/
  | readCodeLen (sym : SymField)
  /-- READ_CODE_BITS: `sym` is the symbol, `arg` the chunk index (R288). -/
  | readCodeBits (sym : SymField) (arg : ArgField)
  deriving DecidableEq, Repr

/-- The fifteen assigned opcodes (R116). -/
inductive Opcode where
  | nop | clear | readReg | addSymbol | setFreq | readFreq | readOrder | readHeap
  | buildInit | buildStep | build | readNodeF | readNodeL | readCodeLen | readCodeBits
  deriving DecidableEq, Repr

end Sys2Proof
end

