-- ==== Sys2Proof/WellFormed.lean ====
section
/-! DEFINITION. When a command's operands lie in the ranges that the configuration alone decides: SYM < D_MAX
(`30_encoding.md` R111), a count ≤ FMAX (R112), a register number of the map (`10_state.md` R45) and a chunk index
< NCHUNK (`44_code_rom.md` R288). Every other operand's range depends on the block's state. An ill-formed command
is still a command: the block answers it with the error the rule names. -/

namespace Sys2Proof

/-- SYM < D_MAX (R111). -/
def symInRange (c : Config) (sym : SymField) : Bool := decide (sym.toNat < c.dMax)

/-- ARG ≤ FMAX, the count of SET_FREQ (R112). -/
def countInRange (c : Config) (arg : ArgField) : Bool := decide (arg.toNat ≤ c.fmax)

/-- A register number of the map, 0x00 to 0x08 (R45). -/
def registerInRange (arg : ArgField) : Bool := decide (arg.toNat ≤ 8)

/-- A chunk index below NCHUNK (R288). -/
def chunkInRange (c : Config) (arg : ArgField) : Bool := decide (arg.toNat < c.nchunk)

/-- The operands of a command lie in the ranges its configuration gives. -/
def WellFormed (c : Config) : Instr → Bool
  | .nop => true
  | .clear => true
  | .readReg arg => registerInRange arg
  | .addSymbol sym => symInRange c sym
  | .setFreq sym arg => symInRange c sym && countInRange c arg
  | .readFreq sym => symInRange c sym
  | .readOrder _ => true
  | .readHeap _ => true
  | .buildInit => true
  | .buildStep => true
  | .build => true
  | .readNodeF _ => true
  | .readNodeL _ => true
  | .readCodeLen sym => symInRange c sym
  | .readCodeBits sym arg => symInRange c sym && chunkInRange c arg

end Sys2Proof
end

