-- ==== Sys2Proof/Decode.lean ====
section
/-! DEFINITION. The command word (`30_encoding.md` R110): its fields, the opcode map (R116), the use of the fields
(R117), the part of the decode stage that looks at the word alone (R118), an encoder from the same tables, and the
byte order of a narrower transport (`20_memory.md` R83). -/

namespace Sys2Proof

/-! ## Fields (R110) -/

/-- OPC, bits 63:56. -/
def opcField (w : CommandWord) : Byte := w.extractLsb' 56 8

/-- RSV, bits 55:48. -/
def rsvField (w : CommandWord) : Byte := w.extractLsb' 48 8

/-- SYM, bits 47:32. -/
def symField (w : CommandWord) : SymField := w.extractLsb' 32 16

/-- ARG, bits 31:0. -/
def argField (w : CommandWord) : ArgField := w.extractLsb' 0 32

/-! ## The opcode map (R116) and the use of the fields (R117) -/

/-- The value of OPC of each opcode (R116). -/
def opcodeByte : Opcode → Byte
  | .nop => 0x00#8
  | .clear => 0x01#8
  | .readReg => 0x02#8
  | .addSymbol => 0x10#8
  | .setFreq => 0x11#8
  | .readFreq => 0x12#8
  | .readOrder => 0x13#8
  | .readHeap => 0x20#8
  | .buildInit => 0x30#8
  | .buildStep => 0x31#8
  | .build => 0x32#8
  | .readNodeF => 0x33#8
  | .readNodeL => 0x34#8
  | .readCodeLen => 0x40#8
  | .readCodeBits => 0x41#8

/-- All assigned opcodes, in the order of the table of R116. -/
def allOpcodes : List Opcode :=
  [.nop, .clear, .readReg, .addSymbol, .setFreq, .readFreq, .readOrder, .readHeap, .buildInit, .buildStep, .build,
    .readNodeF, .readNodeL, .readCodeLen, .readCodeBits]

/-- The opcode with a value of OPC, if it is assigned (R116, R119). -/
def opcodeOfByte (b : Byte) : Option Opcode := allOpcodes.find? (fun o => opcodeByte o == b)

/-- The rows of R117 with "s" in the SYM column. -/
def usesSym : Opcode → Bool
  | .nop => false
  | .clear => false
  | .readReg => false
  | .addSymbol => true
  | .setFreq => true
  | .readFreq => true
  | .readOrder => false
  | .readHeap => false
  | .buildInit => false
  | .buildStep => false
  | .build => false
  | .readNodeF => false
  | .readNodeL => false
  | .readCodeLen => true
  | .readCodeBits => true

/-- The rows of R117 with "n" in the ARG column. -/
def usesArg : Opcode → Bool
  | .nop => false
  | .clear => false
  | .readReg => true
  | .addSymbol => false
  | .setFreq => true
  | .readFreq => false
  | .readOrder => true
  | .readHeap => true
  | .buildInit => false
  | .buildStep => false
  | .build => false
  | .readNodeF => true
  | .readNodeL => true
  | .readCodeLen => false
  | .readCodeBits => true

/-- The command of an opcode with its operand fields. -/
def instrOf : Opcode → SymField → ArgField → Instr
  | .nop, _, _ => .nop
  | .clear, _, _ => .clear
  | .readReg, _, arg => .readReg arg
  | .addSymbol, sym, _ => .addSymbol sym
  | .setFreq, sym, arg => .setFreq sym arg
  | .readFreq, sym, _ => .readFreq sym
  | .readOrder, _, arg => .readOrder arg
  | .readHeap, _, arg => .readHeap arg
  | .buildInit, _, _ => .buildInit
  | .buildStep, _, _ => .buildStep
  | .build, _, _ => .build
  | .readNodeF, _, arg => .readNodeF arg
  | .readNodeL, _, arg => .readNodeL arg
  | .readCodeLen, sym, _ => .readCodeLen sym
  | .readCodeBits, sym, arg => .readCodeBits sym arg

/-! ## The decode stage on the word alone (R118, R119) -/

/-- Why a word is no command, whatever the block's state (R118: the checks before PHASE). -/
inductive DecodeError where
  /-- OPC is unassigned (R119): the block answers ILLEGAL_OPCODE. -/
  | illegalOpcode
  /-- RSV, or a field the command does not use, is nonzero (R111 to R113): the block answers RESERVED_BITS. -/
  | reservedBits
  deriving DecidableEq, Repr

/-- Why the bytes of a transport give no command. -/
inductive TransportError where
  /-- Fewer than eight bytes: no whole command word has arrived (R83, R121). -/
  | incompleteWord
  /-- The word is no command. -/
  | badWord (e : DecodeError)
  deriving DecidableEq, Repr

/-- The static checks of R118 in their order, on a 64-bit word: total, every word is a command or an error. -/
def decode (w : CommandWord) : Except DecodeError Instr :=
  match opcodeOfByte (opcField w) with
  | none => .error .illegalOpcode
  | some o =>
    if rsvField w ≠ 0#8 then .error .reservedBits
    else if usesSym o = false ∧ symField w ≠ 0#16 then .error .reservedBits
    else if usesArg o = false ∧ argField w ≠ 0#32 then .error .reservedBits
    else .ok (instrOf o (symField w) (argField w))

/-! ## Encoding (R110, R116, R117) -/

/-- The opcode of a command (R116). -/
def opcodeOf : Instr → Opcode
  | .nop => .nop
  | .clear => .clear
  | .readReg _ => .readReg
  | .addSymbol _ => .addSymbol
  | .setFreq _ _ => .setFreq
  | .readFreq _ => .readFreq
  | .readOrder _ => .readOrder
  | .readHeap _ => .readHeap
  | .buildInit => .buildInit
  | .buildStep => .buildStep
  | .build => .build
  | .readNodeF _ => .readNodeF
  | .readNodeL _ => .readNodeL
  | .readCodeLen _ => .readCodeLen
  | .readCodeBits _ _ => .readCodeBits

/-- The SYM field of a command: its symbol, or 0 (R117). -/
def symOf : Instr → SymField
  | .nop => 0#16
  | .clear => 0#16
  | .readReg _ => 0#16
  | .addSymbol sym => sym
  | .setFreq sym _ => sym
  | .readFreq sym => sym
  | .readOrder _ => 0#16
  | .readHeap _ => 0#16
  | .buildInit => 0#16
  | .buildStep => 0#16
  | .build => 0#16
  | .readNodeF _ => 0#16
  | .readNodeL _ => 0#16
  | .readCodeLen sym => sym
  | .readCodeBits sym _ => sym

/-- The ARG field of a command: its numeric operand, or 0 (R117). -/
def argOf : Instr → ArgField
  | .nop => 0#32
  | .clear => 0#32
  | .readReg arg => arg
  | .addSymbol _ => 0#32
  | .setFreq _ arg => arg
  | .readFreq _ => 0#32
  | .readOrder arg => arg
  | .readHeap arg => arg
  | .buildInit => 0#32
  | .buildStep => 0#32
  | .build => 0#32
  | .readNodeF arg => arg
  | .readNodeL arg => arg
  | .readCodeLen _ => 0#32
  | .readCodeBits _ arg => arg

/-- The command word of a command: {OPC, RSV = 0, SYM, ARG} (R110, R117). -/
def encode (i : Instr) : CommandWord := opcodeByte (opcodeOf i) ++ 0#8 ++ symOf i ++ argOf i

/-! ## Transport over bytes and halves (R83) -/

/-- A word's bytes, least significant first: byte 0 = bits 7:0, through byte 7 = bits 63:56 (R83). -/
def wordBytes (w : BitVec 64) : List Byte :=
  [w.extractLsb' 0 8, w.extractLsb' 8 8, w.extractLsb' 16 8, w.extractLsb' 24 8, w.extractLsb' 32 8,
    w.extractLsb' 40 8, w.extractLsb' 48 8, w.extractLsb' 56 8]

/-- A word's two 32-bit halves, bits 31:0 first (R83). -/
def wordHalves (w : BitVec 64) : BitVec 32 × BitVec 32 := (w.extractLsb' 0 32, w.extractLsb' 32 32)

/-- The word that two halves carry, the low half first (R83). -/
def wordOfHalves (lo hi : BitVec 32) : BitVec 64 := hi ++ lo

/-- The word that the first eight bytes of a transport carry, least significant byte first, with the bytes that
follow it; none when fewer than eight have arrived (R83). -/
def wordOfBytes : List Byte → Option (BitVec 64 × List Byte)
  | b0 :: b1 :: b2 :: b3 :: b4 :: b5 :: b6 :: b7 :: rest =>
    some (b7 ++ b6 ++ b5 ++ b4 ++ b3 ++ b2 ++ b1 ++ b0, rest)
  | _ => none

/-- Decoding any list of bytes: the first eight are one command word (R83, R121). -/
def decodeBytes (bs : List Byte) : Except TransportError (Instr × List Byte) :=
  match wordOfBytes bs with
  | none => .error .incompleteWord
  | some (w, rest) =>
    match decode w with
    | .error e => .error (.badWord e)
    | .ok i => .ok (i, rest)

/-- The bytes a word of the opcode table stands for: bit 0 of `w` is bit 0 of the command word, and every bit from
`nbits` on is 0. -/
def tableBytes (nbits w : Nat) : List Byte := wordBytes (BitVec.ofNat 64 (w % 2 ^ nbits))

/-- The command that the decoder reads from a word numbered as `spec/opcode_table.json` numbers it. A word that
does not fit the block's one 64-bit format is none (R121). -/
def decodeTableWord (nbits w : Nat) : Option Instr :=
  if w % 2 ^ nbits < 2 ^ 64 then
    match decodeBytes (tableBytes nbits w) with
    | .error _ => none
    | .ok (i, _) => some i
  else none

end Sys2Proof
end

