-- ==== Sys2Proof/Machine/Cells.lean ====
section
/-! DEFINITION. How an indexed array of the block is held (`20_memory.md` R81): the list of its entries that hold
a value, as (index, value) pairs with strictly rising indices. An index that is not listed holds no value
(`10_state.md` R56) or, for an array whose every entry has a value, the array's zero entry. One canonical form:
equal arrays are equal lists. -/

namespace Sys2Proof.Machine

/-- An array's entries that hold a value, by rising index. -/
abbrev Cells (α : Type) := List (Nat × α)

/-- The value at an index, if the entry holds one. -/
def cellsGet {α : Type} : Cells α → Nat → Option α
  | [], _ => none
  | (j, v) :: rest, i => if i = j then some v else cellsGet rest i

/-- The array with the entry at an index written. -/
def cellsSet {α : Type} : Cells α → Nat → α → Cells α
  | [], i, v => [(i, v)]
  | (j, w) :: rest, i, v =>
    if i < j then (i, v) :: (j, w) :: rest
    else if i = j then (i, v) :: rest
    else (j, w) :: cellsSet rest i v

/-- The array with the entry at an index holding no value. -/
def cellsErase {α : Type} (c : Cells α) (i : Nat) : Cells α := c.filter (fun e => e.1 != i)

/-- Write an entry of an array in which every entry has a value: the array's zero entry is not listed. -/
def cellsPut {α : Type} [DecidableEq α] (zero : α) (c : Cells α) (i : Nat) (v : α) : Cells α :=
  if v = zero then cellsErase c i else cellsSet c i v

/-- Read an entry of an array in which every entry has a value. -/
def cellsAt {α : Type} (zero : α) (c : Cells α) (i : Nat) : α := (cellsGet c i).getD zero

/-- The canonical form: indices strictly rising. -/
abbrev cellsSorted {α : Type} (c : Cells α) : Prop := List.Pairwise (fun i j => i < j) (c.map Prod.fst)

/-- The entries that hold a value are exactly those at 0 .. n−1. -/
abbrev cellsDense {α : Type} (c : Cells α) (n : Nat) : Prop := c.map Prod.fst = List.range n

/-- The values of an array by rising index. -/
def cellsValues {α : Type} (c : Cells α) : List α := c.map Prod.snd

end Sys2Proof.Machine
end

