-- ==== Sys2Proof/Machine/State.lean ====
section
/-! DEFINITION. The state of the machine as plain data: the block's architectural state, exactly the list of
`10_state.md` R30, and around it the configuration (`00_scope.md` R6), the host's moves and the words between host
and block (`70_reset_and_hazards.md` R360, R361, R369). The reset state, the faults and the refusals. -/

namespace Sys2Proof.Machine

/-- PHASE (R31). The value 3 of the 2-bit field is never held and has no constructor. -/
inductive Phase where
  | load
  | merging
  | built
  deriving DecidableEq, Repr

/-- The status codes (`60_exceptions.md` R312). -/
inductive Status where
  | ok
  | emptyQueue
  | malformedEncoding
  | illegalOpcode
  | reservedBits
  | phase
  | symRange
  | argRange
  | indexRange
  | freqOverflow
  | codeTooLong
  deriving DecidableEq, Repr

/-- A record of the node store, a tagged variant (R39). -/
inductive NodeRecord where
  /-- A leaf: its frequency and its symbol. -/
  | leaf (freq : Nat) (sym : Nat)
  /-- An internal node: its frequency and the indices of its left and right child. -/
  | internal (freq : Nat) (left : Nat) (right : Nat)
  deriving DecidableEq, Repr

/-- One entry of the code-table ROM (R44): CODE_VALID, CODE_LEN and CODE_BITS. Digit p of the code is bit p of
`bits` (R281). -/
structure RomEntry where
  valid : Bool
  len : Nat
  bits : Nat
  deriving DecidableEq, Repr

/-- The ROM entry of a symbol with no code: all three fields 0 (R281). -/
def RomEntry.zero : RomEntry := { valid := false, len := 0, bits := 0 }

/-- A move of the host (R368). -/
inductive HostMove where
  /-- Offer a command word on the command port, and hold it until it transfers (R360, R362). -/
  | command (w : CommandWord)
  /-- Accept the response word that the block offers (R360). -/
  | takeResponse
  /-- Assert `rst_n` (R351). -/
  | reset
  deriving DecidableEq, Repr

/-- The state. A field whose width depends on the configuration holds a natural number (R9: every value is an
unsigned natural number); `Safety.lean` states its bound. -/
structure State where
  /-- The configuration parameters (R6): arguments of the model, changed by no step. -/
  config : Config
  /-- PHASE (R31). -/
  phase : Phase
  /-- FREQ (R35): the entries that are not 0. -/
  freq : Cells Nat
  /-- ORDER (R36): the entries that hold a value. -/
  order : Cells Nat
  /-- DISTINCT (R37). -/
  distinct : Nat
  /-- TOTAL (R38). -/
  total : Nat
  /-- NODE (R39): the records that have been written. -/
  node : Cells NodeRecord
  /-- NODE_COUNT (R41). -/
  nodeCount : Nat
  /-- HEAP (R42): the entries that hold a value. -/
  heap : Cells Nat
  /-- HEAP_COUNT (R42). -/
  heapCount : Nat
  /-- ROOT (R43). -/
  root : Nat
  /-- ROOT_VALID (R43). -/
  rootValid : Bool
  /-- CODE_VALID, CODE_LEN and CODE_BITS (R44): the entries that are not all zero. -/
  rom : Cells RomEntry
  /-- MAX_LEN (R44). -/
  maxLen : Nat
  /-- ERR_CODE (R40). -/
  errCode : Byte
  /-- ERR_OPC (R40). -/
  errOpc : Byte
  /-- The response word that the block offers and the host has not taken (R360, R361, R353). -/
  response : Option ResponseWord
  /-- The response words the host has taken, oldest first (R369). -/
  taken : List ResponseWord
  /-- The host's moves to come, the next one first (R368, R369). -/
  host : List HostMove
  /-- The position of the next command in the host's program: the number of commands accepted so far (R34). -/
  position : Nat
  deriving DecidableEq, Repr

/-- The state after reset in a configuration (R350): every register and FREQ and ROM entry 0, PHASE = LOAD, and no
value in ORDER, NODE and HEAP. Nothing is offered on either port (R351), and the host has made no move yet. -/
def State.resetWith (c : Config) : State :=
  { config := c, phase := .load, freq := [], order := [], distinct := 0, total := 0, node := [], nodeCount := 0,
    heap := [], heapCount := 0, root := 0, rootValid := false, rom := [], maxLen := 0, errCode := 0#8, errOpc := 0#8,
    response := none, taken := [], host := [], position := 0 }

/-- The state after reset in the default configuration of R6. -/
def State.reset : State := State.resetWith Config.standard

/-- The arrays whose entries may hold no value, and the ROM, for the faults that name them. -/
inductive ArrayName where
  | order
  | node
  | heap
  | rom
  deriving DecidableEq, Repr

/-- The model's faults. Each one marks a state that a correct block never reaches (R56, R215, R319). All are SAFE:
the machine stops where the spec gives the state no meaning. -/
inductive Fault where
  /-- Raised by a Dequeue with HEAP_COUNT = 0 (R215, R319: "a model treats reaching it as a fault"). Safe. -/
  | emptyQueue
  /-- Raised by an internal read of an array entry that holds no value (R56). Safe. -/
  | noValue (array : ArrayName)
  /-- Raised by an internal access at an index outside the array's range (R10, R81). Safe. -/
  | noSuchEntry (array : ArrayName)
  /-- Raised by order_remove when no entry of ORDER names the symbol (R182: "for exactly one k"). Safe. -/
  | symbolNotInOrder
  /-- Raised by the ROM generator when the nodes under the root form no tree: following children never reaches
  leaves (R256, R245). Safe. -/
  | notATree
  deriving DecidableEq, Repr

/-- The model's refusals. All are SAFE: no next state is claimed. -/
inductive Refusal where
  /-- An instruction that has no meaning yet, by its mnemonic; raised by `exec`'s arm alone. Safe. -/
  | notModelled (mnemonic : String)
  /-- The configuration lies outside the legal ranges (R8: "a model refuses it"); raised by every step and every
  command. Safe. -/
  | illegalConfiguration
  deriving DecidableEq, Repr

/-- The outcome of a step of this machine. -/
abbrev StepOutcome := Host.Outcome State Fault Refusal

end Sys2Proof.Machine
end

