-- ==== Sys2Proof/Machine/Flags.lean ====
section
/-! DEFINITION. The block's status flags (`10_state.md` R51: it has no condition codes), the status codes
(`60_exceptions.md` R312) and the layout of every response's DATA field. -/

namespace Sys2Proof.Machine

/-- The value of PHASE (R31). -/
def phaseCode : Phase → BitVec 2
  | .load => 0#2
  | .merging => 1#2
  | .built => 2#2

/-- The value of a status code (R312). -/
def statusCode : Status → Byte
  | .ok => 0x00#8
  | .emptyQueue => 0x01#8
  | .malformedEncoding => 0x02#8
  | .illegalOpcode => 0x03#8
  | .reservedBits => 0x04#8
  | .phase => 0x05#8
  | .symRange => 0x06#8
  | .argRange => 0x07#8
  | .indexRange => 0x08#8
  | .freqOverflow => 0x09#8
  | .codeTooLong => 0x0A#8

/-- The response word {ST, DATA} (R114). -/
def responseWord (st : Byte) (d : Data) : ResponseWord := st ++ d

/-- The ST field of a response word (R114, R311). -/
def stField (r : ResponseWord) : Byte := r.extractLsb' 56 8

/-- The DATA field of a response word (R114). -/
def dataField (r : ResponseWord) : Data := r.extractLsb' 0 56

/-- A register or array entry of `width` bits, zero-extended to the DATA field (R9, R49). -/
def fieldData (width : Nat) (v : Nat) : Data := BitVec.ofNat 56 (v % 2 ^ width)

/-- The tag of a node record (R39): 0 = Leaf, 1 = Internal. -/
def nodeTag : NodeRecord → Bool
  | .leaf _ _ => false
  | .internal _ _ _ => true

/-- The freq field of a node record (R39). -/
def nodeFreq : NodeRecord → Nat
  | .leaf f _ => f
  | .internal f _ _ => f

/-- STATUS (R46): PHASE in 1:0, ERR_CODE in 15:8, ERR_OPC in 23:16, 0 elsewhere. -/
def statusData (s : State) : Data := 0#32 ++ s.errOpc ++ s.errCode ++ 0#6 ++ phaseCode s.phase

/-- ROOT (R45): ROOT_VALID in 31, ROOT in 23:0, 0 elsewhere. -/
def rootData (valid : Bool) (root : Nat) : Data := 0#24 ++ BitVec.ofBool valid ++ 0#7 ++ BitVec.ofNat 24 root

/-- PARAM (R48): SYM_W in 7:0, FREQ_W in 15:8, LMAX in 31:16, 0 elsewhere. -/
def paramData (c : Config) : Data := 0#24 ++ BitVec.ofNat 16 c.lmax ++ BitVec.ofNat 8 c.freqW ++ BitVec.ofNat 8 c.symW

/-- IDENT (R47): "HUF" in 31:8, revision 1 in 7:0, 0 elsewhere. -/
def identData : Data := 0x00000048554601#56

/-- The result of finalize (R248): 1 in bit 55, ROOT_VALID in bit 54, ROOT in 23:0, 0 elsewhere. -/
def finalizeData (valid : Bool) (root : Nat) : Data := 1#1 ++ BitVec.ofBool valid ++ 0#30 ++ BitVec.ofNat 24 root

/-- The result of READ_NODE_F (R262): the tag in bit 32, freq in 31:0, 0 elsewhere. -/
def nodeFreqData (n : NodeRecord) : Data := 0#23 ++ BitVec.ofBool (nodeTag n) ++ BitVec.ofNat 32 (nodeFreq n)

/-- The result of READ_NODE_L (R263): a leaf's symbol in 15:0; an internal node's 1 in bit 55, left in 47:24 and
right in 23:0; 0 elsewhere. -/
def nodeLinkData : NodeRecord → Data
  | .leaf _ sym => 0#40 ++ BitVec.ofNat 16 sym
  | .internal _ l r => 1#1 ++ 0#7 ++ BitVec.ofNat 24 l ++ BitVec.ofNat 24 r

/-- The result of READ_CODE_LEN (R287): CODE_VALID in bit 16, CODE_LEN in 15:0, 0 elsewhere. -/
def codeLenData (e : RomEntry) : Data := 0#39 ++ BitVec.ofBool e.valid ++ BitVec.ofNat 16 e.len

/-- The result of READ_CODE_BITS (R288): bit j is digit 32k + j of the entry, or 0 from LMAX on. -/
def codeChunkData (lmax : Nat) (bits : Nat) (k : Nat) : Data :=
  0#24 ++ BitVec.ofNat 32 ((bits % 2 ^ lmax) >>> (32 * k))

end Sys2Proof.Machine
end

