-- ==== Sys2Proof/Machine/Ops.lean ====
section
/-! DEFINITION. The named operations on the state: ending a command with a response or an error
(`60_exceptions.md` R316), the two ports (`70_reset_and_hazards.md` R360, R361), reset (R350), and the reads and
writes of the arrays (`00_scope.md` R10). -/

namespace Sys2Proof.Machine

/-! ## Ending a command -/

/-- `respond(data)`: status OK and the data (R11, R114). The error record is unchanged (R40). -/
def respond (d : Data) (s : State) : State := { s with response := some (responseWord (statusCode .ok) d) }

/-- `raise E`: the error record takes the code and the command's opcode field, and the response carries the code
with DATA = 0 (R115, R316). This is all the block does for an error: no trap, no mode change, no return (R317,
R318). -/
def raise (opc : Byte) (e : Status) (s : State) : State :=
  { s with errCode := statusCode e, errOpc := opc, response := some (responseWord (statusCode e) 0#56) }

/-- What a command's own rule ends in: exactly one of `respond` and `raise` (R11). -/
inductive Answer where
  | respond (d : Data)
  | raise (e : Status)
  deriving DecidableEq, Repr

/-- End the command with opcode field `opc` as its rule says (R11, R316). -/
def finish (opc : Byte) (a : Answer) (s : State) : State :=
  match a with
  | .respond d => respond d s
  | .raise e => raise opc e s

/-! ## The ports (R360, R361) -/

/-- `cmd_ready`: no response is waiting; no command is in execution between two steps (R361, R54). -/
def cmdReady (s : State) : Bool := s.response.isNone

/-- `rsp_valid`: a response word is offered (R360). -/
def rspValid (s : State) : Bool := s.response.isSome

/-- `rsp_data` while `rsp_valid` is 1 (R360). -/
def rspData (s : State) : Option ResponseWord := s.response

/-- The transfer of the waiting response word to the host, if there is one (R360, R361). -/
def transferResponse (s : State) : State :=
  match s.response with
  | none => s
  | some r => { s with response := none, taken := s.taken ++ [r] }

/-- The transfer of the offered command word: the host's position moves on by one (R34). -/
def acceptCommand (rest : List HostMove) (s : State) : State :=
  { s with host := rest, position := s.position + 1 }

/-! ## Reset and CLEAR -/

/-- The block's state zeroed, as CLEAR's rule writes it and reset's rule repeats it (R152, R350, R352): ORDER, NODE
and HEAP hold no value afterwards. -/
def clearBlock (s : State) : State :=
  { s with
    phase := .load
    freq := [], rom := []
    distinct := 0, total := 0
    nodeCount := 0, heapCount := 0
    root := 0, rootValid := false, maxLen := 0
    errCode := 0#8, errOpc := 0#8
    order := [], node := [], heap := [] }

/-- Reset (R350, R351, R353): the block's state zeroed, and a response that was offered but not taken dropped. The
responses the host took before stay (R369). -/
def resetBlock (s : State) : State := { clearBlock s with response := none }

/-! ## Arrays (R10, R81) -/

/-- Read an entry of an array of `size` entries that need not hold a value (R56, R10). -/
def arrayRead {α : Type} (a : ArrayName) (size : Nat) (c : Cells α) (i : Nat) : Except Fault α :=
  if i < size then
    match cellsGet c i with
    | some v => .ok v
    | none => .error (.noValue a)
  else .error (.noSuchEntry a)

/-- Write an entry of an array of `size` entries (R10). -/
def arrayWrite {α : Type} (a : ArrayName) (size : Nat) (c : Cells α) (i : Nat) (v : α) : Except Fault (Cells α) :=
  if i < size then .ok (cellsSet c i v) else .error (.noSuchEntry a)

/-- `FREQ[s]` (R35). -/
def freqRead (s : State) (sym : Nat) : Nat := cellsAt 0 s.freq sym

/-- `FREQ[s] <- c` (R35). -/
def freqWrite (s : State) (sym c : Nat) : State := { s with freq := cellsPut 0 s.freq sym c }

/-- `ORDER[k]` (R36). -/
def orderRead (s : State) (k : Nat) : Except Fault Nat := arrayRead .order s.config.dMax s.order k

/-- `NODE[i]` (R39). -/
def nodeRead (s : State) (i : Nat) : Except Fault NodeRecord := arrayRead .node s.config.nodeMax s.node i

/-- `NODE[i] <- n` (R39). -/
def nodeWrite (s : State) (i : Nat) (n : NodeRecord) : Except Fault State := do
  let c ← arrayWrite .node s.config.nodeMax s.node i n
  .ok { s with node := c }

/-- `key(n) = NODE[n].freq` (R211). -/
def nodeKey (s : State) (n : Nat) : Except Fault Nat := do
  let r ← nodeRead s n
  .ok (nodeFreq r)

/-- `HEAP[k]` (R42). -/
def heapRead (s : State) (k : Nat) : Except Fault Nat := arrayRead .heap s.config.heapMax s.heap k

/-- The ROM entry of a symbol (R44). -/
def romRead (s : State) (sym : Nat) : RomEntry := cellsAt RomEntry.zero s.rom sym

end Sys2Proof.Machine
end

