-- ==== Sys2Proof/Machine/Operands.lean ====
section
/-! DEFINITION. The checks every command makes before its own rule runs (`30_encoding.md` R118, R111, R112;
`10_state.md` R32), and the frame in which a command's rule runs. The SYM and ARG fields are the only operand forms
of the block (R82, R122). -/

namespace Sys2Proof.Machine

/-- The admission table of R32. -/
def admitted : Opcode → Phase → Bool
  | .nop, _ => true
  | .clear, _ => true
  | .readReg, _ => true
  | .addSymbol, p => p == .load
  | .setFreq, p => p == .load
  | .readFreq, _ => true
  | .readOrder, _ => true
  | .readHeap, _ => true
  | .buildInit, p => p == .load
  | .buildStep, p => p == .merging
  | .build, p => p == .load || p == .merging
  | .readNodeF, _ => true
  | .readNodeL, _ => true
  | .readCodeLen, p => p == .built
  | .readCodeBits, p => p == .built

/-- The checks of R118 that need the block's state or configuration, in their order: PHASE, SYM_RANGE, ARG_RANGE.
The answer is the first that fails. -/
def admissionError (o : Opcode) (sym : SymField) (arg : ArgField) (s : State) : Option Status :=
  if admitted o s.phase = false then some .phase
  else if usesSym o = true ∧ symInRange s.config sym = false then some .symRange
  else if o = .setFreq ∧ countInRange s.config arg = false then some .argRange
  else none

/-- Run a command (R118, R11): refuse a configuration that is none of this hardware (R8); raise the first admission
error, with nothing else changed; otherwise run the command's own rule and end as it says. -/
def runCommand (o : Opcode) (sym : SymField) (arg : ArgField) (rule : State → Except Fault (Answer × State))
    (s : State) : StepOutcome :=
  if s.config.legal = false then .refused .illegalConfiguration
  else
    match admissionError o sym arg s with
    | some e => .next (raise (opcodeByte o) e s)
    | none =>
      match rule s with
      | .error f => .fault f
      | .ok (a, t) => .next (finish (opcodeByte o) a t)

end Sys2Proof.Machine
end

