-- ==== Sys2Proof/Machine/Queue.lean ====
section
/-! DEFINITION. The priority queue (`42_priority_queue.md`): the micro-operations Enqueue, Dequeue and Count
(R212 to R214), and the command READ_HEAP (R218). A micro-operation works on the array HEAP alone; `key` gives the
key of a node (R211). -/

namespace Sys2Proof.Machine

/-- `swap HEAP[i], HEAP[j]`, where the entries hold `a` and `b`. -/
def heapSwap (h : Cells Nat) (i : Nat) (a : Nat) (j : Nat) (b : Nat) : Cells Nat := cellsSet (cellsSet h i b) j a

/-- The loop of Enqueue (R212): while the parent's key is strictly greater, the item moves up. The position falls at
every turn, so `fuel` = the first position bounds the turns. -/
def siftUp (size : Nat) (key : Nat → Except Fault Nat) : (fuel : Nat) → Cells Nat → Nat → Except Fault (Cells Nat)
  | 0, h, _ => .ok h
  | fuel + 1, h, k =>
    if k = 0 then .ok h
    else do
      let p := (k - 1) / 2
      let above ← arrayRead .heap size h p
      let item ← arrayRead .heap size h k
      let keyAbove ← key above
      let keyItem ← key item
      if keyItem < keyAbove then siftUp size key fuel (heapSwap h p above k item) p
      else .ok h

/-- The child to compare against (R213): the left one at `2k + 1`, or the right one if it exists and its key is
strictly smaller. -/
def smallerChild (size : Nat) (key : Nat → Except Fault Nat) (h : Cells Nat) (count k : Nat) : Except Fault Nat :=
  let l := 2 * k + 1
  let r := 2 * k + 2
  if r < count then do
    let left ← arrayRead .heap size h l
    let right ← arrayRead .heap size h r
    let keyLeft ← key left
    let keyRight ← key right
    if keyRight < keyLeft then .ok r else .ok l
  else .ok l

/-- The loop of Dequeue (R213): while a child has a strictly smaller key, the item moves down. The position rises at
every turn and stays below `count`, so `fuel` = `count` bounds the turns. -/
def siftDown (size : Nat) (key : Nat → Except Fault Nat) (count : Nat) :
    (fuel : Nat) → Cells Nat → Nat → Except Fault (Cells Nat)
  | 0, h, _ => .ok h
  | fuel + 1, h, k =>
    if count ≤ 2 * k + 1 then .ok h
    else do
      let c ← smallerChild size key h count k
      let child ← arrayRead .heap size h c
      let item ← arrayRead .heap size h k
      let keyChild ← key child
      let keyItem ← key item
      if keyChild < keyItem then siftDown size key count fuel (heapSwap h c child k item) c
      else .ok h

/-- `Count()` (R214). -/
def queueCount (s : State) : Nat := s.heapCount

/-- `Enqueue(n)` (R212). -/
def enqueue (n : Nat) (s : State) : Except Fault State := do
  let h ← arrayWrite .heap s.config.heapMax s.heap s.heapCount n
  let h' ← siftUp s.config.heapMax (nodeKey s) s.heapCount h s.heapCount
  .ok { s with heap := h', heapCount := s.heapCount + 1 }

/-- `Dequeue()` (R213): the item of the root slot; the last item moves there and down. An empty queue is a fault
(R215, R319). -/
def dequeue (s : State) : Except Fault (Nat × State) :=
  if s.heapCount = 0 then .error .emptyQueue
  else do
    let top ← arrayRead .heap s.config.heapMax s.heap 0
    let count := s.heapCount - 1
    if count = 0 then .ok (top, { s with heap := cellsErase s.heap count, heapCount := count })
    else do
      let last ← arrayRead .heap s.config.heapMax s.heap count
      let h ← siftDown s.config.heapMax (nodeKey s) count count (cellsErase (cellsSet s.heap 0 last) count) 0
      .ok (top, { s with heap := h, heapCount := count })

/-- The rule of READ_HEAP after the decode stage (R218). -/
def readHeapRule (arg : ArgField) (s : State) : Except Fault (Answer × State) :=
  if s.heapCount ≤ arg.toNat then .ok (.raise .indexRange, s)
  else do
    let v ← heapRead s arg.toNat
    .ok (.respond (fieldData s.config.nodeW v), s)

/-- READ_HEAP (R218). -/
def execReadHeap (arg : ArgField) (s : State) : StepOutcome :=
  runCommand .readHeap 0#16 arg (readHeapRule arg) s

end Sys2Proof.Machine
end

