-- ==== Sys2Proof/Machine/Rom.lean ====
section
/-! DEFINITION. The code-table ROM (`44_code_rom.md`): its generation from a tree (R281, R282) and the commands
READ_CODE_LEN (R287) and READ_CODE_BITS (R288). -/

namespace Sys2Proof.Machine

/-- `bits(path)` (R281): digit p of the code is bit p; `true` is the digit '1', the right turn. -/
def codeBits : List Bool → Nat
  | [] => 0
  | b :: rest => (if b then 1 else 0) + 2 * codeBits rest

/-- `max_depth(i)` (R282). Each child has a smaller index than its node (R245), so `fuel` = i + 1 suffices; where it
does not, following children never reaches leaves and the nodes form no tree. -/
def maxDepth (s : State) : (fuel : Nat) → Nat → Except Fault Nat
  | 0, _ => .error .notATree
  | fuel + 1, i => do
    let n ← nodeRead s i
    match n with
    | .leaf _ _ => .ok 0
    | .internal _ l r => do
      let dl ← maxDepth s fuel l
      let dr ← maxDepth s fuel r
      .ok (1 + max dl dr)

/-- `walk(i, path)` (R282): pre-order, an entry recorded at each leaf. -/
def walk (s : State) : (fuel : Nat) → Nat → List Bool → Cells RomEntry → Except Fault (Cells RomEntry)
  | 0, _, _, _ => .error .notATree
  | fuel + 1, i, path, rom => do
    let n ← nodeRead s i
    match n with
    | .leaf _ sym =>
      arrayWrite .rom s.config.dMax rom sym { valid := true, len := path.length, bits := codeBits path }
    | .internal _ l r => do
      let rom' ← walk s fuel l (path ++ [false]) rom
      walk s fuel r (path ++ [true]) rom'

/-- `max over s of rom.CODE_LEN[s]` (R282, R44). -/
def maxCodeLen (rom : Cells RomEntry) : Nat := rom.foldr (fun e m => max e.2.len m) 0

/-- `rom_of(r)` (R282): the ROM and MAX_LEN that the tree under `r` gives, or none where some leaf lies deeper than
LMAX (CODE_TOO_LONG, R283). It reads the node store and writes nothing. -/
def romOf (s : State) (r : Nat) : Except Fault (Option (Cells RomEntry × Nat)) := do
  let depth ← maxDepth s (r + 1) r
  if s.config.lmax < depth then .ok none
  else do
    let rom ← walk s (r + 1) r [] []
    .ok (some (rom, maxCodeLen rom))

/-- READ_CODE_LEN (R287). -/
def execReadCodeLen (sym : SymField) (s : State) : StepOutcome :=
  runCommand .readCodeLen sym 0#32 (fun s => .ok (.respond (codeLenData (romRead s sym.toNat)), s)) s

/-- The rule of READ_CODE_BITS after the decode stage (R288). -/
def readCodeBitsRule (sym : SymField) (arg : ArgField) (s : State) : Except Fault (Answer × State) :=
  if s.config.nchunk ≤ arg.toNat then .ok (.raise .indexRange, s)
  else .ok (.respond (codeChunkData s.config.lmax (romRead s sym.toNat).bits arg.toNat), s)

/-- READ_CODE_BITS (R288). -/
def execReadCodeBits (sym : SymField) (arg : ArgField) (s : State) : StepOutcome :=
  runCommand .readCodeBits sym arg (readCodeBitsRule sym arg) s

end Sys2Proof.Machine
end

