-- ==== Sys2Proof/Machine/Builder.lean ====
section
/-! DEFINITION. The tree builder (`43_tree_builder.md`): the leaves (R246), the merge step (R247), the finalize step
(R248), the commands BUILD_INIT, BUILD_STEP and BUILD (R246, R249, R250) and the reads of the node store (R262,
R263). -/

namespace Sys2Proof.Machine

/-- The loop of BUILD_INIT (R246), for `n` positions from `k` on: the leaf of `ORDER[k]` is written as node k and
enqueued. -/
def initLeaves : (n : Nat) → (k : Nat) → State → Except Fault State
  | 0, _, s => .ok s
  | n + 1, k, s => do
    let sym ← orderRead s k
    let t ← nodeWrite s k (.leaf (freqRead s sym) sym)
    let u ← enqueue k t
    initLeaves n (k + 1) u

/-- BUILD_INIT's body without its respond (R246, R250). -/
def buildInitBody (s : State) : Except Fault State := do
  let t ← initLeaves s.distinct 0 s
  .ok { t with nodeCount := s.distinct, phase := .merging }

/-- The merge step (R247): the first item dequeued is the left child, the second the right one (R241), and the new
node's frequency is their sum (R242). It returns the new node's index. -/
def merge (s : State) : Except Fault (Nat × State) := do
  let (x, t) ← dequeue s
  let (y, u) ← dequeue t
  let keyX ← nodeKey u x
  let keyY ← nodeKey u y
  let n := u.nodeCount
  let v ← nodeWrite u n (.internal (keyX + keyY) x y)
  let w ← enqueue n { v with nodeCount := n + 1 }
  .ok (n, w)

/-- The merges of BUILD (R250): while Count() > 1. Each merge lowers Count() by one, so `fuel` = Count() bounds the
turns. -/
def mergeAll : (fuel : Nat) → State → Except Fault State
  | 0, s => .ok s
  | fuel + 1, s =>
    if 1 < queueCount s then do
      let (_, t) ← merge s
      mergeAll fuel t
    else .ok s

/-- The finalize step (R248), for Count() ≤ 1: CODE_TOO_LONG before any write, or the root taken out of the queue,
the ROM filled and PHASE = BUILT. -/
def finalize (s : State) : Except Fault (Answer × State) :=
  if queueCount s = 1 then do
    let r ← heapRead s 0
    let result ← romOf s r
    match result with
    | none => .ok (.raise .codeTooLong, s)
    | some (rom, maxLen) => do
      let (_, t) ← dequeue s
      .ok (.respond (finalizeData true r),
        { t with root := r, rootValid := true, rom := rom, maxLen := maxLen, phase := .built })
  else
    .ok (.respond (finalizeData false 0),
      { s with root := 0, rootValid := false, rom := [], maxLen := 0, phase := .built })

/-- The rule of BUILD_INIT after the decode stage (R246). -/
def buildInitRule (s : State) : Except Fault (Answer × State) := do
  let t ← buildInitBody s
  .ok (.respond (fieldData (s.config.symW + 1) s.distinct), t)

/-- BUILD_INIT (R246). -/
def execBuildInit (s : State) : StepOutcome := runCommand .buildInit 0#16 0#32 buildInitRule s

/-- The rule of BUILD_STEP after the decode stage (R249). -/
def buildStepRule (s : State) : Except Fault (Answer × State) :=
  if 1 < queueCount s then do
    let (n, t) ← merge s
    .ok (.respond (fieldData s.config.nodeW n), t)
  else finalize s

/-- BUILD_STEP (R249). -/
def execBuildStep (s : State) : StepOutcome := runCommand .buildStep 0#16 0#32 buildStepRule s

/-- The rule of BUILD after the decode stage (R250). The merges stay when finalize raises CODE_TOO_LONG (R259). -/
def buildRule (s : State) : Except Fault (Answer × State) := do
  let t ← if s.phase = .load then buildInitBody s else .ok s
  let u ← mergeAll (queueCount t) t
  finalize u

/-- BUILD (R250). -/
def execBuild (s : State) : StepOutcome := runCommand .build 0#16 0#32 buildRule s

/-- The rule of READ_NODE_F after the decode stage (R262). -/
def readNodeFRule (arg : ArgField) (s : State) : Except Fault (Answer × State) :=
  if s.nodeCount ≤ arg.toNat then .ok (.raise .indexRange, s)
  else do
    let n ← nodeRead s arg.toNat
    .ok (.respond (nodeFreqData n), s)

/-- READ_NODE_F (R262). -/
def execReadNodeF (arg : ArgField) (s : State) : StepOutcome :=
  runCommand .readNodeF 0#16 arg (readNodeFRule arg) s

/-- The rule of READ_NODE_L after the decode stage (R263). -/
def readNodeLRule (arg : ArgField) (s : State) : Except Fault (Answer × State) :=
  if s.nodeCount ≤ arg.toNat then .ok (.raise .indexRange, s)
  else do
    let n ← nodeRead s arg.toNat
    .ok (.respond (nodeLinkData n), s)

/-- READ_NODE_L (R263). -/
def execReadNodeL (arg : ArgField) (s : State) : StepOutcome :=
  runCommand .readNodeL 0#16 arg (readNodeLRule arg) s

end Sys2Proof.Machine
end

