-- ==== Sys2Proof/Machine/Control.lean ====
section
/-! DEFINITION. The control commands (`40_control.md`): NOP, CLEAR, READ_REG. -/

namespace Sys2Proof.Machine

/-- NOP (R151): no effect, `respond(0)`. -/
def execNop (s : State) : StepOutcome :=
  runCommand .nop 0#16 0#32 (fun s => .ok (.respond 0#56, s)) s

/-- CLEAR (R152): the block's state zeroed, the error record included, then `respond(0)`. -/
def execClear (s : State) : StepOutcome :=
  runCommand .clear 0#16 0#32 (fun s => .ok (.respond 0#56, clearBlock s)) s

/-- The register map (R45, R49, R153): the contents of register `r`, or none from 0x09 on. -/
def registerData (s : State) (r : Nat) : Option Data :=
  match r with
  | 0 => some (statusData s)
  | 1 => some (fieldData (s.config.symW + 1) s.distinct)
  | 2 => some (fieldData s.config.freqW s.total)
  | 3 => some (fieldData s.config.nodeW s.nodeCount)
  | 4 => some (fieldData (s.config.symW + 1) s.heapCount)
  | 5 => some (rootData s.rootValid s.root)
  | 6 => some (fieldData 16 s.maxLen)
  | 7 => some (paramData s.config)
  | 8 => some identData
  | _ => none

/-- The rule of READ_REG after the decode stage (R153). -/
def readRegRule (arg : ArgField) (s : State) : Except Fault (Answer × State) :=
  match registerData s arg.toNat with
  | some d => .ok (.respond d, s)
  | none => .ok (.raise .indexRange, s)

/-- READ_REG (R153). -/
def execReadReg (arg : ArgField) (s : State) : StepOutcome := runCommand .readReg 0#16 arg (readRegRule arg) s

end Sys2Proof.Machine
end

