-- ==== Sys2Proof/Machine/Frequency.lean ====
section
/-! DEFINITION. The frequency-table commands (`41_frequency.md`): ADD_SYMBOL, SET_FREQ, READ_FREQ, READ_ORDER, and
the ORDER primitives (R182). -/

namespace Sys2Proof.Machine

/-! ## ORDER primitives (R182) -/

/-- `order_append(s)`: `ORDER[DISTINCT] <- s`, `DISTINCT <- DISTINCT + 1`. -/
def orderAppend (sym : Nat) (s : State) : Except Fault State := do
  let c ← arrayWrite .order s.config.dMax s.order s.distinct sym
  .ok { s with order := c, distinct := s.distinct + 1 }

/-- The position with `ORDER[k] = s`, among `n` positions from `k` on. -/
def orderPosition (size : Nat) (c : Cells Nat) (sym : Nat) : (n : Nat) → (k : Nat) → Except Fault Nat
  | 0, _ => .error .symbolNotInOrder
  | n + 1, k => do
    let v ← arrayRead .order size c k
    if v = sym then .ok k else orderPosition size c sym n (k + 1)

/-- `ORDER[j] <- ORDER[j+1]`, for `n` positions from `j` on. -/
def orderShift (size : Nat) : (n : Nat) → (j : Nat) → Cells Nat → Except Fault (Cells Nat)
  | 0, _, c => .ok c
  | n + 1, j, c => do
    let v ← arrayRead .order size c (j + 1)
    let c' ← arrayWrite .order size c j v
    orderShift size n (j + 1) c'

/-- `order_remove(s)`: the entries after the symbol's move down by one, and the last holds no value. -/
def orderRemove (sym : Nat) (s : State) : Except Fault State := do
  let k ← orderPosition s.config.dMax s.order sym s.distinct 0
  let c ← orderShift s.config.dMax (s.distinct - 1 - k) k s.order
  .ok { s with order := cellsErase c (s.distinct - 1), distinct := s.distinct - 1 }

/-! ## Commands -/

/-- The rule of ADD_SYMBOL after the decode stage (R181). -/
def addSymbolRule (sym : SymField) (s : State) : Except Fault (Answer × State) :=
  if s.total = s.config.fmax then .ok (.raise .freqOverflow, s)
  else do
    let t ← if freqRead s sym.toNat = 0 then orderAppend sym.toNat s else .ok s
    let u := freqWrite t sym.toNat (freqRead t sym.toNat + 1)
    let v := { u with total := u.total + 1 }
    .ok (.respond (fieldData v.config.freqW (freqRead v sym.toNat)), v)

/-- ADD_SYMBOL (R181). -/
def execAddSymbol (sym : SymField) (s : State) : StepOutcome :=
  runCommand .addSymbol sym 0#32 (addSymbolRule sym) s

/-- `TOTAL − FREQ[s] + c` as an unbounded natural (R183). The subtraction comes last; with FREQ[s] ≤ TOTAL (R52) the
order makes no difference. DEDUCED (log 11), safe under R52. -/
def newTotal (s : State) (sym c : Nat) : Nat := s.total + c - freqRead s sym

/-- The rule of SET_FREQ after the decode stage (R183). -/
def setFreqRule (sym : SymField) (arg : ArgField) (s : State) : Except Fault (Answer × State) :=
  let old := freqRead s sym.toNat
  let total := newTotal s sym.toNat arg.toNat
  if s.config.fmax < total then .ok (.raise .freqOverflow, s)
  else do
    let t ←
      if old = 0 ∧ 0 < arg.toNat then orderAppend sym.toNat s
      else if 0 < old ∧ arg.toNat = 0 then orderRemove sym.toNat s
      else .ok s
    .ok (.respond (fieldData s.config.freqW old), { freqWrite t sym.toNat arg.toNat with total := total })

/-- SET_FREQ (R183). -/
def execSetFreq (sym : SymField) (arg : ArgField) (s : State) : StepOutcome :=
  runCommand .setFreq sym arg (setFreqRule sym arg) s

/-- READ_FREQ (R184): `respond(zext_56(FREQ[SYM]))`. -/
def execReadFreq (sym : SymField) (s : State) : StepOutcome :=
  runCommand .readFreq sym 0#32
    (fun s => .ok (.respond (fieldData s.config.freqW (freqRead s sym.toNat)), s)) s

/-- The rule of READ_ORDER after the decode stage (R185). -/
def readOrderRule (arg : ArgField) (s : State) : Except Fault (Answer × State) :=
  if s.distinct ≤ arg.toNat then .ok (.raise .indexRange, s)
  else do
    let v ← orderRead s arg.toNat
    .ok (.respond (fieldData s.config.symW v), s)

/-- READ_ORDER (R185). -/
def execReadOrder (arg : ArgField) (s : State) : StepOutcome :=
  runCommand .readOrder 0#16 arg (readOrderRule arg) s

end Sys2Proof.Machine
end

