-- ==== Sys2Proof/Machine/Dispatch.lean ====
section
/-! DEFINITION. The dispatch of a command to its meaning: one arm per constructor of `Instr` (`30_encoding.md`
R116). -/

namespace Sys2Proof.Machine

/-- Execute one command (R85: one indivisible step). -/
def exec (i : Instr) (s : State) : Host.Outcome State Fault Refusal :=
  match i with
  | .nop => Sys2Proof.Machine.execNop s
  | .clear => Sys2Proof.Machine.execClear s
  | .readReg arg => Sys2Proof.Machine.execReadReg arg s
  | .addSymbol sym => Sys2Proof.Machine.execAddSymbol sym s
  | .setFreq sym arg => Sys2Proof.Machine.execSetFreq sym arg s
  | .readFreq sym => Sys2Proof.Machine.execReadFreq sym s
  | .readOrder arg => Sys2Proof.Machine.execReadOrder arg s
  | .readHeap arg => Sys2Proof.Machine.execReadHeap arg s
  | .buildInit => Sys2Proof.Machine.execBuildInit s
  | .buildStep => Sys2Proof.Machine.execBuildStep s
  | .build => Sys2Proof.Machine.execBuild s
  | .readNodeF arg => Sys2Proof.Machine.execReadNodeF arg s
  | .readNodeL arg => Sys2Proof.Machine.execReadNodeL arg s
  | .readCodeLen sym => Sys2Proof.Machine.execReadCodeLen sym s
  | .readCodeBits sym arg => Sys2Proof.Machine.execReadCodeBits sym arg s

end Sys2Proof.Machine
end

