-- ==== Sys2Proof/Machine/Port.lean ====
section
/-! DEFINITION. What the block does with the next move of the host (`70_reset_and_hazards.md` R351, R353, R360 to
R362, R368), and with a command word (`30_encoding.md` R118). -/

namespace Sys2Proof.Machine

/-- The status code with which the block answers a word that is no command (R118, R119, R111 to R113). -/
def decodeErrorStatus : DecodeError → Status
  | .illegalOpcode => .illegalOpcode
  | .reservedBits => .reservedBits

/-- Run one command word (R118): the decode stage on the word, then the command, or the error with the word's own
opcode field in the error record (R316). -/
def runWord (w : CommandWord) (s : State) : StepOutcome :=
  match decode w with
  | .error e => .next (raise (opcField w) (decodeErrorStatus e) s)
  | .ok i => exec i s

/-- The command word the block accepts next: the host offers it and `cmd_ready` is 1 (R361). -/
def fetchWord (s : State) : Option CommandWord :=
  if cmdReady s then
    match s.host with
    | .command w :: _ => some w
    | .takeResponse :: _ => none
    | .reset :: _ => none
    | [] => none
  else none

/-- One event at the block's ports.

* A reset wins over everything (R353).
* A response transfers when the host takes it (R360).
* A command word transfers when `cmd_ready` is 1, and runs (R361, R85); while a response waits, the offered word
  stays offered (R362) and the host takes the response, as it must (R365, R368).
* A host that has no move left takes the last response, which ends the run (R369); after that the block is idle and
  holds its state (R335). -/
def portStep (s : State) : StepOutcome :=
  match s.host with
  | .reset :: rest => .next (resetBlock { s with host := rest })
  | .takeResponse :: rest => .next (transferResponse { s with host := rest })
  | .command w :: rest =>
    if cmdReady s then runWord w (acceptCommand rest s) else .next (transferResponse s)
  | [] => .next (transferResponse s)

/-- The state with a command word offered as the host's next move and the command port ready. -/
def offerWord (w : CommandWord) (s : State) : State := { s with host := .command w :: s.host, response := none }

/-- The word that the bytes of a transport carry, or 0 where they hold no whole word (R83). -/
def wordOfTransport (bs : List Byte) : CommandWord :=
  match wordOfBytes bs with
  | some (w, _) => w
  | none => 0#64

end Sys2Proof.Machine
end

