-- ==== Sys2Proof/Machine/Step.lean ====
section
/-! DEFINITION. One step of the machine (`20_memory.md` R85, R90): one event at the block's ports, in a
configuration of this hardware (`00_scope.md` R8). -/

namespace Sys2Proof.Machine

/-- One step: a configuration outside the legal ranges is refused (R8); otherwise the next event. -/
def step (s : State) : Host.Outcome State Fault Refusal :=
  if s.config.legal = false then .refused .illegalConfiguration else portStep s

/-- The state with an instruction word of the opcode table, laid out as the transport carries it (R83), offered as
the host's next move, so that the next step runs it. -/
def State.withFetchWord (s : State) (nbits w : Nat) : State := offerWord (wordOfTransport (tableBytes nbits w)) s

end Sys2Proof.Machine
end

