-- ==== Sys2Proof/Machine/HostModel.lean ====
section
/-! DEFINITION. The host's procedures over the block's commands (`70_reset_and_hazards.md` R366, R367;
`30_encoding.md` R124 READ_CODE). They are software outside the block (R4); every effect on the block is a step. -/

namespace Sys2Proof.Machine

/-- Why a host procedure ends without a result. -/
inductive HostStop where
  /-- The machine stopped with a fault. -/
  | fault (f : Fault)
  /-- The machine refused. -/
  | refused (r : Refusal)
  /-- A command failed with this status code. -/
  | failed (st : Byte)
  /-- The block was not ready for a command. -/
  | notReady
  deriving DecidableEq, Repr

/-- Send one command word and take its response: two steps, the transfer of the word with its execution, and the
transfer of the response (R360, R361). -/
def transact (w : CommandWord) (s : State) : Except HostStop (ResponseWord × State) :=
  match fetchWord { s with host := .command w :: .takeResponse :: s.host } with
  | none => .error .notReady
  | some _ =>
    match step { s with host := .command w :: .takeResponse :: s.host } with
    | .fault f => .error (.fault f)
    | .refused r => .error (.refused r)
    | .next t =>
      match t.response, step t with
      | some r, .next u => .ok (r, u)
      | some _, .fault f => .error (.fault f)
      | some _, .refused r => .error (.refused r)
      | none, _ => .error .notReady

/-- Send one command and use its DATA; a failing status ends the procedure. -/
def issue (i : Instr) (s : State) : Except HostStop (Data × State) := do
  let (r, t) ← transact (encode i) s
  if stField r = statusCode .ok then .ok (dataField r, t) else .error (.failed (stField r))

/-- Send commands in order, using no result (`ADD_STRING`, R124). -/
def issueAll : List Instr → State → Except HostStop State
  | [], s => .ok s
  | i :: rest, s => do
    let (_, t) ← issue i s
    issueAll rest t

/-- The digits of a symbol's code from position p on, `n` of them: digit p is bit p mod 32 of chunk p div 32
(R366, R281). -/
def readDigits (sym : SymField) : (n : Nat) → (p : Nat) → State → Except HostStop (List Char × State)
  | 0, _, s => .ok ([], s)
  | n + 1, p, s => do
    let (d, t) ← issue (.readCodeBits sym (BitVec.ofNat 32 (p / 32))) s
    let (rest, u) ← readDigits sym n (p + 1) t
    .ok ((if d.getLsbD (p % 32) then '1' else '0') :: rest, u)

/-- The part of the encode loop that reads one code (R366): the code's length, then its digits, one READ_CODE_BITS for
each. -/
def readCode (sym : SymField) (s : State) : Except HostStop (List Char × State) := do
  let (d, t) ← issue (.readCodeLen sym) s
  readDigits sym (d.extractLsb' 0 16).toNat 0 t

/-- READ_CODE_BITS of `n` chunks from chunk `k` on (R124). -/
def readChunks (sym : SymField) : (n : Nat) → (k : Nat) → State → Except HostStop (List Data × State)
  | 0, _, s => .ok ([], s)
  | n + 1, k, s => do
    let (d, t) ← issue (.readCodeBits sym (BitVec.ofNat 32 k)) s
    let (rest, u) ← readChunks sym n (k + 1) t
    .ok (d :: rest, u)

/-- The pseudo-instruction `READ_CODE s` (R124): READ_CODE_LEN, then ceil(LEN / 32) chunks. It gives the response of the
first and the chunks. -/
def readCodePseudo (sym : SymField) (s : State) : Except HostStop (Data × List Data × State) := do
  let (d, t) ← issue (.readCodeLen sym) s
  let (chunks, u) ← readChunks sym (((d.extractLsb' 0 16).toNat + 31) / 32) 0 t
  .ok (d, chunks, u)

/-- The codes of the input's symbols, concatenated in input order (R366). -/
def encodeSymbols : List SymField → State → Except HostStop (List Char × State)
  | [], s => .ok ([], s)
  | x :: xs, s => do
    let (code, t) ← readCode x s
    let (rest, u) ← encodeSymbols xs t
    .ok (code ++ rest, u)

/-- `host_encode` (R366). -/
def hostEncode (input : List SymField) (s : State) : Except HostStop (List Char × State) := do
  let t ← issueAll (.clear :: input.map Instr.addSymbol ++ [.build]) s
  encodeSymbols input t

/-- The result of the host's decode walk (R367). -/
inductive DecodeResult where
  | symbols (out : List SymField)
  | malformedEncoding
  deriving DecidableEq, Repr

/-- Bit 55 of READ_NODE_L's response: the node is Internal (R263). -/
def linkIsInternal (d : Data) : Bool := d.getLsbD 55

/-- The index of the child that a digit leads to, if there is one (R367). -/
def linkChild (d : Data) (digit : Char) : Option (BitVec 24) :=
  if linkIsInternal d = true ∧ digit = '0' then some (d.extractLsb' 24 24)
  else if linkIsInternal d = true ∧ digit = '1' then some (d.extractLsb' 0 24)
  else none

/-- READ_NODE_L of a node (R367). -/
def readLinks (node : BitVec 24) (s : State) : Except HostStop (Data × State) := issue (.readNodeL (node.zeroExtend 32)) s

/-- The loop of `host_decode` (R367) from node `cur` on, with the symbols decoded so far. -/
def decodeWalk (policy : TrailingPolicy) (rootValid : Bool) (root : BitVec 24) :
    List Char → BitVec 24 → List SymField → State → Except HostStop (DecodeResult × State)
  | [], cur, out, s =>
    if cur ≠ root ∧ policy = .reject then .ok (.malformedEncoding, s) else .ok (.symbols out, s)
  | b :: rest, cur, out, s =>
    if rootValid = false then .ok (.malformedEncoding, s)
    else do
      let (d, t) ← readLinks cur s
      match linkChild d b with
      | none => .ok (.malformedEncoding, t)
      | some next => do
        let (e, u) ← readLinks next t
        if linkIsInternal e then decodeWalk policy rootValid root rest next out u
        else decodeWalk policy rootValid root rest root (out ++ [e.extractLsb' 0 16]) u

/-- `host_decode` (R367), with the open parameter TRAILING_POLICY (D41). -/
def hostDecode (policy : TrailingPolicy) (digits : List Char) (s : State) : Except HostStop (DecodeResult × State) := do
  let (d, t) ← issue (.readReg 0x05#32) s
  decodeWalk policy (d.getLsbD 31) (d.extractLsb' 0 24) digits (d.extractLsb' 0 24) [] t

end Sys2Proof.Machine
end

