-- ==== Sys2Proof/Safety.lean ====
section
/-! DEFINITION. What holds of the block in every state it can be in, in the terms the statements use: the
canonical form of the arrays, the frequency-table invariants (`10_state.md` R52), the heap invariant
(`42_priority_queue.md` R211), the laws of the node store (`43_tree_builder.md` R245, R251, R253, R254, R256), the
contents of each phase (R31, R255), and the error record (R40, R312). Every part is decidable. -/

namespace Sys2Proof.Machine

/-! ## Arrays in canonical form -/

/-- The arrays are in their one canonical form: indices strictly rising, and no entry listed that equals what an
unlisted index reads as. -/
abbrev ArraysCanonical (s : State) : Prop :=
  cellsSorted s.freq ∧ (∀ e ∈ s.freq, e.2 ≠ 0) ∧ cellsSorted s.order ∧ cellsSorted s.node ∧ cellsSorted s.heap ∧
    cellsSorted s.rom ∧ (∀ e ∈ s.rom, e.2 ≠ RomEntry.zero)

/-! ## The frequency table (R52) -/

/-- The symbols with a nonzero frequency, by rising value. -/
def presentSymbols (s : State) : List Nat := (List.range s.config.dMax).filter (fun x => decide (0 < freqRead s x))

/-- ORDER[0 .. DISTINCT−1], in order. -/
def orderList (s : State) : List Nat := cellsValues s.order

/-- The sum of all counts, `Σ_s FREQ[s]` (R38). -/
def freqSum (s : State) : Nat := ((List.range s.config.dMax).map (freqRead s)).sum

/-- The frequency-table invariants (R52), with FREQ's index range (R35): ORDER holds values exactly at
0 .. DISTINCT−1 and lists each present symbol exactly once; TOTAL is the sum of the counts and at most FMAX. -/
abbrev FrequencyTable (s : State) : Prop :=
  (∀ e ∈ s.freq, e.1 < s.config.dMax) ∧ cellsDense s.order s.distinct ∧
    (orderList s).Perm (presentSymbols s) ∧ s.total = freqSum s ∧ s.total ≤ s.config.fmax

/-! ## The priority queue (R211) -/

/-- The frequency of node i, 0 where no record is written. -/
def nodeFreqAt (s : State) (i : Nat) : Nat :=
  match cellsGet s.node i with
  | some n => nodeFreq n
  | none => 0

/-- HEAP[k], 0 where the entry holds no value. -/
def heapItem (s : State) (k : Nat) : Nat := cellsAt 0 s.heap k

/-- The items of the queue, HEAP[0 .. HEAP_COUNT−1], in order. -/
def heapItems (s : State) : List Nat := cellsValues s.heap

/-- `heap_ok` (R211): for every non-root position, the item's key is at least its parent's. -/
abbrev HeapOrdered (s : State) : Prop :=
  ∀ k < s.heapCount, 0 < k → nodeFreqAt s (heapItem s ((k - 1) / 2)) ≤ nodeFreqAt s (heapItem s k)

/-! ## The layout of the queue (R212, R213), said of the list of its items -/

/-- The item at a position of a list of items, 0 past its end. -/
def itemAt (l : List Nat) (j : Nat) : Nat := l[j]?.getD 0

/-- The position after `i` turns of a loop that starts at `k` and goes on to `next`. -/
def turn (next : Nat → Nat) (k : Nat) : Nat → Nat
  | 0 => k
  | i + 1 => next (turn next k i)

/-- The parent's position (R211). -/
def parentAt (k : Nat) : Nat := (k - 1) / 2

/-- The child position that Dequeue compares against, among `count` items (R213): the left one, or the right one if it
exists and its key is strictly smaller. -/
def lesserChild (key : Nat → Nat) (l : List Nat) (count k : Nat) : Nat :=
  if 2 * k + 2 < count ∧ key (itemAt l (2 * k + 2)) < key (itemAt l (2 * k + 1)) then 2 * k + 2 else 2 * k + 1

/-- What `m` swaps along a path of positions leave: the item `x` ends at position `pos m`, each item it met moved one
position back along the path, and every other item stays. -/
def MovedAlong (old new : List Nat) (pos : Nat → Nat) (m x : Nat) : Prop :=
  itemAt new (pos m) = x ∧ (∀ i < m, itemAt new (pos i) = itemAt old (pos (i + 1))) ∧
    ∀ k < new.length, (∀ i ≤ m, k ≠ pos i) → itemAt new k = itemAt old k

/-- The layout after Enqueue of item `n` (R212): from the first free position it moves up past every parent whose key
is strictly greater, and stays below the first one whose key is not. -/
def Enqueued (key : Nat → Nat) (old : List Nat) (n : Nat) (new : List Nat) : Prop :=
  new.length = old.length + 1 ∧
    ∃ m, MovedAlong old new (turn parentAt old.length) m n ∧
      (∀ i < m, 0 < turn parentAt old.length i ∧ key n < key (itemAt old (turn parentAt old.length (i + 1)))) ∧
      (turn parentAt old.length m = 0 ∨ key (itemAt old (turn parentAt old.length (m + 1))) ≤ key n)

/-- The layout after Dequeue (R213): the last item moves from the root down past every lesser child whose key is
strictly smaller, and stays above the first one whose key is not. -/
def Dequeued (key : Nat → Nat) (old new : List Nat) : Prop :=
  new.length + 1 = old.length ∧
    (0 < new.length →
      ∃ m, MovedAlong old new (turn (lesserChild key old new.length) 0) m (itemAt old new.length) ∧
        (∀ i < m, 2 * turn (lesserChild key old new.length) 0 i + 1 < new.length ∧
          key (itemAt old (turn (lesserChild key old new.length) 0 (i + 1))) < key (itemAt old new.length)) ∧
        (new.length ≤ 2 * turn (lesserChild key old new.length) 0 m + 1 ∨
          key (itemAt old new.length) ≤ key (itemAt old (turn (lesserChild key old new.length) 0 (m + 1)))))

/-- The layout after a merge (R247): two Dequeues, the second of which returns `right`, and Enqueue of the new node
`n`, whose key is among the keys `key'` after its creation. -/
def MergedLayout (key key' : Nat → Nat) (old : List Nat) (right n : Nat) (new : List Nat) : Prop :=
  ∃ l1 l2, Dequeued key old l1 ∧ right = itemAt l1 0 ∧ Dequeued key l1 l2 ∧ Enqueued key' l2 n new

/-! ## The node store -/

/-- The children a record names. -/
def nodeChildren : NodeRecord → List Nat
  | .leaf _ _ => []
  | .internal _ l r => [l, r]

/-- Record i is as R245 and R254 say: below DISTINCT the leaf of `ORDER[i]` with its count, and from DISTINCT on an
internal node whose children have smaller indices and whose frequency is the sum of theirs. -/
def nodeOk (s : State) (i : Nat) : Bool :=
  match cellsGet s.node i with
  | some (.leaf f sym) => decide (i < s.distinct) && decide (cellsGet s.order i = some sym) && decide (f = freqRead s sym)
  | some (.internal f l r) =>
    decide (s.distinct ≤ i) && decide (l < i) && decide (r < i) && decide (f = nodeFreqAt s l + nodeFreqAt s r)
  | none => false

/-- The children of node i, none where no record is written. -/
def childrenAt (s : State) (i : Nat) : List Nat :=
  match cellsGet s.node i with
  | some n => nodeChildren n
  | none => []

/-- What taking the two smallest items at every merge leaves behind (R213, R247): no child of a node has a larger
frequency than a child of a later node, or than a root. -/
abbrev GreedyOrder (s : State) (roots : List Nat) : Prop :=
  ∀ j < s.nodeCount, ∀ c ∈ childrenAt s j,
    (∀ i < j, ∀ b ∈ childrenAt s i, nodeFreqAt s b ≤ nodeFreqAt s c) ∧ ∀ r ∈ roots, nodeFreqAt s c ≤ nodeFreqAt s r

/-- The node store is a forest with the given roots (R256): records exactly at 0 .. NODE_COUNT−1, each as `nodeOk`
says, and every node exactly once a root or a child. The roots' frequencies sum to TOTAL (R253). -/
abbrev Forest (s : State) (roots : List Nat) : Prop :=
  cellsDense s.node s.nodeCount ∧ (∀ i < s.nodeCount, nodeOk s i = true) ∧
    (roots ++ (cellsValues s.node).flatMap nodeChildren).Perm (List.range s.nodeCount) ∧
    (roots.map (nodeFreqAt s)).sum = s.total ∧ GreedyOrder s roots

/-! ## The phases (R31) -/

/-- No root and no code: ROOT, ROOT_VALID, the ROM and MAX_LEN are 0 (R43, R44). -/
abbrev NoResult (s : State) : Prop := s.root = 0 ∧ s.rootValid = false ∧ s.rom = [] ∧ s.maxLen = 0

/-- LOAD: the node store, the heap and the ROM are empty (R31). -/
abbrev LoadPhase (s : State) : Prop :=
  s.node = [] ∧ s.nodeCount = 0 ∧ s.heap = [] ∧ s.heapCount = 0 ∧ NoResult s

/-- MERGING: the queue is a heap of the roots of the forest built so far (R211, R251, R256). -/
abbrev MergingPhase (s : State) : Prop :=
  cellsDense s.heap s.heapCount ∧ HeapOrdered s ∧ Forest s (heapItems s) ∧
    s.nodeCount + s.heapCount = 2 * s.distinct ∧ s.nodeCount ≤ 2 * s.distinct - 1 ∧ s.distinct ≤ s.nodeCount ∧ NoResult s

/-- The ROM and MAX_LEN are those of the tree under ROOT (R282). -/
def romIsOfRoot (s : State) : Bool :=
  match romOf s s.root with
  | .ok (some (rom, maxLen)) => decide (rom = s.rom) && decide (maxLen = s.maxLen)
  | .ok none => false
  | .error _ => false

/-- BUILT: the queue is empty, the forest is one tree under ROOT or there is no symbol (R255, R257, R258), and the
ROM is the one that tree gives (R282). -/
abbrev BuiltPhase (s : State) : Prop :=
  s.heap = [] ∧ s.heapCount = 0 ∧ s.nodeCount = 2 * s.distinct - 1 ∧
    (s.distinct = 0 → s.node = [] ∧ NoResult s) ∧
    (0 < s.distinct → s.rootValid = true ∧ s.root = 2 * s.distinct - 2 ∧ Forest s [s.root] ∧
      romIsOfRoot s = true)

/-- What PHASE says of the rest of the state (R31). -/
def phaseContents (s : State) : Bool :=
  match s.phase with
  | .load => decide (LoadPhase s)
  | .merging => decide (MergingPhase s)
  | .built => decide (BuiltPhase s)

/-! ## The error record (R40) and the responses (R312) -/

/-- The status codes the block returns (R312): OK, and 0x03 to 0x0A. EMPTY_QUEUE is unreachable (R319),
MALFORMED_ENCODING is the host's, and 0x0B to 0xFF are reserved. -/
def returnedCode (b : Byte) : Bool := b == 0#8 || (decide (3 ≤ b.toNat) && decide (b.toNat ≤ 10))

/-- The error record holds a code the block returns, and ERR_OPC is 0 when no command has failed (R40). -/
abbrev ErrorRecordOk (s : State) : Prop := returnedCode s.errCode = true ∧ (s.errCode = 0#8 → s.errOpc = 0#8)

/-- A response word the block gives: a status code of R312, and DATA = 0 with any status but OK (R115). -/
def responseOk (r : ResponseWord) : Bool := returnedCode (stField r) && (stField r == 0#8 || dataField r == 0#56)

/-- Every response word, waiting or taken, is one the block gives (R312, R115). -/
abbrev ResponsesOk (s : State) : Prop := s.response.all responseOk = true ∧ s.taken.all responseOk = true

/-! ## Codes as strings of digits -/

/-- The code that the ROM holds for a symbol (R281): its digits in path order, `true` for '1'. -/
def codeOf (s : State) (sym : Nat) : List Bool := (List.range (romRead s sym).len).map (romRead s sym).bits.testBit

/-- The symbols with a code, by rising value (R44). -/
def codedSymbols (s : State) : List Nat := (List.range s.config.dMax).filter (fun x => (romRead s x).valid)

/-- The child of node i that a digit leads to (R282): left for '0', right for '1', none at a leaf. -/
def childOn (s : State) (i : Nat) (digit : Bool) : Option Nat :=
  match cellsGet s.node i with
  | some (.internal _ l r) => some (if digit then r else l)
  | some (.leaf _ _) => none
  | none => none

/-- The node reached from node i by a string of digits (R289). -/
def nodeOn (s : State) : List Bool → Nat → Option Nat
  | [], i => some i
  | b :: rest, i => (childOn s i b).bind (nodeOn s rest)

/-- Node i is the leaf of a symbol. -/
def isLeafOf (s : State) (i sym : Nat) : Bool :=
  match cellsGet s.node i with
  | some (.leaf _ x) => x == sym
  | some (.internal _ _ _) => false
  | none => false

/-- Some leaf of the tree under a node lies deeper than `depth` (R283). -/
def LeafDeeper (s : State) (root depth : Nat) : Prop :=
  ∃ path i sym, nodeOn s path root = some i ∧ isLeafOf s i sym = true ∧ depth < path.length

/-- The frequency of node i if it is Internal, else 0. -/
def internalFreq (s : State) (i : Nat) : Nat :=
  match cellsGet s.node i with
  | some (.internal f _ _) => f
  | some (.leaf _ _) => 0
  | none => 0

/-! ## The invariant -/

/-- What holds of the block from reset on, after every command (R52, R216, R245, R251 to R256, R312). -/
abbrev Inv (s : State) : Prop :=
  s.config.legal = true ∧ ArraysCanonical s ∧ FrequencyTable s ∧ phaseContents s = true ∧ ErrorRecordOk s

/-- A run is safe when no step of it stops: no fault and no refusal. -/
def StepsSafely (s : State) : Prop := ∃ t, step s = .next t

/-! ## Command sequences and tables of the spec, for the statements -/

/-- Commands executed one after the other (R90), stopping at the first that does not end in a next state. -/
def execAll : List Instr → State → StepOutcome
  | [], s => .next s
  | i :: rest, s =>
    match exec i s with
    | .next t => execAll rest t
    | .fault f => .fault f
    | .refused r => .refused r

/-- The single steps that do a state's merges, without the finalize step (R260): BUILD_INIT in LOAD, and a BUILD_STEP
for every item of the queue but one. -/
def mergeSteps (s : State) : List Instr :=
  match s.phase with
  | .load => .buildInit :: List.replicate (s.distinct - 1) .buildStep
  | .merging => List.replicate (s.heapCount - 1) .buildStep
  | .built => []

/-- The distinct symbols of an input in order of first occurrence (R186). -/
def firstOccurrences (input : List Nat) : List Nat :=
  input.foldl (fun seen x => if x ∈ seen then seen else seen ++ [x]) []

/-- The commands that read and change nothing (R87). -/
def isRead : Instr → Bool
  | .nop => true
  | .clear => false
  | .readReg _ => true
  | .addSymbol _ => false
  | .setFreq _ _ => false
  | .readFreq _ => true
  | .readOrder _ => true
  | .readHeap _ => true
  | .buildInit => false
  | .buildStep => false
  | .build => false
  | .readNodeF _ => true
  | .readNodeL _ => true
  | .readCodeLen _ => true
  | .readCodeBits _ _ => true

/-- The status codes of the errors a command can return once its word has decoded (R313, less RESERVED_BITS, which
the word decides, and EMPTY_QUEUE, which is unreachable). -/
def possibleErrors : Instr → List Byte
  | .nop => []
  | .clear => []
  | .readReg _ => [0x08#8]
  | .addSymbol _ => [0x05#8, 0x06#8, 0x09#8]
  | .setFreq _ _ => [0x05#8, 0x06#8, 0x07#8, 0x09#8]
  | .readFreq _ => [0x06#8]
  | .readOrder _ => [0x08#8]
  | .readHeap _ => [0x08#8]
  | .buildInit => [0x05#8]
  | .buildStep => [0x05#8, 0x0A#8]
  | .build => [0x05#8, 0x0A#8]
  | .readNodeF _ => [0x08#8]
  | .readNodeL _ => [0x08#8]
  | .readCodeLen _ => [0x05#8, 0x06#8]
  | .readCodeBits _ _ => [0x05#8, 0x06#8, 0x08#8]

/-- The phases in which a command is admitted, as the table of R32 lists them. -/
def admittedIn : Instr → List Phase
  | .nop => [.load, .merging, .built]
  | .clear => [.load, .merging, .built]
  | .readReg _ => [.load, .merging, .built]
  | .addSymbol _ => [.load]
  | .setFreq _ _ => [.load]
  | .readFreq _ => [.load, .merging, .built]
  | .readOrder _ => [.load, .merging, .built]
  | .readHeap _ => [.load, .merging, .built]
  | .buildInit => [.load]
  | .buildStep => [.merging]
  | .build => [.load, .merging]
  | .readNodeF _ => [.load, .merging, .built]
  | .readNodeL _ => [.load, .merging, .built]
  | .readCodeLen _ => [.built]
  | .readCodeBits _ _ => [.built]

/-- The symbol operand of a command that takes one (R111). -/
def symbolOperand : Instr → Option SymField
  | .nop => none
  | .clear => none
  | .readReg _ => none
  | .addSymbol sym => some sym
  | .setFreq sym _ => some sym
  | .readFreq sym => some sym
  | .readOrder _ => none
  | .readHeap _ => none
  | .buildInit => none
  | .buildStep => none
  | .build => none
  | .readNodeF _ => none
  | .readNodeL _ => none
  | .readCodeLen sym => some sym
  | .readCodeBits sym _ => some sym

end Sys2Proof.Machine
end

