-- ==== Sys2Proof/Certificates/Slice0/Obligations.lean ====
section
/-! DEFINITION. The statements for the provers. Each docstring names the rules of `spec/` that the statement
formalises. A command's result is written as the whole next state, so the statement of a result is the statement of
the command's frame too. `0x00#8 ++ d` is a response word with status OK and DATA d (R114). -/

open Sys2Proof Sys2Proof.Machine

/-! ## Encoding -/

/-- R126: the fifteen encoded examples, one per opcode, decode to the commands they stand for. -/
def Obligations.SpecExampleWordsDecode : Prop :=
  decode 0x0000000000000000#64 = .ok .nop ∧
  decode 0x0100000000000000#64 = .ok .clear ∧
  decode 0x0200000000000005#64 = .ok (.readReg 5#32) ∧
  decode 0x1000006100000000#64 = .ok (.addSymbol 0x61#16) ∧
  decode 0x1100006100000005#64 = .ok (.setFreq 0x61#16 5#32) ∧
  decode 0x1200007200000000#64 = .ok (.readFreq 0x72#16) ∧
  decode 0x1300000000000002#64 = .ok (.readOrder 2#32) ∧
  decode 0x2000000000000000#64 = .ok (.readHeap 0#32) ∧
  decode 0x3000000000000000#64 = .ok .buildInit ∧
  decode 0x3100000000000000#64 = .ok .buildStep ∧
  decode 0x3200000000000000#64 = .ok .build ∧
  decode 0x3300000000000008#64 = .ok (.readNodeF 8#32) ∧
  decode 0x3400000000000008#64 = .ok (.readNodeL 8#32) ∧
  decode 0x4000006200000000#64 = .ok (.readCodeLen 0x62#16) ∧
  decode 0x4100006200000000#64 = .ok (.readCodeBits 0x62#16 0#32)

/-- R110, R116, R117: a word decodes to a command exactly when it is that command's encoding, for every command with
every value of its operand fields. -/
def Obligations.DecodeInvertsEncode : Prop :=
  ∀ (w : CommandWord) (i : Instr), decode w = .ok i ↔ w = encode i

/-- R83, R121: a word goes over a narrower transport least significant byte, or half, first. The bytes of a command's word
decode to the command and leave the bytes that follow. That fewer than eight bytes are no command word yet, and that this
is the answer incompleteWord, is the model's own (log 23). -/
def Obligations.TransportLeastSignificantFirst : Prop :=
  (∀ (w : BitVec 64) (k : Nat), k < 8 → (wordBytes w)[k]? = some (w.extractLsb' (8 * k) 8)) ∧
  (∀ w : BitVec 64, wordHalves w = (w.extractLsb' 0 32, w.extractLsb' 32 32) ∧
    wordOfHalves (wordHalves w).1 (wordHalves w).2 = w) ∧
  (∀ (i : Instr) (rest : List Byte), decodeBytes (wordBytes (encode i) ++ rest) = .ok (i, rest)) ∧
  (∀ bs : List Byte, bs.length < 8 → decodeBytes bs = .error .incompleteWord)

/-! ## Steps at the ports -/

/-- R85, R361, R34: when the host offers a word that decodes to a command and no response waits, the step is the
command's execution, after the host's list and position have moved on by one. The host's list and the position's field
are the model's own (log 12, log 16). -/
def Obligations.StepRunsDecodedCommand : Prop :=
  ∀ (s : State) (w : CommandWord) (i : Instr) (rest : List HostMove), s.config.legal = true →
    s.response = none → s.host = .command w :: rest → decode w = .ok i →
    step s = exec i { s with host := rest, position := s.position + 1 }

/-- R119: an unassigned opcode, 241 of the 256 values of OPC, raises ILLEGAL_OPCODE whatever the other bits hold, and
changes nothing of the block but the error record. -/
def Obligations.UnassignedOpcodeIsIllegal : Prop :=
  (((List.range 256).filter (fun b => (opcodeOfByte (BitVec.ofNat 8 b)).isNone)).length = 241) ∧
  ∀ (s : State) (w : CommandWord) (rest : List HostMove), s.config.legal = true → s.response = none →
    s.host = .command w :: rest →
    opcField w ∉ [0x00#8, 0x01#8, 0x02#8, 0x10#8, 0x11#8, 0x12#8, 0x13#8, 0x20#8, 0x30#8, 0x31#8, 0x32#8, 0x33#8,
      0x34#8, 0x40#8, 0x41#8] →
    step s = .next { s with
      host := rest, position := s.position + 1
      errCode := 0x03#8, errOpc := w.extractLsb' 56 8, response := some (0x03#8 ++ 0#56) }

/-- R113, R111, R112, R118: with an assigned opcode, a nonzero RSV field, or a nonzero SYM or ARG field that the
command does not use, raises RESERVED_BITS and changes nothing of the block but the error record. -/
def Obligations.ReservedBitsRaise : Prop :=
  ∀ (s : State) (w : CommandWord) (rest : List HostMove), s.config.legal = true → s.response = none →
    s.host = .command w :: rest →
    opcField w ∈ [0x00#8, 0x01#8, 0x02#8, 0x10#8, 0x11#8, 0x12#8, 0x13#8, 0x20#8, 0x30#8, 0x31#8, 0x32#8, 0x33#8,
      0x34#8, 0x40#8, 0x41#8] →
    (w.extractLsb' 48 8 ≠ 0#8 ∨
      (opcField w ∉ [0x10#8, 0x11#8, 0x12#8, 0x40#8, 0x41#8] ∧ w.extractLsb' 32 16 ≠ 0#16) ∨
      (opcField w ∉ [0x02#8, 0x11#8, 0x13#8, 0x20#8, 0x33#8, 0x34#8, 0x41#8] ∧ w.extractLsb' 0 32 ≠ 0#32)) →
    step s = .next { s with
      host := rest, position := s.position + 1
      errCode := 0x04#8, errOpc := w.extractLsb' 56 8, response := some (0x04#8 ++ 0#56) }

/-- R360, R361, R362, R335, R54: while a response waits, an offered command word is not accepted and stays offered, and
the response transfers unchanged; it transfers too when the host takes it, and at the end of the host's moves. A host
that is ready to take a response while none waits changes nothing of the block. With nothing to do the block holds its
state. Nothing else changes. That the host takes the waiting response when it offers a command, or has no move left, is
the model's choice (log 13, log 14). -/
def Obligations.ResponseTransferAndIdle : Prop :=
  (∀ (s : State) (w : CommandWord) (r : ResponseWord) (rest : List HostMove), s.config.legal = true →
    s.response = some r → s.host = .command w :: rest →
    step s = .next { s with response := none, taken := s.taken ++ [r] }) ∧
  (∀ (s : State) (r : ResponseWord) (rest : List HostMove), s.config.legal = true → s.response = some r →
    s.host = .takeResponse :: rest →
    step s = .next { s with response := none, taken := s.taken ++ [r], host := rest }) ∧
  (∀ (s : State) (rest : List HostMove), s.config.legal = true → s.response = none → s.host = .takeResponse :: rest →
    step s = .next { s with host := rest }) ∧
  (∀ (s : State) (r : ResponseWord), s.config.legal = true → s.response = some r → s.host = [] →
    step s = .next { s with response := none, taken := s.taken ++ [r] }) ∧
  (∀ s : State, s.config.legal = true → s.response = none → s.host = [] → step s = .next s)

/-- R350, R353, R352, R369: a reset at any time gives the state of R350 whatever the block held: a waiting response is
dropped, and the responses taken before are kept. That the position stays is the model's choice (log 16). -/
def Obligations.ResetGivesResetState : Prop :=
  ∀ (s : State) (rest : List HostMove), s.config.legal = true → s.host = .reset :: rest →
    step s = .next { State.resetWith s.config with taken := s.taken, host := rest, position := s.position }

/-- R30, R31, R350, R351: what reset leaves, in every configuration. ORDER, NODE and HEAP hold no value, as R56 allows a
model to say (log 4). -/
def Obligations.ResetValues : Prop :=
  ∀ c : Config,
    (State.resetWith c).phase = .load ∧ (∀ x, freqRead (State.resetWith c) x = 0) ∧
    (State.resetWith c).distinct = 0 ∧ (State.resetWith c).total = 0 ∧
    (State.resetWith c).errCode = 0#8 ∧ (State.resetWith c).errOpc = 0#8 ∧
    (State.resetWith c).nodeCount = 0 ∧ (State.resetWith c).heapCount = 0 ∧
    (State.resetWith c).root = 0 ∧ (State.resetWith c).rootValid = false ∧
    (∀ x, romRead (State.resetWith c) x = { valid := false, len := 0, bits := 0 }) ∧
    (State.resetWith c).maxLen = 0 ∧
    (∀ k, cellsGet (State.resetWith c).order k = none ∧ cellsGet (State.resetWith c).node k = none ∧
      cellsGet (State.resetWith c).heap k = none) ∧
    (State.resetWith c).response = none

/-- R8, R6: a configuration is legal exactly in the ranges of R6, and outside them the machine refuses every step and
every command (log 2). -/
def Obligations.IllegalConfigurationRefused : Prop :=
  (∀ c : Config, c.legal = true ↔
    (1 ≤ c.symW ∧ c.symW ≤ 16) ∧ (1 ≤ c.freqW ∧ c.freqW ≤ 32) ∧ (1 ≤ c.lmax ∧ c.lmax ≤ 65535)) ∧
  ∀ (s : State), s.config.legal = false →
    step s = .refused .illegalConfiguration ∧ ∀ i : Instr, exec i s = .refused .illegalConfiguration

/-! ## Control commands -/

/-- R151, R152, R352: NOP has no effect and returns DATA = 0. CLEAR leaves the state that reset leaves, the error record
included, and returns DATA = 0; the words between host and block stay. -/
def Obligations.NopAndClearEffects : Prop :=
  (∀ s : State, s.config.legal = true → exec .nop s = .next { s with response := some (0x00#8 ++ 0#56) }) ∧
  (∀ s : State, s.config.legal = true →
    exec .clear s = .next { State.resetWith s.config with
      response := some (0x00#8 ++ 0#56), taken := s.taken, host := s.host, position := s.position })

/-- R46, R31, R40: READ_REG STATUS returns PHASE in bits 1:0, ERR_CODE in 15:8 and ERR_OPC in 23:16, and 0 in every
other bit. After reset it is 0. -/
def Obligations.StatusRegisterLayout : Prop :=
  (∀ s : State, s.config.legal = true →
    ∃ d : Data, exec (.readReg 0x00#32) s = .next { s with response := some (0x00#8 ++ d) } ∧
      (d.extractLsb' 0 2).toNat = (match s.phase with | .load => 0 | .merging => 1 | .built => 2) ∧
      d.extractLsb' 2 6 = 0#6 ∧ d.extractLsb' 8 8 = s.errCode ∧ d.extractLsb' 16 8 = s.errOpc ∧
      d.extractLsb' 24 32 = 0#32) ∧
  (∀ c : Config, statusData (State.resetWith c) = 0#56)

/-- R49, R45, R43, R37, R38, R41, R42, R44: the count registers hold their values in the low bits that R49 gives them,
and 0 in every other bit; ROOT returns ROOT_VALID in bit 31 and ROOT in bits 23:0, and 0 in every other bit. -/
def Obligations.CountAndRootRegisters : Prop :=
  ∀ s : State, Inv s →
    (∃ d : Data, exec (.readReg 0x01#32) s = .next { s with response := some (0x00#8 ++ d) } ∧
      d.toNat = s.distinct ∧ d.toNat < 2 ^ (s.config.symW + 1)) ∧
    (∃ d : Data, exec (.readReg 0x02#32) s = .next { s with response := some (0x00#8 ++ d) } ∧
      d.toNat = s.total ∧ d.toNat < 2 ^ s.config.freqW) ∧
    (∃ d : Data, exec (.readReg 0x03#32) s = .next { s with response := some (0x00#8 ++ d) } ∧
      d.toNat = s.nodeCount ∧ d.toNat < 2 ^ s.config.nodeW) ∧
    (∃ d : Data, exec (.readReg 0x04#32) s = .next { s with response := some (0x00#8 ++ d) } ∧
      d.toNat = s.heapCount ∧ d.toNat < 2 ^ (s.config.symW + 1)) ∧
    (∃ d : Data, exec (.readReg 0x06#32) s = .next { s with response := some (0x00#8 ++ d) } ∧
      d.toNat = s.maxLen ∧ d.toNat < 2 ^ 16) ∧
    (∃ d : Data, exec (.readReg 0x05#32) s = .next { s with response := some (0x00#8 ++ d) } ∧
      d.getLsbD 31 = s.rootValid ∧ (d.extractLsb' 0 24).toNat = s.root ∧ d.extractLsb' 24 7 = 0#7 ∧
      d.extractLsb' 32 24 = 0#24)

/-- R48: READ_REG PARAM reports the configuration, SYM_W in bits 7:0, FREQ_W in 15:8 and LMAX in 31:16, and 0 in bits
55:32; at the defaults it is 0xFF2008. No step changes the configuration (R30). -/
def Obligations.ParamRegisterIsConstant : Prop :=
  (∀ s : State, s.config.legal = true →
    ∃ d : Data, exec (.readReg 0x07#32) s = .next { s with response := some (0x00#8 ++ d) } ∧
      (d.extractLsb' 0 8).toNat = s.config.symW ∧ (d.extractLsb' 8 8).toNat = s.config.freqW ∧
      (d.extractLsb' 16 16).toNat = s.config.lmax ∧ d.extractLsb' 32 24 = 0#24) ∧
  paramData { symW := 8, freqW := 32, lmax := 255 } = 0x00FF2008#56 ∧
  (∀ s t : State, step s = .next t → t.config = s.config)

/-- R47: READ_REG IDENT returns the constant 0x0000_0000_4855_4601 in every state. -/
def Obligations.IdentRegisterIsConstant : Prop :=
  ∀ s : State, s.config.legal = true →
    exec (.readReg 0x08#32) s = .next { s with response := some 0x0000000048554601#64 }

/-- R45, R153: a register number from 0x09 on raises INDEX_RANGE. -/
def Obligations.RegisterNumberOutsideMap : Prop :=
  ∀ (s : State) (arg : ArgField), s.config.legal = true → 9 ≤ arg.toNat →
    exec (.readReg arg) s =
      .next { s with errCode := 0x08#8, errOpc := 0x02#8, response := some (0x08#8 ++ 0#56) }

/-! ## Frequency-table commands -/

/-- R181, R182, R36: ADD_SYMBOL in LOAD with room in TOTAL: the symbol's count and TOTAL rise by one, a symbol that was
absent is appended to ORDER, and the response is the new count. Nothing else changes. -/
def Obligations.AddSymbolCounts : Prop :=
  ∀ (s : State) (sym : SymField), Inv s → s.phase = .load → sym.toNat < s.config.dMax → s.total < s.config.fmax →
    ∃ (t : State) (d : Data), exec (.addSymbol sym) s = .next { t with response := some (0x00#8 ++ d) } ∧
      t = { s with freq := t.freq, order := t.order, distinct := t.distinct, total := s.total + 1 } ∧
      d.toNat = freqRead s sym.toNat + 1 ∧
      (∀ x, freqRead t x = if x = sym.toNat then freqRead s x + 1 else freqRead s x) ∧
      orderList t = (if freqRead s sym.toNat = 0 then orderList s ++ [sym.toNat] else orderList s) ∧
      t.distinct = (if freqRead s sym.toNat = 0 then s.distinct + 1 else s.distinct)

/-- R181, R183, R112: ADD_SYMBOL with TOTAL = FMAX, and SET_FREQ whose new total exceeds FMAX, raise FREQ_OVERFLOW;
SET_FREQ of a count above FMAX raises ARG_RANGE. Nothing but the error record changes. -/
def Obligations.TableOverflowRaises : Prop :=
  (∀ (s : State) (sym : SymField), s.config.legal = true → s.phase = .load → sym.toNat < s.config.dMax →
    s.total = s.config.fmax →
    exec (.addSymbol sym) s =
      .next { s with errCode := 0x09#8, errOpc := 0x10#8, response := some (0x09#8 ++ 0#56) }) ∧
  (∀ (s : State) (sym : SymField) (arg : ArgField), Inv s → s.phase = .load → sym.toNat < s.config.dMax →
    arg.toNat ≤ s.config.fmax → s.config.fmax < s.total - freqRead s sym.toNat + arg.toNat →
    exec (.setFreq sym arg) s =
      .next { s with errCode := 0x09#8, errOpc := 0x11#8, response := some (0x09#8 ++ 0#56) }) ∧
  (∀ (s : State) (sym : SymField) (arg : ArgField), s.config.legal = true → s.phase = .load →
    sym.toNat < s.config.dMax → s.config.fmax < arg.toNat →
    exec (.setFreq sym arg) s =
      .next { s with errCode := 0x07#8, errOpc := 0x11#8, response := some (0x07#8 ++ 0#56) })

/-- R183, R182, R36: SET_FREQ in LOAD with room in TOTAL: the symbol's count becomes the operand and TOTAL follows; a
symbol that becomes present is appended to ORDER, one that becomes absent is removed and the others keep their order;
the response is the previous count. Nothing else changes. -/
def Obligations.SetFreqSets : Prop :=
  ∀ (s : State) (sym : SymField) (arg : ArgField), Inv s → s.phase = .load → sym.toNat < s.config.dMax →
    arg.toNat ≤ s.config.fmax → s.total - freqRead s sym.toNat + arg.toNat ≤ s.config.fmax →
    ∃ (t : State) (d : Data), exec (.setFreq sym arg) s = .next { t with response := some (0x00#8 ++ d) } ∧
      t = { s with freq := t.freq, order := t.order, distinct := t.distinct, total := t.total } ∧
      d.toNat = freqRead s sym.toNat ∧
      (∀ x, freqRead t x = if x = sym.toNat then arg.toNat else freqRead s x) ∧
      t.total = s.total - freqRead s sym.toNat + arg.toNat ∧
      orderList t =
        (if freqRead s sym.toNat = 0 ∧ 0 < arg.toNat then orderList s ++ [sym.toNat]
         else if 0 < freqRead s sym.toNat ∧ arg.toNat = 0 then (orderList s).erase sym.toNat
         else orderList s) ∧
      t.distinct = (orderList t).length

/-- R87: SET_FREQ is idempotent with the same operands, and so is CLEAR: the repeat changes the response alone. -/
def Obligations.SetFreqAndClearIdempotent : Prop :=
  (∀ (s t : State) (sym : SymField) (arg : ArgField), Inv s → s.phase = .load → sym.toNat < s.config.dMax →
    arg.toNat ≤ s.config.fmax → s.total - freqRead s sym.toNat + arg.toNat ≤ s.config.fmax →
    exec (.setFreq sym arg) s = .next t →
    ∃ r, exec (.setFreq sym arg) t = .next { t with response := some r }) ∧
  (∀ s t : State, exec .clear s = .next t → exec .clear t = .next t)

/-- R184, R35: READ_FREQ returns the symbol's count, in every phase, and changes nothing. -/
def Obligations.ReadFreqReturnsCount : Prop :=
  ∀ (s : State) (sym : SymField), Inv s → sym.toNat < s.config.dMax →
    ∃ d : Data, exec (.readFreq sym) s = .next { s with response := some (0x00#8 ++ d) } ∧
      d.toNat = freqRead s sym.toNat

/-- R185, R36: READ_ORDER returns the k-th symbol in insertion order for k < DISTINCT, and raises INDEX_RANGE for every
other k. -/
def Obligations.ReadOrderReturnsSymbol : Prop :=
  ∀ (s : State) (arg : ArgField), Inv s →
    if arg.toNat < s.distinct then
      ∃ d : Data, exec (.readOrder arg) s = .next { s with response := some (0x00#8 ++ d) } ∧
        (orderList s)[arg.toNat]? = some d.toNat
    else
      exec (.readOrder arg) s =
        .next { s with errCode := 0x08#8, errOpc := 0x13#8, response := some (0x08#8 ++ 0#56) }

/-- R186: from a cleared block (in LOAD with no symbol in the table), ADD_SYMBOL once for each symbol of an input of
length at most FMAX gives the input's frequency table, with no FREQ_OVERFLOW: each count is the number of occurrences,
TOTAL the length, ORDER the distinct symbols in order of first occurrence, and DISTINCT their number. -/
def Obligations.LoadingAnInputCountsIt : Prop :=
  ∀ (s : State) (input : List SymField), Inv s → s.phase = .load → s.distinct = 0 → s.response = none →
    (∀ x ∈ input, x.toNat < s.config.dMax) → input.length ≤ s.config.fmax →
    ∃ t : State, issueAll (input.map Instr.addSymbol) s = .ok t ∧
      (∀ x, freqRead t x = (input.map BitVec.toNat).count x) ∧ t.total = input.length ∧
      orderList t = firstOccurrences (input.map BitVec.toNat) ∧ t.distinct = (orderList t).length

/-! ## Priority queue -/

/-- R212, R216, R217: Enqueue of a written node into a heap with room: it changes HEAP and HEAP_COUNT alone, the queue
holds that item more, and it is a heap. The layout is the one of R212: the item moves up past every parent whose key is
strictly greater, equal keys do not move, and every other item stays. -/
def Obligations.EnqueueKeepsHeap : Prop :=
  ∀ (s : State) (n : Nat), cellsDense s.heap s.heapCount → HeapOrdered s →
    (∀ x ∈ heapItems s, x < s.config.nodeMax ∧ (cellsGet s.node x).isSome = true) → s.heapCount < s.config.heapMax →
    n < s.config.nodeMax → (cellsGet s.node n).isSome = true →
    ∃ t : State, enqueue n s = .ok t ∧ t = { s with heap := t.heap, heapCount := s.heapCount + 1 } ∧
      (heapItems t).Perm (n :: heapItems s) ∧ cellsDense t.heap t.heapCount ∧ HeapOrdered t ∧
      Enqueued (nodeFreqAt s) (heapItems s) n (heapItems t)

/-- R213, R216, R217, R215: Dequeue of a heap that is not empty removes the item of HEAP[0], whose key is the smallest,
and leaves a heap; HEAP and HEAP_COUNT alone change. The layout is the one of R213: the last item moves down from the root
past every child whose key is strictly smaller, the left child is taken on equal keys, and every other item stays. On an
empty queue it is the fault EMPTY_QUEUE (log 8). -/
def Obligations.DequeueRemovesMinimum : Prop :=
  (∀ s : State, cellsDense s.heap s.heapCount → HeapOrdered s →
    (∀ x ∈ heapItems s, x < s.config.nodeMax ∧ (cellsGet s.node x).isSome = true) → 0 < s.heapCount →
    s.heapCount ≤ s.config.heapMax →
    ∃ t : State, dequeue s = .ok (heapItem s 0, t) ∧ t = { s with heap := t.heap, heapCount := s.heapCount - 1 } ∧
      (∀ x ∈ heapItems s, nodeFreqAt s (heapItem s 0) ≤ nodeFreqAt s x) ∧
      (heapItem s 0 :: heapItems t).Perm (heapItems s) ∧ cellsDense t.heap t.heapCount ∧ HeapOrdered t ∧
      Dequeued (nodeFreqAt s) (heapItems s) (heapItems t)) ∧
  (∀ s : State, s.heapCount = 0 → dequeue s = .error .emptyQueue)

/-- R218, R213: READ_HEAP returns the item at heap position k for k < HEAP_COUNT, and raises INDEX_RANGE for every
other k. At position 0 it is the item that the next Dequeue returns. -/
def Obligations.ReadHeapReturnsItem : Prop :=
  ∀ (s : State) (arg : ArgField), Inv s →
    if arg.toNat < s.heapCount then
      ∃ d : Data, exec (.readHeap arg) s = .next { s with response := some (0x00#8 ++ d) } ∧
        cellsGet s.heap arg.toNat = some d.toNat ∧ (arg.toNat = 0 → ∃ t, dequeue s = .ok (d.toNat, t))
    else
      exec (.readHeap arg) s =
        .next { s with errCode := 0x08#8, errOpc := 0x20#8, response := some (0x08#8 ++ 0#56) }

/-! ## Tree builder -/

/-- R246, R245, R211: BUILD_INIT in LOAD writes leaf k for the k-th symbol of ORDER, with its count, and enqueues them
all, in that order; PHASE becomes MERGING, the response is d, and nothing else changes. The heap's layout is the one that
these Enqueues give (R212, R261). -/
def Obligations.BuildInitCreatesLeaves : Prop :=
  ∀ s : State, Inv s → s.phase = .load →
    ∃ (t : State) (d : Data), exec .buildInit s = .next { t with response := some (0x00#8 ++ d) } ∧
      t = { s with phase := .merging, node := t.node, nodeCount := s.distinct, heap := t.heap,
                   heapCount := s.distinct } ∧
      d.toNat = s.distinct ∧
      (∀ k < s.distinct, ∃ sym, cellsGet s.order k = some sym ∧
        cellsGet t.node k = some (.leaf (freqRead s sym) sym)) ∧
      (heapItems t).Perm (List.range s.distinct) ∧ HeapOrdered t ∧
      ∃ f : Nat → List Nat, f 0 = [] ∧ f s.distinct = heapItems t ∧
        ∀ k < s.distinct, Enqueued (nodeFreqAt t) (f k) k (f (k + 1))

/-- R249, R247, R241, R242: BUILD_STEP with more than one item in the queue merges the two items of smallest key: the
first is the left child, the new node at the next index has the sum of their frequencies, it takes their place in the
queue, and the response is its index. Nothing else changes. The heap's layout is the one that two Dequeues and the
Enqueue of the new node give (R212, R213, R261). -/
def Obligations.BuildStepMerges : Prop :=
  ∀ s : State, Inv s → s.phase = .merging → 1 < s.heapCount →
    ∃ (t : State) (d : Data) (x y : Nat) (rest : List Nat),
      exec .buildStep s = .next { t with response := some (0x00#8 ++ d) } ∧
      t = { s with node := t.node, nodeCount := s.nodeCount + 1, heap := t.heap, heapCount := s.heapCount - 1 } ∧
      d.toNat = s.nodeCount ∧ x = heapItem s 0 ∧ (heapItems s).Perm (x :: y :: rest) ∧
      (∀ z ∈ heapItems s, nodeFreqAt s x ≤ nodeFreqAt s z) ∧ (∀ z ∈ rest, nodeFreqAt s y ≤ nodeFreqAt s z) ∧
      cellsGet t.node s.nodeCount = some (.internal (nodeFreqAt s x + nodeFreqAt s y) x y) ∧
      (∀ k, k ≠ s.nodeCount → cellsGet t.node k = cellsGet s.node k) ∧
      (heapItems t).Perm (s.nodeCount :: rest) ∧ HeapOrdered t ∧
      MergedLayout (nodeFreqAt s) (nodeFreqAt t) (heapItems s) y s.nodeCount (heapItems t)

/-- R248, R249, R283, R282: BUILD_STEP with at most one item in the queue finalizes. With no item the tree is empty. With
one item r, when some leaf under r lies deeper than LMAX, CODE_TOO_LONG is raised and nothing but the error record
changes; otherwise ROOT, MAX_LEN and the ROM of the tree under r are written, the queue is empty and PHASE is BUILT. -/
def Obligations.BuildStepFinalizes : Prop :=
  (∀ s : State, Inv s → s.phase = .merging → s.heapCount = 0 →
    exec .buildStep s = .next { s with phase := .built, response := some (0x00#8 ++ 0x80000000000000#56) }) ∧
  (∀ s : State, Inv s → s.phase = .merging → s.heapCount = 1 → LeafDeeper s (heapItem s 0) s.config.lmax →
    exec .buildStep s = .next { s with errCode := 0x0A#8, errOpc := 0x31#8, response := some (0x0A#8 ++ 0#56) }) ∧
  (∀ s : State, Inv s → s.phase = .merging → s.heapCount = 1 → ¬ LeafDeeper s (heapItem s 0) s.config.lmax →
    ∃ (rom : Cells RomEntry) (maxLen : Nat) (d : Data), romOf s (heapItem s 0) = .ok (some (rom, maxLen)) ∧
      exec .buildStep s = .next { s with
        phase := .built, heap := [], heapCount := 0, root := heapItem s 0, rootValid := true, rom := rom
        maxLen := maxLen, response := some (0x00#8 ++ d) } ∧
      d.extractLsb' 54 2 = 3#2 ∧ d.extractLsb' 24 30 = 0#30 ∧ (d.extractLsb' 0 24).toNat = heapItem s 0)

/-- R250, R255, R252, R259, R283: BUILD from LOAD or MERGING completes exactly when no leaf of the tree that the merges
give lies deeper than LMAX, which is so with at most LMAX + 1 distinct symbols. It then ends in BUILT with that tree's
nodes and the counts of R255; the contents are those of a built tree and its ROM, the response gives ROOT_VALID and ROOT,
and nothing else changes. Otherwise it raises CODE_TOO_LONG, and the merges are all it has done. -/
def Obligations.BuildCompletes : Prop :=
  ∀ s : State, Inv s → s.phase ≠ .built →
    ∃ u : State, execAll (mergeSteps s) s = .next u ∧ u.nodeCount = 2 * s.distinct - 1 ∧
      (s.distinct ≤ s.config.lmax + 1 → ¬ LeafDeeper u (2 * s.distinct - 2) s.config.lmax) ∧
      (¬ LeafDeeper u (2 * s.distinct - 2) s.config.lmax →
        ∃ (t : State) (d : Data), exec .build s = .next { t with response := some (0x00#8 ++ d) } ∧
          t = { s with phase := .built, node := u.node, nodeCount := 2 * s.distinct - 1, heap := [], heapCount := 0,
                       root := 2 * s.distinct - 2, rootValid := decide (0 < s.distinct), rom := t.rom,
                       maxLen := t.maxLen } ∧
          BuiltPhase t ∧ (0 < s.distinct → nodeFreqAt t t.root = s.total) ∧
          d.getLsbD 55 = true ∧ d.getLsbD 54 = decide (0 < s.distinct) ∧ d.extractLsb' 24 30 = 0#30 ∧
          (d.extractLsb' 0 24).toNat = 2 * s.distinct - 2) ∧
      (LeafDeeper u (2 * s.distinct - 2) s.config.lmax →
        exec .build s = .next { u with
          errCode := 0x0A#8, errOpc := 0x32#8, response := some (0x0A#8 ++ 0#56) })

/-- R259, R283: when BUILD ends with CODE_TOO_LONG, every merge has been done and stays: PHASE is MERGING with one item
in the queue and 2d − 1 nodes, and the table, ROOT and the ROM are unchanged. A further BUILD or BUILD_STEP raises it
again, and no command but CLEAR changes PHASE from there. -/
def Obligations.CodeTooLongKeepsMerges : Prop :=
  ∀ s t : State, Inv s → exec .build s = .next t → t.response = some (0x0A#8 ++ 0#56) →
    (t = { s with phase := .merging, node := t.node, nodeCount := 2 * s.distinct - 1, heap := t.heap, heapCount := 1,
                  errCode := 0x0A#8, errOpc := 0x32#8, response := some (0x0A#8 ++ 0#56) } ∧
      t.root = 0 ∧ t.rootValid = false ∧ t.rom = [] ∧ t.maxLen = 0) ∧
    exec .build t = .next t ∧
    exec .buildStep t = .next { t with errOpc := 0x31#8 } ∧
    (∀ (i : Instr) (u : State), i ≠ .clear → exec i t = .next u → u.phase = .merging)

/-- R250, R260: BUILD from LOAD ends in the very state that BUILD_INIT, any number of BUILD_STEPs that leave PHASE
MERGING, and BUILD end in. With at most LMAX + 1 distinct symbols BUILD_INIT and then exactly max(d, 1) BUILD_STEPs end
there too, and before the last one PHASE is MERGING. -/
def Obligations.BuildIsInitAndSteps : Prop :=
  (∀ (s : State) (j : Nat), Inv s → s.phase = .load → j < max s.distinct 1 →
    execAll (.buildInit :: List.replicate j .buildStep ++ [.build]) s = exec .build s ∧
    ∃ t, execAll (.buildInit :: List.replicate j .buildStep) s = .next t ∧ t.phase = .merging) ∧
  (∀ s : State, Inv s → s.phase = .load → s.distinct ≤ s.config.lmax + 1 →
    execAll (.buildInit :: List.replicate (max s.distinct 1) .buildStep) s = exec .build s)

/-- R253, R254: every node's frequency is at most TOTAL, which is at most FMAX; a leaf's is its symbol's count and an
internal node's the sum of its children's. In BUILT with a symbol the root's is TOTAL. -/
def Obligations.NodeFrequencies : Prop :=
  ∀ s : State, Inv s →
    (∀ i < s.nodeCount, nodeFreqAt s i ≤ s.total ∧ s.total ≤ s.config.fmax ∧
      ((∃ sym, cellsGet s.node i = some (.leaf (freqRead s sym) sym)) ∨
        ∃ l r, l < i ∧ r < i ∧ cellsGet s.node i = some (.internal (nodeFreqAt s l + nodeFreqAt s r) l r))) ∧
    (s.phase = .built → 0 < s.distinct → nodeFreqAt s s.root = s.total)

/-- R39, R41: a node record is written once, when it is created, and no command but CLEAR changes or removes it. -/
def Obligations.NodeRecordsNeverChange : Prop :=
  ∀ (s t : State) (i : Instr), Inv s → i ≠ .clear → exec i s = .next t →
    s.nodeCount ≤ t.nodeCount ∧ ∀ k < s.nodeCount, cellsGet t.node k = cellsGet s.node k

/-- R262: READ_NODE_F returns the tag in bit 32 and the frequency in bits 31:0, and 0 in every other bit, for
i < NODE_COUNT; it raises INDEX_RANGE for every other i. -/
def Obligations.ReadNodeFrequency : Prop :=
  ∀ (s : State) (arg : ArgField), Inv s →
    if arg.toNat < s.nodeCount then
      ∃ d : Data, exec (.readNodeF arg) s = .next { s with response := some (0x00#8 ++ d) } ∧
        d.getLsbD 32 = decide (s.distinct ≤ arg.toNat) ∧ (d.extractLsb' 0 32).toNat = nodeFreqAt s arg.toNat ∧
        d.extractLsb' 33 23 = 0#23
    else
      exec (.readNodeF arg) s =
        .next { s with errCode := 0x08#8, errOpc := 0x33#8, response := some (0x08#8 ++ 0#56) }

/-- R263, R245: READ_NODE_L returns a leaf's symbol in bits 15:0, or 1 in bit 55, left in 47:24 and right in 23:0 of an
internal node, and 0 in every other bit, for i < NODE_COUNT; it raises INDEX_RANGE for every other i. -/
def Obligations.ReadNodeLinks : Prop :=
  ∀ (s : State) (arg : ArgField), Inv s →
    if arg.toNat < s.nodeCount then
      ∃ d : Data, exec (.readNodeL arg) s = .next { s with response := some (0x00#8 ++ d) } ∧
        (if arg.toNat < s.distinct then
          cellsGet s.order arg.toNat = some d.toNat ∧ isLeafOf s arg.toNat d.toNat = true ∧ d.extractLsb' 16 40 = 0#40
        else
          d.extractLsb' 48 8 = 0x80#8 ∧ childOn s arg.toNat false = some (d.extractLsb' 24 24).toNat ∧
            childOn s arg.toNat true = some (d.extractLsb' 0 24).toNat)
    else
      exec (.readNodeL arg) s =
        .next { s with errCode := 0x08#8, errOpc := 0x34#8, response := some (0x08#8 ++ 0#56) }

/-- R261: what a command makes of the table, the tree, the queue and the ROM, and its response, depend on these alone:
not on the error record, on earlier responses or on the host's position. READ_REG STATUS, which reads the error record,
is left out. -/
def Obligations.HistoryDecidesNothing : Prop :=
  ∀ (s t u : State) (i : Instr), i ≠ .readReg 0#32 →
    u = { s with errCode := u.errCode, errOpc := u.errOpc, response := u.response, taken := u.taken, host := u.host,
                 position := u.position } →
    exec i s = .next t →
    ∃ v : State, exec i u = .next v ∧ v.response = t.response ∧
      v = { t with errCode := v.errCode, errOpc := v.errOpc, taken := u.taken, host := u.host,
                   position := u.position }

/-! ## Code-table ROM -/

/-- R287, R44: READ_CODE_LEN in BUILT returns CODE_VALID in bit 16 and CODE_LEN in bits 15:0, and 0 in every other
bit. -/
def Obligations.ReadCodeLength : Prop :=
  ∀ (s : State) (sym : SymField), Inv s → s.phase = .built → sym.toNat < s.config.dMax →
    ∃ d : Data, exec (.readCodeLen sym) s = .next { s with response := some (0x00#8 ++ d) } ∧
      d.getLsbD 16 = (romRead s sym.toNat).valid ∧ (d.extractLsb' 0 16).toNat = (romRead s sym.toNat).len ∧
      d.extractLsb' 17 39 = 0#39

/-- R288, R84: READ_CODE_BITS in BUILT returns chunk k of the code: bit j is digit 32k + j below LMAX, and every other
bit is 0; from NCHUNK on it raises INDEX_RANGE. -/
def Obligations.ReadCodeChunk : Prop :=
  ∀ (s : State) (sym : SymField) (arg : ArgField), s.config.legal = true → s.phase = .built →
    sym.toNat < s.config.dMax →
    if arg.toNat < s.config.nchunk then
      ∃ d : Data, exec (.readCodeBits sym arg) s = .next { s with response := some (0x00#8 ++ d) } ∧
        ∀ j, d.getLsbD j = (decide (j < 32) && decide (32 * arg.toNat + j < s.config.lmax) &&
          (romRead s sym.toNat).bits.testBit (32 * arg.toNat + j))
    else
      exec (.readCodeBits sym arg) s =
        .next { s with errCode := 0x08#8, errOpc := 0x41#8, response := some (0x08#8 ++ 0#56) }

/-- R284: of two distinct symbols with codes, neither code is a prefix of the other. -/
def Obligations.CodesArePrefixFree : Prop :=
  ∀ (s : State) (x y : Nat), Inv s → s.phase = .built → (romRead s x).valid = true → (romRead s y).valid = true →
    x ≠ y → ¬ codeOf s x <+: codeOf s y

/-- R285: with one distinct symbol, that symbol has the empty code, and MAX_LEN is 0. -/
def Obligations.SingleSymbolCode : Prop :=
  ∀ s : State, Inv s → s.phase = .built → s.distinct = 1 →
    ∃ x, orderList s = [x] ∧ romRead s x = { valid := true, len := 0, bits := 0 } ∧ s.maxLen = 0

/-- R286, R44, R281, R252: in BUILT a symbol has a code exactly when its frequency is not 0; the entry of any
other is all 0. The digits from CODE_LEN on are 0, and MAX_LEN is the largest CODE_LEN, at most LMAX and d − 1. With an
empty table every entry and MAX_LEN are 0. -/
def Obligations.RomCoversTheTable : Prop :=
  ∀ s : State, Inv s → s.phase = .built →
    (∀ x, (romRead s x).valid = decide (0 < freqRead s x)) ∧
    (∀ x, freqRead s x = 0 → romRead s x = { valid := false, len := 0, bits := 0 }) ∧
    (∀ x p, (romRead s x).len ≤ p → (romRead s x).bits.testBit p = false) ∧
    (∀ x, (romRead s x).len ≤ s.maxLen) ∧ s.maxLen ≤ s.config.lmax ∧ s.maxLen ≤ s.distinct - 1 ∧
    (0 < s.distinct → ∃ x, (romRead s x).valid = true ∧ (romRead s x).len = s.maxLen) ∧
    (s.distinct = 0 → s.maxLen = 0)

/-- R289: following a symbol's digits from ROOT, left for 0 and right for 1, leads to the symbol's leaf, and to that
leaf only after all of them. -/
def Obligations.CodeIsPathToLeaf : Prop :=
  ∀ (s : State) (x : Nat), Inv s → s.phase = .built → (romRead s x).valid = true →
    ∃ i, nodeOn s (codeOf s x) s.root = some i ∧ isLeafOf s i x = true ∧
      ∀ p, p <+: codeOf s x → p ≠ codeOf s x → nodeOn s p s.root ≠ some i

/-- R290: with a symbol in the table, the code lengths satisfy Kraft's equality, here scaled by 2^MAX_LEN. -/
def Obligations.KraftEquality : Prop :=
  ∀ s : State, Inv s → s.phase = .built → 0 < s.distinct →
    ((codedSymbols s).map (fun x => 2 ^ (s.maxLen - (romRead s x).len))).sum = 2 ^ s.maxLen

/-- R291: the sum of FREQ · CODE_LEN over the symbols is the sum of the internal nodes' frequencies. -/
def Obligations.EncodedLengthIsInternalSum : Prop :=
  ∀ s : State, Inv s → s.phase = .built →
    ((List.range s.config.dMax).map (fun x => freqRead s x * (romRead s x).len)).sum =
      ((List.range s.nodeCount).map (internalFreq s)).sum

/-- R292: of two symbols with codes, the one of larger frequency has no longer a code. -/
def Obligations.LengthsFollowFrequencies : Prop :=
  ∀ (s : State) (x y : Nat), Inv s → s.phase = .built → (romRead s x).valid = true → (romRead s y).valid = true →
    freqRead s y < freqRead s x → (romRead s x).len ≤ (romRead s y).len

/-- R280, R89: no command in BUILT but CLEAR changes the table, the node store, the queue, the root, the ROM or
PHASE. -/
def Obligations.BuiltStateIsReadOnly : Prop :=
  ∀ (s t : State) (i : Instr), s.phase = .built → i ≠ .clear → exec i s = .next t →
    t = { s with errCode := t.errCode, errOpc := t.errOpc, response := t.response }

/-! ## Errors and phases -/

/-- R316, R40, R115, R311: a command that fails writes the error record and a response of its status code with DATA = 0,
and changes nothing else; BUILD may have written PHASE, the node store and the queue before (R259), and nothing else. A
command that succeeds does not change the error record, but for CLEAR, which zeroes it. -/
def Obligations.ErrorRecordRule : Prop :=
  (∀ (s t : State) (i : Instr) (r : ResponseWord), exec i s = .next t → t.response = some r →
    r.extractLsb' 56 8 ≠ 0#8 →
    r.extractLsb' 0 56 = 0#56 ∧ t.errCode = r.extractLsb' 56 8 ∧ t.errOpc = (encode i).extractLsb' 56 8 ∧
    (i ≠ .build → t = { s with errCode := t.errCode, errOpc := t.errOpc, response := some r }) ∧
    (i = .build → t = { s with phase := t.phase, node := t.node, nodeCount := t.nodeCount, heap := t.heap,
                               heapCount := t.heapCount, errCode := t.errCode, errOpc := t.errOpc,
                               response := some r })) ∧
  (∀ (s t : State) (i : Instr) (r : ResponseWord), exec i s = .next t → t.response = some r →
    r.extractLsb' 56 8 = 0#8 →
    (i ≠ .clear → t.errCode = s.errCode ∧ t.errOpc = s.errOpc) ∧
    (i = .clear → t.errCode = 0#8 ∧ t.errOpc = 0#8))

/-- R32, with the order of R118 and R314, by which PHASE comes before the operand checks: a command in a phase that does
not admit it raises PHASE and changes nothing else; one that is admitted never ends with PHASE. -/
def Obligations.PhaseAdmission : Prop :=
  ∀ (s : State) (i : Instr), s.config.legal = true →
    (s.phase ∉ admittedIn i → exec i s = .next { s with
      errCode := 0x05#8, errOpc := (encode i).extractLsb' 56 8, response := some (0x05#8 ++ 0#56) }) ∧
    (s.phase ∈ admittedIn i → ∀ t r, exec i s = .next t → t.response = some r → r.extractLsb' 56 8 ≠ 0x05#8)

/-- R111, R118: an admitted command whose symbol operand is not below D_MAX raises SYM_RANGE and changes nothing
else. -/
def Obligations.SymbolOutOfRange : Prop :=
  ∀ (s : State) (i : Instr) (sym : SymField), s.config.legal = true → s.phase ∈ admittedIn i →
    symbolOperand i = some sym → s.config.dMax ≤ sym.toNat →
    exec i s = .next { s with
      errCode := 0x06#8, errOpc := (encode i).extractLsb' 56 8, response := some (0x06#8 ++ 0#56) }

/-- R313, R310: every command that ends answers with OK or with one of the errors that R313 lists for it. -/
def Obligations.OnlyListedErrors : Prop :=
  ∀ (s t : State) (i : Instr), exec i s = .next t →
    ∃ r, t.response = some r ∧ r.extractLsb' 56 8 ∈ 0x00#8 :: possibleErrors i

/-- R87, R316: a read or NOP that succeeds changes the response alone, one that fails the error record and the response
alone; and any read or NOP, succeeding or failing, gives the same state and response when it is repeated. -/
def Obligations.ReadsHaveNoEffect : Prop :=
  ∀ (s t : State) (i : Instr), isRead i = true → exec i s = .next t →
    ((∃ d : Data, t = { s with response := some (0x00#8 ++ d) }) ∨
      (t.errCode ≠ 0#8 ∧
        t = { s with errCode := t.errCode, errOpc := (encode i).extractLsb' 56 8, response := some (t.errCode ++ 0#56) })) ∧
    exec i t = .next t

/-- R31: PHASE changes only from LOAD to MERGING by BUILD_INIT or BUILD, from MERGING to BUILT by BUILD_STEP or BUILD,
from LOAD to BUILT by BUILD's passing through MERGING, and to LOAD by CLEAR. -/
def Obligations.PhaseTransitions : Prop :=
  ∀ (s t : State) (i : Instr), exec i s = .next t → t.phase ≠ s.phase →
    (s.phase = .load ∧ t.phase = .merging ∧ (i = .buildInit ∨ i = .build)) ∨
    (s.phase = .merging ∧ t.phase = .built ∧ (i = .buildStep ∨ i = .build)) ∨
    (s.phase = .load ∧ t.phase = .built ∧ i = .build) ∨
    (t.phase = .load ∧ i = .clear)

/-! ## The whole machine -/

/-- R52, R216, R251, R253 to R256, R282: the invariant holds after reset, in every legal configuration. -/
def Obligations.ResetHasInvariant : Prop :=
  ∀ c : Config, c.legal = true → Inv (State.resetWith c) ∧ ResponsesOk (State.resetWith c)

/-- R52, R216, R245, R251, R253 to R256, R282: every step keeps the invariant: the canonical form of the arrays (the
model's own, log 5), the frequency table, the heap, the forest of the node store, the ROM of the tree, and the error record. -/
def Obligations.StepKeepsInvariant : Prop :=
  ∀ s t : State, Inv s → step s = .next t → Inv t

/-- The model's canonical form of the arrays (the model's own choice, log 5): every step keeps it, in every state. -/
def Obligations.StepKeepsArraysCanonical : Prop :=
  ∀ s t : State, ArraysCanonical s → step s = .next t → ArraysCanonical t

/-- R312, R115: every step keeps it that every response word, waiting or taken, has a status code that the block
returns, and DATA = 0 with any but OK. -/
def Obligations.StepKeepsResponsesOk : Prop :=
  ∀ s t : State, ResponsesOk s → step s = .next t → ResponsesOk t

/-- R365, R215, R319, R118: in the invariant no step stops: every word the host sends completes, EMPTY_QUEUE is never
reached, and no read meets an entry without a value. -/
def Obligations.NoStepStops : Prop :=
  ∀ s : State, Inv s → StepsSafely s

/-- R361, R365, R34: every 64-bit word that the block accepts gets exactly one response, which waits when the step ends;
the responses taken before stay, and the host's list and position have moved on by one (log 12, log 16). -/
def Obligations.OneResponsePerWord : Prop :=
  ∀ (s : State) (w : CommandWord) (rest : List HostMove), Inv s → s.response = none → s.host = .command w :: rest →
    ∃ t r, step s = .next t ∧ t.response = some r ∧ t.taken = s.taken ∧ t.host = rest ∧
      t.position = s.position + 1

/-- R366, R367: the host's round trip. From any state with no response waiting, for an input of at least two distinct
symbols, of length at most FMAX, with LMAX ≥ D_MAX − 1, encoding with the block and decoding the digits with the same
build gives the input back, whatever TRAILING_POLICY is (log 19, log 26). -/
def Obligations.HostRoundTrip : Prop :=
  ∀ (s : State) (policy : TrailingPolicy) (input : List SymField), Inv s → s.response = none →
    (∀ x ∈ input, x.toNat < s.config.dMax) → input.length ≤ s.config.fmax → s.config.dMax ≤ s.config.lmax + 1 →
    (∃ x ∈ input, ∃ y ∈ input, x ≠ y) →
    ∃ digits t u, hostEncode input s = .ok (digits, t) ∧ hostDecode policy digits t = .ok (.symbols input, u)
end

