-- ==== Sys2Proof/Laws/Bits.lean ====
section
/-! SUPPORT. The fields of the words (`30_encoding.md` R110, R114) and of the response layouts (`10_state.md` R45 to R49,
`43_tree_builder.md` R248, R262, R263, `44_code_rom.md` R287, R288), read back bit by bit. -/

namespace Sys2Proof.Machine

/-! ## A field of a concatenation -/

theorem field_low {v w n i : Nat} (x : BitVec v) (y : BitVec w) (h : i + n ≤ w) :
    (x ++ y).extractLsb' i n = y.extractLsb' i n := BitVec.extractLsb'_append_eq_of_add_le h

theorem field_high {v w n i j : Nat} (x : BitVec v) (y : BitVec w) (h : i = j + w) :
    (x ++ y).extractLsb' i n = x.extractLsb' j n := by
  rw [BitVec.extractLsb'_append_eq_of_le (by omega)]
  congr 1; omega

theorem field_all {w : Nat} (x : BitVec w) : x.extractLsb' 0 w = x := BitVec.extractLsb'_eq_self

theorem bit_low {v w k : Nat} (x : BitVec v) (y : BitVec w) (h : k < w) : (x ++ y).getLsbD k = y.getLsbD k := by
  simp [BitVec.getLsbD_append, h]

theorem bit_high {v w k j : Nat} (x : BitVec v) (y : BitVec w) (h : k = j + w) :
    (x ++ y).getLsbD k = x.getLsbD j := by
  subst h
  simp [BitVec.getLsbD_append]

theorem bit_ofBool (b : Bool) : (BitVec.ofBool b).getLsbD 0 = b := by cases b <;> rfl

theorem toNat_ofNat_of_lt {w n : Nat} (h : n < 2 ^ w) : (BitVec.ofNat w n).toNat = n := by
  rw [BitVec.toNat_ofNat, Nat.mod_eq_of_lt h]

/-! ## Responses (R114) -/

theorem stField_response (st : Byte) (d : Data) : stField (responseWord st d) = st := by
  unfold stField responseWord
  rw [field_high (j := 0) _ _ (by decide), field_all]

theorem dataField_response (st : Byte) (d : Data) : dataField (responseWord st d) = d := by
  unfold dataField responseWord
  rw [field_low _ _ (by decide), field_all]

/-! ## Fields of a configured width (R9, R49) -/

theorem fieldData_toNat {width v : Nat} (hv : v < 2 ^ width) (hw : width ≤ 56) : (fieldData width v).toNat = v := by
  have : (2 : Nat) ^ width ≤ 2 ^ 56 := Nat.pow_le_pow_right (by decide) hw
  rw [fieldData, BitVec.toNat_ofNat, Nat.mod_eq_of_lt hv, Nat.mod_eq_of_lt (by omega)]

/-! ## STATUS (R46) -/

theorem statusData_phase (s : State) : (statusData s).extractLsb' 0 2 = phaseCode s.phase := by
  unfold statusData; rw [field_low _ _ (by decide), field_all]

theorem statusData_low (s : State) : (statusData s).extractLsb' 2 6 = 0#6 := by
  unfold statusData
  rw [field_high (j := 0) _ _ (by decide), field_low _ _ (by decide), field_all]

theorem statusData_errCode (s : State) : (statusData s).extractLsb' 8 8 = s.errCode := by
  unfold statusData
  rw [field_high (j := 6) _ _ (by decide), field_high (j := 0) _ _ (by decide), field_low _ _ (by decide), field_all]

theorem statusData_errOpc (s : State) : (statusData s).extractLsb' 16 8 = s.errOpc := by
  unfold statusData
  rw [field_high (j := 14) _ _ (by decide), field_high (j := 8) _ _ (by decide), field_high (j := 0) _ _ (by decide),
    field_low _ _ (by decide), field_all]

theorem statusData_high (s : State) : (statusData s).extractLsb' 24 32 = 0#32 := by
  unfold statusData
  rw [field_high (j := 22) _ _ (by decide), field_high (j := 16) _ _ (by decide), field_high (j := 8) _ _ (by decide),
    field_high (j := 0) _ _ (by decide), field_all]

/-! ## ROOT (R45) and the finalize result (R248) -/

theorem rootData_valid (v : Bool) (r : Nat) : (rootData v r).getLsbD 31 = v := by
  unfold rootData
  rw [bit_high (j := 7) _ _ (by decide), bit_high (j := 0) _ _ (by decide), bit_low _ _ (by decide), bit_ofBool]

theorem rootData_root (v : Bool) (r : Nat) : (rootData v r).extractLsb' 0 24 = BitVec.ofNat 24 r := by
  unfold rootData; rw [field_low _ _ (by decide), field_all]

theorem rootData_low (v : Bool) (r : Nat) : (rootData v r).extractLsb' 24 7 = 0#7 := by
  unfold rootData; rw [field_high (j := 0) _ _ (by decide), field_low _ _ (by decide), field_all]

theorem rootData_high (v : Bool) (r : Nat) : (rootData v r).extractLsb' 32 24 = 0#24 := by
  unfold rootData
  rw [field_high (j := 8) _ _ (by decide), field_high (j := 1) _ _ (by decide), field_high (j := 0) _ _ (by decide),
    field_all]

theorem finalizeData_done (v : Bool) (r : Nat) : (finalizeData v r).getLsbD 55 = true := by
  unfold finalizeData
  rw [bit_high (j := 31) _ _ (by decide), bit_high (j := 1) _ _ (by decide), bit_high (j := 0) _ _ (by decide)]; rfl

theorem finalizeData_valid (v : Bool) (r : Nat) : (finalizeData v r).getLsbD 54 = v := by
  unfold finalizeData
  rw [bit_high (j := 30) _ _ (by decide), bit_high (j := 0) _ _ (by decide), bit_low _ _ (by decide), bit_ofBool]

theorem finalizeData_zero (v : Bool) (r : Nat) : (finalizeData v r).extractLsb' 24 30 = 0#30 := by
  unfold finalizeData; rw [field_high (j := 0) _ _ (by decide), field_low _ _ (by decide), field_all]

theorem finalizeData_root (v : Bool) (r : Nat) : (finalizeData v r).extractLsb' 0 24 = BitVec.ofNat 24 r := by
  unfold finalizeData; rw [field_low _ _ (by decide), field_all]

/-! ## PARAM (R48) -/

theorem paramData_symW (c : Config) : (paramData c).extractLsb' 0 8 = BitVec.ofNat 8 c.symW := by
  unfold paramData; rw [field_low _ _ (by decide), field_all]

theorem paramData_freqW (c : Config) : (paramData c).extractLsb' 8 8 = BitVec.ofNat 8 c.freqW := by
  unfold paramData; rw [field_high (j := 0) _ _ (by decide), field_low _ _ (by decide), field_all]

theorem paramData_lmax (c : Config) : (paramData c).extractLsb' 16 16 = BitVec.ofNat 16 c.lmax := by
  unfold paramData
  rw [field_high (j := 8) _ _ (by decide), field_high (j := 0) _ _ (by decide), field_low _ _ (by decide), field_all]

theorem paramData_high (c : Config) : (paramData c).extractLsb' 32 24 = 0#24 := by
  unfold paramData
  rw [field_high (j := 24) _ _ (by decide), field_high (j := 16) _ _ (by decide), field_high (j := 0) _ _ (by decide),
    field_all]

/-! ## READ_NODE_F and READ_NODE_L (R262, R263) -/

theorem nodeFreqData_tag (n : NodeRecord) : (nodeFreqData n).getLsbD 32 = nodeTag n := by
  unfold nodeFreqData
  rw [bit_high (j := 0) _ _ (by decide), bit_low _ _ (by decide), bit_ofBool]

theorem nodeFreqData_freq (n : NodeRecord) : (nodeFreqData n).extractLsb' 0 32 = BitVec.ofNat 32 (nodeFreq n) := by
  unfold nodeFreqData; rw [field_low _ _ (by decide), field_all]

theorem nodeFreqData_high (n : NodeRecord) : (nodeFreqData n).extractLsb' 33 23 = 0#23 := by
  unfold nodeFreqData; rw [field_high (j := 1) _ _ (by decide), field_high (j := 0) _ _ (by decide), field_all]

theorem nodeLinkData_leaf (f x : Nat) :
    (nodeLinkData (.leaf f x)).extractLsb' 0 16 = BitVec.ofNat 16 x ∧
      (nodeLinkData (.leaf f x)).extractLsb' 16 40 = 0#40 ∧ (nodeLinkData (.leaf f x)).getLsbD 55 = false := by
  unfold nodeLinkData
  refine ⟨by rw [field_low _ _ (by decide), field_all], by rw [field_high (j := 0) _ _ (by decide), field_all], ?_⟩
  rw [bit_high (j := 39) _ _ (by decide)]; rfl

theorem nodeLinkData_leaf_toNat {f x : Nat} (h : x < 2 ^ 16) : (nodeLinkData (.leaf f x)).toNat = x := by
  unfold nodeLinkData
  rw [BitVec.toNat_append, toNat_ofNat_of_lt h]; simp

theorem nodeLinkData_internal (f l r : Nat) :
    (nodeLinkData (.internal f l r)).extractLsb' 24 24 = BitVec.ofNat 24 l ∧
      (nodeLinkData (.internal f l r)).extractLsb' 0 24 = BitVec.ofNat 24 r ∧
      (nodeLinkData (.internal f l r)).extractLsb' 48 8 = 0x80#8 ∧
      (nodeLinkData (.internal f l r)).getLsbD 55 = true := by
  unfold nodeLinkData
  refine ⟨?_, ?_, ?_, ?_⟩
  · rw [field_high (j := 0) _ _ (by decide), field_low _ _ (by decide), field_all]
  · rw [field_low _ _ (by decide), field_all]
  · rw [field_high (j := 24) _ _ (by decide), field_high (j := 0) _ _ (by decide)]; rfl
  · rw [bit_high (j := 31) _ _ (by decide), bit_high (j := 7) _ _ (by decide), bit_high (j := 0) _ _ (by decide)]; rfl

/-! ## READ_CODE_LEN and READ_CODE_BITS (R287, R288) -/

theorem codeLenData_valid (e : RomEntry) : (codeLenData e).getLsbD 16 = e.valid := by
  unfold codeLenData
  rw [bit_high (j := 0) _ _ (by decide), bit_low _ _ (by decide), bit_ofBool]

theorem codeLenData_len (e : RomEntry) : (codeLenData e).extractLsb' 0 16 = BitVec.ofNat 16 e.len := by
  unfold codeLenData; rw [field_low _ _ (by decide), field_all]

theorem codeLenData_high (e : RomEntry) : (codeLenData e).extractLsb' 17 39 = 0#39 := by
  unfold codeLenData; rw [field_high (j := 1) _ _ (by decide), field_high (j := 0) _ _ (by decide), field_all]

/-- Bit j of a chunk (R288). -/
theorem codeChunkData_bit (lmax bits k j : Nat) :
    (codeChunkData lmax bits k).getLsbD j =
      (decide (j < 32) && decide (32 * k + j < lmax) && bits.testBit (32 * k + j)) := by
  unfold codeChunkData
  rw [BitVec.getLsbD_append]
  by_cases hj : j < 32
  · rw [if_pos hj, BitVec.getLsbD_ofNat, Nat.testBit_shiftRight, Nat.testBit_mod_two_pow, Bool.and_assoc]
  · simp [hj]

/-! ## Command words (R110) -/

theorem opcField_word (o : Byte) (r : Byte) (x : SymField) (a : ArgField) : opcField (o ++ r ++ x ++ a) = o := by
  unfold opcField
  rw [field_high (j := 24) _ _ (by decide), field_high (j := 8) _ _ (by decide), field_high (j := 0) _ _ (by decide),
    field_all]

theorem rsvField_word (o : Byte) (r : Byte) (x : SymField) (a : ArgField) : rsvField (o ++ r ++ x ++ a) = r := by
  unfold rsvField
  rw [field_high (j := 16) _ _ (by decide), field_high (j := 0) _ _ (by decide), field_low _ _ (by decide), field_all]

theorem symField_word (o : Byte) (r : Byte) (x : SymField) (a : ArgField) : symField (o ++ r ++ x ++ a) = x := by
  unfold symField
  rw [field_high (j := 0) _ _ (by decide), field_low _ _ (by decide), field_all]

theorem argField_word (o : Byte) (r : Byte) (x : SymField) (a : ArgField) : argField (o ++ r ++ x ++ a) = a := by
  unfold argField
  rw [field_low _ _ (by decide), field_all]

/-- A word is the concatenation of its four fields. -/
theorem word_of_fields (w : CommandWord) : opcField w ++ rsvField w ++ symField w ++ argField w = w := by
  apply BitVec.eq_of_getLsbD_eq
  intro k hk
  simp only [opcField, rsvField, symField, argField, BitVec.getLsbD_append, BitVec.getLsbD_extractLsb']
  split_ifs with h1 h2 h3
  · simp [h1]
  · simp [h2, show 32 + (k - 32) = k by omega]
  · simp [h3, show 48 + (k - 32 - 16) = k by omega]
  · simp [show k - 32 - 16 - 8 < 8 by omega, show 56 + (k - 32 - 16 - 8) = k by omega]

theorem opcodeOfByte_opcodeByte (o : Opcode) : opcodeOfByte (opcodeByte o) = some o := by cases o <;> decide

theorem opcodeByte_of_some {b : Byte} {o : Opcode} (h : opcodeOfByte b = some o) : opcodeByte o = b := by
  have := List.find?_some h
  simpa using this

end Sys2Proof.Machine
end

