-- ==== Sys2Proof/Laws/Cells.lean ====
section
/-! SUPPORT. The laws of an array held as its listed entries: a read after a write, the canonical form kept by every
operation, and the arrays whose entries are exactly those at 0 .. n−1, which are lists. -/

namespace Sys2Proof.Machine

variable {α : Type}

/-! ## A read after a write -/

theorem cellsGet_set (c : Cells α) (i k : Nat) (v : α) :
    cellsGet (cellsSet c i v) k = if k = i then some v else cellsGet c k := by
  induction c with
  | nil => simp [cellsSet, cellsGet]
  | cons e rest ih =>
    obtain ⟨j, w⟩ := e
    simp only [cellsSet]
    split_ifs with h1 h2 <;> simp only [cellsGet, ih] <;> split_ifs <;> first | rfl | omega

@[simp] theorem cellsGet_set_same (c : Cells α) (i : Nat) (v : α) : cellsGet (cellsSet c i v) i = some v := by
  simp [cellsGet_set]

theorem cellsGet_set_other (c : Cells α) {i k : Nat} (v : α) (h : k ≠ i) :
    cellsGet (cellsSet c i v) k = cellsGet c k := by
  simp [cellsGet_set, h]

theorem cellsGet_erase (c : Cells α) (i k : Nat) :
    cellsGet (cellsErase c i) k = if k = i then none else cellsGet c k := by
  induction c with
  | nil => simp [cellsErase, cellsGet]
  | cons e rest ih =>
    obtain ⟨j, w⟩ := e
    simp only [cellsErase] at ih ⊢
    by_cases hj : j = i
    · subst hj
      simp only [List.filter, bne_self_eq_false, ih, cellsGet]
      split_ifs <;> rfl
    · have : (j != i) = true := by simpa using hj
      simp only [List.filter, this, cellsGet, ih]
      split_ifs <;> first | rfl | omega

theorem cellsAt_put [DecidableEq α] (zero : α) (c : Cells α) (i k : Nat) (v : α) :
    cellsAt zero (cellsPut zero c i v) k = if k = i then v else cellsAt zero c k := by
  unfold cellsAt cellsPut
  split_ifs <;> simp_all [cellsGet_set, cellsGet_erase]

/-! ## The canonical form -/

theorem cellsSet_keys_mem {c : Cells α} {i : Nat} {v : α} {k : Nat} :
    k ∈ (cellsSet c i v).map Prod.fst ↔ k = i ∨ k ∈ c.map Prod.fst := by
  induction c with
  | nil => simp [cellsSet]
  | cons e rest ih =>
    obtain ⟨j, w⟩ := e
    simp only [cellsSet]
    split_ifs with h1 h2
    · simp
    · subst h2; simp
    · simp only [List.map_cons, List.mem_cons, ih]; tauto

theorem cellsSorted_set {c : Cells α} (i : Nat) (v : α) (h : cellsSorted c) : cellsSorted (cellsSet c i v) := by
  unfold cellsSorted at h ⊢
  induction c with
  | nil => simp [cellsSet]
  | cons e rest ih =>
    obtain ⟨j, w⟩ := e
    simp only [List.map_cons, List.pairwise_cons] at h
    simp only [cellsSet]
    split_ifs with h1 h2
    · simp only [List.map_cons, List.pairwise_cons]
      refine ⟨?_, h⟩
      intro k hk
      rcases List.mem_cons.1 hk with rfl | hk
      · exact h1
      · exact h1.trans (h.1 k hk)
    · subst h2; simpa using h
    · simp only [List.map_cons, List.pairwise_cons]
      refine ⟨?_, ih h.2⟩
      intro k hk
      rcases cellsSet_keys_mem.1 hk with rfl | hk
      · omega
      · exact h.1 k hk

theorem cellsSorted_erase {c : Cells α} (i : Nat) (h : cellsSorted c) : cellsSorted (cellsErase c i) :=
  h.sublist (List.filter_sublist.map _)

theorem cellsSorted_put [DecidableEq α] {zero : α} {c : Cells α} (i : Nat) (v : α) (h : cellsSorted c) :
    cellsSorted (cellsPut zero c i v) := by
  unfold cellsPut
  split_ifs
  · exact cellsSorted_erase i h
  · exact cellsSorted_set i v h

theorem mem_cellsSet {c : Cells α} {i : Nat} {v : α} {e : Nat × α} (h : e ∈ cellsSet c i v) :
    e = (i, v) ∨ e ∈ c := by
  induction c with
  | nil => simpa [cellsSet] using h
  | cons d rest ih =>
    obtain ⟨j, w⟩ := d
    simp only [cellsSet] at h
    split_ifs at h with h1 h2
    · simpa using h
    · simp only [List.mem_cons] at h ⊢; tauto
    · simp only [List.mem_cons] at h ⊢
      rcases h with h | h
      · exact .inr (.inl h)
      · rcases ih h with h | h <;> tauto

theorem mem_cellsErase {c : Cells α} {i : Nat} {e : Nat × α} (h : e ∈ cellsErase c i) : e ∈ c ∧ e.1 ≠ i := by
  simpa [cellsErase] using h

theorem mem_cellsPut [DecidableEq α] {zero : α} {c : Cells α} {i : Nat} {v : α} {e : Nat × α}
    (h : e ∈ cellsPut zero c i v) : (e = (i, v) ∧ v ≠ zero) ∨ e ∈ c := by
  unfold cellsPut at h
  split_ifs at h with hv
  · exact .inr (mem_cellsErase h).1
  · rcases mem_cellsSet h with h | h
    · exact .inl ⟨h, hv⟩
    · exact .inr h

theorem cellsGet_mem {c : Cells α} {i : Nat} {v : α} (h : cellsGet c i = some v) : (i, v) ∈ c := by
  induction c with
  | nil => simp [cellsGet] at h
  | cons e rest ih =>
    obtain ⟨j, w⟩ := e
    simp only [cellsGet] at h
    split_ifs at h with hi
    · subst hi; simp_all
    · exact List.mem_cons_of_mem _ (ih h)

theorem cellsGet_of_mem {c : Cells α} (hc : cellsSorted c) {i : Nat} {v : α} (h : (i, v) ∈ c) :
    cellsGet c i = some v := by
  unfold cellsSorted at hc
  induction c with
  | nil => simp at h
  | cons e rest ih =>
    obtain ⟨j, w⟩ := e
    simp only [List.map_cons, List.pairwise_cons] at hc
    simp only [cellsGet]
    rcases List.mem_cons.1 h with h | h
    · simp_all
    · have := hc.1 i (List.mem_map.2 ⟨_, h, rfl⟩)
      rw [if_neg (by omega)]
      exact ih hc.2 h

theorem cellsGet_none_iff {c : Cells α} {i : Nat} : cellsGet c i = none ↔ i ∉ c.map Prod.fst := by
  induction c with
  | nil => simp [cellsGet]
  | cons e rest ih =>
    obtain ⟨j, w⟩ := e
    simp only [cellsGet, List.map_cons, List.mem_cons, not_or]
    split_ifs with h
    · simp [h]
    · simp [ih, h]

/-- Equal arrays are equal lists: two arrays in canonical form with the same entries are the same. -/
theorem cells_ext {c d : Cells α} (hc : cellsSorted c) (hd : cellsSorted d)
    (h : ∀ i, cellsGet c i = cellsGet d i) : c = d := by
  have hn : ∀ {e : Cells α}, cellsSorted e → e.Nodup := fun he =>
    List.Nodup.of_map Prod.fst (List.Pairwise.imp (fun hlt => Nat.ne_of_lt hlt) he)
  have hp : c.Perm d := by
    rw [List.perm_ext_iff_of_nodup (hn hc) (hn hd)]
    rintro ⟨i, v⟩
    constructor
    · intro hm; exact cellsGet_mem (h i ▸ cellsGet_of_mem hc hm)
    · intro hm; exact cellsGet_mem ((h i).symm ▸ cellsGet_of_mem hd hm)
  refine hp.eq_of_pairwise (le := fun a b => a.1 < b.1) ?_ (List.pairwise_map.1 hc) (List.pairwise_map.1 hd)
  intro a b _ _ h1 h2; omega

/-! ## Arrays whose entries are exactly those at 0 .. n−1 -/

theorem cellsDense_sorted {c : Cells α} {n : Nat} (h : cellsDense c n) : cellsSorted c := by
  unfold cellsSorted; rw [h]; exact List.pairwise_lt_range

theorem cellsDense_length {c : Cells α} {n : Nat} (h : cellsDense c n) : (cellsValues c).length = n := by
  have := congrArg List.length h
  simpa [cellsValues] using this

theorem cellsGet_offset {c : Cells α} {a n : Nat} (h : c.map Prod.fst = List.range' a n) (k : Nat) :
    cellsGet c k = if k < a then none else (cellsValues c)[k - a]? := by
  induction c generalizing a n with
  | nil => simp [cellsGet, cellsValues]
  | cons e rest ih =>
    obtain ⟨j, w⟩ := e
    cases n with
    | zero => simp at h
    | succ n =>
      simp only [List.map_cons, List.range'_succ, List.cons.injEq] at h
      obtain ⟨rfl, h⟩ := h
      simp only [cellsGet, ih h, cellsValues, List.map_cons]
      by_cases hk : k = j
      · subst hk; simp
      · rw [if_neg hk]
        by_cases hlt : k < j
        · rw [if_pos (by omega), if_pos hlt]
        · rw [if_neg (by omega), if_neg hlt, show k - j = (k - (j + 1)) + 1 by omega, List.getElem?_cons_succ]

theorem cellsGet_dense {c : Cells α} {n : Nat} (h : cellsDense c n) (k : Nat) :
    cellsGet c k = (cellsValues c)[k]? := by
  have := cellsGet_offset (a := 0) (n := n) (by rw [← List.range_eq_range']; exact h) k
  simpa using this

theorem cellsSet_offset {c : Cells α} {a n : Nat} (h : c.map Prod.fst = List.range' a n) {k : Nat} (hk : a ≤ k)
    (hk' : k ≤ a + n) (v : α) :
    (cellsSet c k v).map Prod.fst = List.range' a (if k < a + n then n else n + 1) ∧
      cellsValues (cellsSet c k v) = if k < a + n then (cellsValues c).set (k - a) v else cellsValues c ++ [v] := by
  induction c generalizing a n with
  | nil =>
    have hn : n = 0 := by have := congrArg List.length h; simpa using this.symm
    subst hn
    have : k = a := by omega
    subst this
    simp [cellsSet, cellsValues]
  | cons e rest ih =>
    obtain ⟨j, w⟩ := e
    cases n with
    | zero => simp at h
    | succ n =>
      simp only [List.map_cons, List.range'_succ, List.cons.injEq] at h
      obtain ⟨rfl, h⟩ := h
      simp only [cellsSet]
      rw [if_neg (by omega)]
      by_cases hkj : k = j
      · subst hkj
        simp [cellsValues, List.range'_succ, h]
      · rw [if_neg hkj]
        obtain ⟨h1, h2⟩ := ih h (by omega) (by omega)
        have hiff : (k < j + 1 + n) ↔ (k < j + (n + 1)) := by omega
        simp only [hiff] at h1 h2
        simp only [cellsValues, List.map_cons] at h2 ⊢
        constructor
        · rw [h1]; split_ifs <;> simp [List.range'_succ]
        · rw [h2]
          split_ifs
          · rw [show k - j = (k - (j + 1)) + 1 by omega, List.set_cons_succ]
          · simp

theorem cellsDense_set {c : Cells α} {n k : Nat} (h : cellsDense c n) (hk : k < n) (v : α) :
    cellsDense (cellsSet c k v) n ∧ cellsValues (cellsSet c k v) = (cellsValues c).set k v := by
  have := cellsSet_offset (a := 0) (n := n) (by rw [← List.range_eq_range']; exact h) (Nat.zero_le k) (by omega) v
  simpa [hk, cellsDense, List.range_eq_range'] using this

theorem cellsDense_append {c : Cells α} {n : Nat} (h : cellsDense c n) (v : α) :
    cellsDense (cellsSet c n v) (n + 1) ∧ cellsValues (cellsSet c n v) = cellsValues c ++ [v] := by
  have := cellsSet_offset (a := 0) (n := n) (by rw [← List.range_eq_range']; exact h) (Nat.zero_le n) (by omega) v
  simpa [cellsDense, List.range_eq_range'] using this

theorem cellsDense_split {c : Cells α} {n : Nat} (h : cellsDense c (n + 1)) :
    ∃ b v, c = b ++ [(n, v)] ∧ cellsDense b n := by
  rcases List.eq_nil_or_concat c with rfl | ⟨b, e, rfl⟩
  · simp [cellsDense] at h
  · obtain ⟨j, v⟩ := e
    simp only [cellsDense, List.concat_eq_append, List.map_append, List.map_cons, List.map_nil, List.range_succ] at h
    obtain ⟨h1, h2⟩ := List.append_inj' h rfl
    refine ⟨b, v, ?_, h1⟩
    simp at h2
    simp [h2]

theorem cellsDense_erase_last {c : Cells α} {n : Nat} (h : cellsDense c (n + 1)) :
    cellsDense (cellsErase c n) n ∧ cellsValues (cellsErase c n) = (cellsValues c).dropLast := by
  obtain ⟨b, v, rfl, hb⟩ := cellsDense_split h
  have : cellsErase (b ++ [(n, v)]) n = b := by
    simp only [cellsErase, List.filter_append]
    rw [List.filter_eq_self.2]
    · simp
    · intro e he
      have : e.1 ∈ b.map Prod.fst := List.mem_map.2 ⟨e, he, rfl⟩
      rw [hb, List.mem_range] at this
      simp; omega
  rw [this]
  exact ⟨hb, by simp [cellsValues]⟩

end Sys2Proof.Machine
end

