-- ==== Sys2Proof/Laws/Outcome.lean ====
section
/-! SUPPORT. How a rule in `Except Fault` and a command end: one inversion lemma for a sequence, one for
`runCommand`, and what the reads and writes of an array answer. -/

namespace Sys2Proof.Machine

/-! ## Sequences -/

theorem bind_eq_ok {α β : Type} {x : Except Fault α} {f : α → Except Fault β} {b : β} :
    (x >>= f) = .ok b ↔ ∃ a, x = .ok a ∧ f a = .ok b := by
  cases x <;> simp [bind, Except.bind]

@[simp] theorem ok_bind {α β : Type} (a : α) (f : α → Except Fault β) : (Except.ok a >>= f) = f a := rfl

@[simp] theorem error_bind {α β : Type} (e : Fault) (f : α → Except Fault β) :
    ((Except.error e : Except Fault α) >>= f) = .error e := rfl

/-! ## Commands -/

/-- What a command can do when it ends: it was admitted and its rule ended, or its first admission error was raised. -/
theorem runCommand_next_iff {o : Opcode} {sym : SymField} {arg : ArgField}
    {rule : State → Except Fault (Answer × State)} {s t : State} :
    runCommand o sym arg rule s = .next t ↔
      s.config.legal = true ∧
        ((∃ e, admissionError o sym arg s = some e ∧ t = raise (opcodeByte o) e s) ∨
          (admissionError o sym arg s = none ∧ ∃ a u, rule s = .ok (a, u) ∧ t = finish (opcodeByte o) a u)) := by
  unfold runCommand
  cases hl : s.config.legal with
  | false => simp
  | true =>
    cases he : admissionError o sym arg s with
    | some e => simp [eq_comm]
    | none =>
      cases hr : rule s with
      | error f => simp
      | ok p => obtain ⟨a, u⟩ := p; simp [eq_comm]

theorem runCommand_run {o : Opcode} {sym : SymField} {arg : ArgField}
    {rule : State → Except Fault (Answer × State)} {s u : State} {a : Answer} (hl : s.config.legal = true)
    (he : admissionError o sym arg s = none) (hr : rule s = .ok (a, u)) :
    runCommand o sym arg rule s = .next (finish (opcodeByte o) a u) :=
  runCommand_next_iff.2 ⟨hl, .inr ⟨he, a, u, hr, rfl⟩⟩

theorem runCommand_raise {o : Opcode} {sym : SymField} {arg : ArgField}
    {rule : State → Except Fault (Answer × State)} {s : State} {e : Status} (hl : s.config.legal = true)
    (he : admissionError o sym arg s = some e) : runCommand o sym arg rule s = .next (raise (opcodeByte o) e s) :=
  runCommand_next_iff.2 ⟨hl, .inl ⟨e, he, rfl⟩⟩

theorem runCommand_refused {o : Opcode} {sym : SymField} {arg : ArgField}
    {rule : State → Except Fault (Answer × State)} {s : State} (hl : s.config.legal = false) :
    runCommand o sym arg rule s = .refused .illegalConfiguration := by
  simp [runCommand, hl]

/-- A command whose rule never faults where it is admitted ends in a next state. -/
theorem runCommand_completes {o : Opcode} {sym : SymField} {arg : ArgField}
    {rule : State → Except Fault (Answer × State)} {s : State} (hl : s.config.legal = true)
    (hr : admissionError o sym arg s = none → ∃ a u, rule s = .ok (a, u)) :
    ∃ t, runCommand o sym arg rule s = .next t := by
  cases he : admissionError o sym arg s with
  | some e => exact ⟨_, runCommand_raise hl he⟩
  | none => obtain ⟨a, u, h⟩ := hr he; exact ⟨_, runCommand_run hl he h⟩

/-- Where a command is admitted (R118). -/
theorem admissionError_none_iff {o : Opcode} {sym : SymField} {arg : ArgField} {s : State} :
    admissionError o sym arg s = none ↔
      admitted o s.phase = true ∧ (usesSym o = true → symInRange s.config sym = true) ∧
        (o = .setFreq → countInRange s.config arg = true) := by
  unfold admissionError
  split_ifs <;> simp_all

/-! ## Arrays -/

theorem arrayRead_ok_iff {α : Type} {a : ArrayName} {size : Nat} {c : Cells α} {i : Nat} {v : α} :
    arrayRead a size c i = .ok v ↔ i < size ∧ cellsGet c i = some v := by
  unfold arrayRead
  split_ifs with h
  · cases cellsGet c i <;> simp [h]
  · simp [h]

theorem arrayWrite_ok_iff {α : Type} {a : ArrayName} {size : Nat} {c d : Cells α} {i : Nat} {v : α} :
    arrayWrite a size c i v = .ok d ↔ i < size ∧ d = cellsSet c i v := by
  unfold arrayWrite
  split_ifs with h <;> simp [h, eq_comm]

end Sys2Proof.Machine
end

