-- ==== Sys2Proof/Laws/Heap.lean ====
section
/-! SUPPORT. The binary-heap argument (`42_priority_queue.md` R216): what the loops of Enqueue and Dequeue do to a
heap, said of the list of its items. -/

namespace Sys2Proof.Machine

/-- Every non-root item's key is at least its parent's. -/
def Ordered (key : Nat → Nat) (l : List Nat) : Prop :=
  ∀ j < l.length, 0 < j → key (itemAt l ((j - 1) / 2)) ≤ key (itemAt l j)

/-- Ordered but between position k and its parent: what sift-up meets at k. -/
def UpOrdered (key : Nat → Nat) (l : List Nat) (k : Nat) : Prop :=
  (∀ j < l.length, 0 < j → j ≠ k → key (itemAt l ((j - 1) / 2)) ≤ key (itemAt l j)) ∧
    (∀ j < l.length, 0 < j → (j - 1) / 2 = k → 0 < k → key (itemAt l ((k - 1) / 2)) ≤ key (itemAt l j))

/-- Ordered but between position k and its children: what sift-down meets at k. -/
def DownOrdered (key : Nat → Nat) (l : List Nat) (k : Nat) : Prop :=
  (∀ j < l.length, 0 < j → (j - 1) / 2 ≠ k → key (itemAt l ((j - 1) / 2)) ≤ key (itemAt l j)) ∧
    (∀ j < l.length, 0 < j → (j - 1) / 2 = k → 0 < k → key (itemAt l ((k - 1) / 2)) ≤ key (itemAt l j))

theorem itemAt_mem {l : List Nat} {j : Nat} (h : j < l.length) : itemAt l j ∈ l := by
  unfold itemAt
  rw [List.getElem?_eq_getElem h, Option.getD_some]
  exact List.getElem_mem h

theorem itemAt_swap {l : List Nat} {i j : Nat} (hi : i < l.length) (hj : j < l.length) (a b m : Nat) :
    itemAt ((l.set i b).set j a) m = if m = j then a else if m = i then b else itemAt l m := by
  unfold itemAt
  by_cases hmj : m = j
  · subst hmj; simp [hj]
  · by_cases hmi : m = i
    · subst hmi; rw [List.getElem?_set_ne (Ne.symm hmj)]; simp [hi, hmj]
    · rw [List.getElem?_set_ne (Ne.symm hmj), List.getElem?_set_ne (Ne.symm hmi), if_neg hmj, if_neg hmi]

theorem swap_perm {l : List Nat} {i j : Nat} (hi : i < l.length) (hj : j < l.length) :
    ((l.set i (itemAt l j)).set j (itemAt l i)).Perm l := by
  have hi' : itemAt l i = l[i] := by simp [itemAt, hi]
  have hj' : itemAt l j = l[j] := by simp [itemAt, hj]
  rw [hi', hj']
  exact List.set_set_perm hi hj

/-- The item at the root of a heap has the smallest key. -/
theorem Ordered.root_min {key : Nat → Nat} {l : List Nat} (h : Ordered key l) {x : Nat} (hx : x ∈ l) :
    key (itemAt l 0) ≤ key x := by
  have hall : ∀ j, j < l.length → key (itemAt l 0) ≤ key (itemAt l j) := by
    intro j
    induction j using Nat.strong_induction_on with
    | _ j ih =>
      intro hj
      rcases Nat.eq_zero_or_pos j with rfl | hpos
      · exact le_rfl
      · exact (ih ((j - 1) / 2) (by omega) (by omega)).trans (h j hj hpos)
  obtain ⟨j, hj, rfl⟩ := List.getElem_of_mem hx
  have := hall j hj
  simpa [itemAt, hj] using this

theorem UpOrdered.swap {key : Nat → Nat} {l : List Nat} {k : Nat} (h : UpOrdered key l k) (hk : k < l.length)
    (hpos : 0 < k) (hlt : key (itemAt l k) < key (itemAt l ((k - 1) / 2))) :
    UpOrdered key ((l.set ((k - 1) / 2) (itemAt l k)).set k (itemAt l ((k - 1) / 2))) ((k - 1) / 2) := by
  have hp : (k - 1) / 2 < l.length := by omega
  have hsw := itemAt_swap hp hk (itemAt l ((k - 1) / 2)) (itemAt l k)
  constructor
  · intro j hj hj0 hjp
    simp only [List.length_set] at hj
    rw [hsw, hsw]
    by_cases hjk : j = k
    · subst hjk
      rw [if_neg (by omega), if_pos rfl, if_pos rfl]
      exact hlt.le
    · rw [if_neg hjk, if_neg hjp]
      have h1 := h.1 j hj hj0 hjk
      by_cases hq : (j - 1) / 2 = k
      · rw [if_pos hq]; exact h.2 j hj hj0 hq hpos
      · rw [if_neg hq]
        split_ifs with hq2
        · rw [hq2] at h1; omega
        · exact h1
  · intro j hj hj0 hjp hp0
    simp only [List.length_set] at hj
    rw [hsw, hsw]
    rw [if_neg (by omega), if_neg (by omega)]
    have h1 := h.1 ((k - 1) / 2) hp hp0 (by omega)
    by_cases hjk : j = k
    · rw [if_pos hjk]; exact h1
    · rw [if_neg hjk, if_neg (by omega)]
      have h2 := h.1 j hj hj0 hjk
      rw [hjp] at h2
      exact h1.trans h2

theorem DownOrdered.swap {key : Nat → Nat} {l : List Nat} {k c : Nat} (h : DownOrdered key l k) (hc : c < l.length)
    (hc0 : 0 < c) (hck : (c - 1) / 2 = k) (hlt : key (itemAt l c) < key (itemAt l k))
    (hmin : ∀ j < l.length, 0 < j → (j - 1) / 2 = k → key (itemAt l c) ≤ key (itemAt l j)) :
    DownOrdered key ((l.set c (itemAt l k)).set k (itemAt l c)) c := by
  have hk : k < l.length := by omega
  have hsw := itemAt_swap hc hk (itemAt l c) (itemAt l k)
  constructor
  · intro j hj hj0 hjc
    simp only [List.length_set] at hj
    rw [hsw, hsw]
    by_cases hq : (j - 1) / 2 = k
    · rw [if_pos hq, if_neg (by omega)]
      split_ifs with hj2
      · exact hlt.le
      · exact hmin j hj hj0 hq
    · rw [if_neg hq, if_neg hjc]
      have h1 := h.1 j hj hj0 hq
      by_cases hjk : j = k
      · rw [if_pos hjk]
        have := h.2 c hc hc0 hck (by omega)
        rw [hjk]; exact this
      · rw [if_neg hjk, if_neg (by omega)]; exact h1
  · intro j hj hj0 hjc _
    simp only [List.length_set] at hj
    rw [hsw, hsw, if_pos hck, if_neg (by omega), if_neg (by omega)]
    have := h.1 j hj hj0 (by omega)
    rw [hjc] at this
    exact this

/-! ## The loops on the array -/

theorem cellsGet_itemAt {h : Cells Nat} {n j : Nat} (hd : cellsDense h n) (hj : j < n) :
    cellsGet h j = some (itemAt (cellsValues h) j) := by
  rw [cellsGet_dense hd]
  have : j < (cellsValues h).length := by rw [cellsDense_length hd]; exact hj
  simp [itemAt, this]

theorem heapSwap_dense {h : Cells Nat} {n i j : Nat} (hd : cellsDense h n) (hi : i < n) (hj : j < n) (a b : Nat) :
    cellsDense (heapSwap h i a j b) n ∧ cellsValues (heapSwap h i a j b) = ((cellsValues h).set i b).set j a := by
  obtain ⟨h1, h2⟩ := cellsDense_set hd hi b
  obtain ⟨h3, h4⟩ := cellsDense_set h1 hj a
  exact ⟨h3, by rw [heapSwap, h4, h2]⟩

/-- Sift-up (R212): from a heap ordered but at k, it ends in a heap of the same items. -/
theorem siftUp_spec {size : Nat} {keyOf : Nat → Except Fault Nat} {key : Nat → Nat} {n : Nat} (hn : n ≤ size) :
    ∀ (fuel : Nat) (h : Cells Nat) (k : Nat), cellsDense h n → k < n → k ≤ fuel →
      (∀ x ∈ cellsValues h, keyOf x = .ok (key x)) → UpOrdered key (cellsValues h) k →
      ∃ h', siftUp size keyOf fuel h k = .ok h' ∧ cellsDense h' n ∧ (cellsValues h').Perm (cellsValues h) ∧
        Ordered key (cellsValues h') := by
  intro fuel
  induction fuel with
  | zero =>
    intro h k hd hk hf _ ho
    refine ⟨h, rfl, hd, .refl _, ?_⟩
    intro j hj hj0
    exact ho.1 j hj hj0 (by omega)
  | succ fuel ih =>
    intro h k hd hk hf hkey ho
    have hlen := cellsDense_length hd
    by_cases hk0 : k = 0
    · subst hk0
      exact ⟨h, by simp [siftUp], hd, .refl _, fun j hj hj0 => ho.1 j hj hj0 (by omega)⟩
    · have hp : (k - 1) / 2 < n := by omega
      have ra : arrayRead .heap size h ((k - 1) / 2) = .ok (itemAt (cellsValues h) ((k - 1) / 2)) :=
        arrayRead_ok_iff.2 ⟨by omega, cellsGet_itemAt hd hp⟩
      have ri : arrayRead .heap size h k = .ok (itemAt (cellsValues h) k) :=
        arrayRead_ok_iff.2 ⟨by omega, cellsGet_itemAt hd hk⟩
      have ka := hkey _ (itemAt_mem (l := cellsValues h) (j := (k - 1) / 2) (by omega))
      have ki := hkey _ (itemAt_mem (l := cellsValues h) (j := k) (by omega))
      simp only [siftUp, hk0, if_false, ra, ri, ka, ki, ok_bind]
      split_ifs with hlt
      · obtain ⟨h1, h2⟩ := heapSwap_dense hd hp hk (itemAt (cellsValues h) ((k - 1) / 2)) (itemAt (cellsValues h) k)
        have hperm : (cellsValues (heapSwap h ((k - 1) / 2) (itemAt (cellsValues h) ((k - 1) / 2)) k
            (itemAt (cellsValues h) k))).Perm (cellsValues h) := by
          rw [h2]; exact swap_perm (by omega) (by omega)
        obtain ⟨h', e1, e2, e3, e4⟩ := ih _ ((k - 1) / 2) h1 hp (by omega)
          (fun x hx => hkey x (hperm.mem_iff.1 hx)) (by rw [h2]; exact ho.swap (by omega) (by omega) hlt)
        exact ⟨h', e1, e2, e3.trans hperm, e4⟩
      · refine ⟨h, rfl, hd, .refl _, ?_⟩
        intro j hj hj0
        by_cases hjk : j = k
        · subst hjk; omega
        · exact ho.1 j hj hj0 hjk

/-- The child that sift-down compares against has the smallest key of the children (R213). -/
theorem smallerChild_spec {size : Nat} {keyOf : Nat → Except Fault Nat} {key : Nat → Nat} {n : Nat} (hn : n ≤ size)
    {h : Cells Nat} (hd : cellsDense h n) (hkey : ∀ x ∈ cellsValues h, keyOf x = .ok (key x)) {k : Nat}
    (hk : 2 * k + 1 < n) :
    ∃ c, smallerChild size keyOf h n k = .ok c ∧ c < n ∧ 0 < c ∧ (c - 1) / 2 = k ∧
      ∀ j < n, 0 < j → (j - 1) / 2 = k → key (itemAt (cellsValues h) c) ≤ key (itemAt (cellsValues h) j) := by
  have hlen := cellsDense_length hd
  unfold smallerChild
  by_cases hr : 2 * k + 2 < n
  · have rl : arrayRead .heap size h (2 * k + 1) = .ok (itemAt (cellsValues h) (2 * k + 1)) :=
      arrayRead_ok_iff.2 ⟨by omega, cellsGet_itemAt hd hk⟩
    have rr : arrayRead .heap size h (2 * k + 2) = .ok (itemAt (cellsValues h) (2 * k + 2)) :=
      arrayRead_ok_iff.2 ⟨by omega, cellsGet_itemAt hd hr⟩
    have kl := hkey _ (itemAt_mem (l := cellsValues h) (j := 2 * k + 1) (by omega))
    have kr := hkey _ (itemAt_mem (l := cellsValues h) (j := 2 * k + 2) (by omega))
    simp only [hr, if_true, rl, rr, kl, kr, ok_bind]
    split_ifs with hlt
    · refine ⟨_, rfl, hr, by omega, by omega, ?_⟩
      intro j hj hj0 hjk
      have : j = 2 * k + 1 ∨ j = 2 * k + 2 := by omega
      rcases this with rfl | rfl <;> omega
    · refine ⟨_, rfl, hk, by omega, by omega, ?_⟩
      intro j hj hj0 hjk
      have : j = 2 * k + 1 ∨ j = 2 * k + 2 := by omega
      rcases this with rfl | rfl <;> omega
  · simp only [hr, if_false]
    refine ⟨_, rfl, hk, by omega, by omega, ?_⟩
    intro j hj hj0 hjk
    have : j = 2 * k + 1 := by omega
    subst this; exact le_rfl

/-- Sift-down (R213): from a heap ordered but below k, it ends in a heap of the same items. -/
theorem siftDown_spec {size : Nat} {keyOf : Nat → Except Fault Nat} {key : Nat → Nat} {n : Nat} (hn : n ≤ size) :
    ∀ (fuel : Nat) (h : Cells Nat) (k : Nat), cellsDense h n → k < n → n ≤ fuel + k →
      (∀ x ∈ cellsValues h, keyOf x = .ok (key x)) → DownOrdered key (cellsValues h) k →
      ∃ h', siftDown size keyOf n fuel h k = .ok h' ∧ cellsDense h' n ∧ (cellsValues h').Perm (cellsValues h) ∧
        Ordered key (cellsValues h') := by
  intro fuel
  induction fuel with
  | zero => intro h k _ hk hf; omega
  | succ fuel ih =>
    intro h k hd hk hf hkey ho
    have hlen := cellsDense_length hd
    by_cases hleaf : n ≤ 2 * k + 1
    · refine ⟨h, by simp [siftDown, hleaf], hd, .refl _, ?_⟩
      intro j hj hj0
      exact ho.1 j hj hj0 (by omega)
    · obtain ⟨c, e, hc, hc0, hck, hmin⟩ := smallerChild_spec hn hd hkey (k := k) (by omega)
      have rc : arrayRead .heap size h c = .ok (itemAt (cellsValues h) c) :=
        arrayRead_ok_iff.2 ⟨by omega, cellsGet_itemAt hd hc⟩
      have ri : arrayRead .heap size h k = .ok (itemAt (cellsValues h) k) :=
        arrayRead_ok_iff.2 ⟨by omega, cellsGet_itemAt hd hk⟩
      have kc := hkey _ (itemAt_mem (l := cellsValues h) (j := c) (by omega))
      have ki := hkey _ (itemAt_mem (l := cellsValues h) (j := k) (by omega))
      simp only [siftDown, hleaf, if_false, e, rc, ri, kc, ki, ok_bind]
      split_ifs with hlt
      · obtain ⟨h1, h2⟩ := heapSwap_dense hd hc hk (itemAt (cellsValues h) c) (itemAt (cellsValues h) k)
        have hperm : (cellsValues (heapSwap h c (itemAt (cellsValues h) c) k
            (itemAt (cellsValues h) k))).Perm (cellsValues h) := by
          rw [h2]; exact swap_perm (by omega) (by omega)
        obtain ⟨h', e1, e2, e3, e4⟩ := ih _ c h1 hc (by omega) (fun x hx => hkey x (hperm.mem_iff.1 hx))
          (by rw [h2]; exact ho.swap (by omega) hc0 hck hlt (fun j hj => hmin j (by omega)))
        exact ⟨h', e1, e2, e3.trans hperm, e4⟩
      · refine ⟨h, rfl, hd, .refl _, ?_⟩
        intro j hj hj0
        by_cases hq : (j - 1) / 2 = k
        · have := hmin j (by omega) hj0 hq
          rw [hq]; omega
        · exact ho.1 j hj hj0 hq

end Sys2Proof.Machine
end

