-- ==== Sys2Proof/Laws/State.lean ====
section
/-! SUPPORT. The fields of the state after each named update, one lemma per field and update, so that no later proof
unfolds a record update. -/

namespace Sys2Proof.Machine

/-! ## respond -/

@[simp] theorem respond_config (d : Data) (s : State) : (respond d s).config = s.config := rfl

@[simp] theorem respond_phase (d : Data) (s : State) : (respond d s).phase = s.phase := rfl

@[simp] theorem respond_freq (d : Data) (s : State) : (respond d s).freq = s.freq := rfl

@[simp] theorem respond_order (d : Data) (s : State) : (respond d s).order = s.order := rfl

@[simp] theorem respond_distinct (d : Data) (s : State) : (respond d s).distinct = s.distinct := rfl

@[simp] theorem respond_total (d : Data) (s : State) : (respond d s).total = s.total := rfl

@[simp] theorem respond_node (d : Data) (s : State) : (respond d s).node = s.node := rfl

@[simp] theorem respond_nodeCount (d : Data) (s : State) : (respond d s).nodeCount = s.nodeCount := rfl

@[simp] theorem respond_heap (d : Data) (s : State) : (respond d s).heap = s.heap := rfl

@[simp] theorem respond_heapCount (d : Data) (s : State) : (respond d s).heapCount = s.heapCount := rfl

@[simp] theorem respond_root (d : Data) (s : State) : (respond d s).root = s.root := rfl

@[simp] theorem respond_rootValid (d : Data) (s : State) : (respond d s).rootValid = s.rootValid := rfl

@[simp] theorem respond_rom (d : Data) (s : State) : (respond d s).rom = s.rom := rfl

@[simp] theorem respond_maxLen (d : Data) (s : State) : (respond d s).maxLen = s.maxLen := rfl

@[simp] theorem respond_errCode (d : Data) (s : State) : (respond d s).errCode = s.errCode := rfl

@[simp] theorem respond_errOpc (d : Data) (s : State) : (respond d s).errOpc = s.errOpc := rfl

@[simp] theorem respond_response (d : Data) (s : State) : (respond d s).response = some (responseWord (statusCode .ok) d) := rfl

@[simp] theorem respond_taken (d : Data) (s : State) : (respond d s).taken = s.taken := rfl

@[simp] theorem respond_host (d : Data) (s : State) : (respond d s).host = s.host := rfl

@[simp] theorem respond_position (d : Data) (s : State) : (respond d s).position = s.position := rfl

/-! ## raise -/

@[simp] theorem raise_config (b : Byte) (e : Status) (s : State) : (raise b e s).config = s.config := rfl

@[simp] theorem raise_phase (b : Byte) (e : Status) (s : State) : (raise b e s).phase = s.phase := rfl

@[simp] theorem raise_freq (b : Byte) (e : Status) (s : State) : (raise b e s).freq = s.freq := rfl

@[simp] theorem raise_order (b : Byte) (e : Status) (s : State) : (raise b e s).order = s.order := rfl

@[simp] theorem raise_distinct (b : Byte) (e : Status) (s : State) : (raise b e s).distinct = s.distinct := rfl

@[simp] theorem raise_total (b : Byte) (e : Status) (s : State) : (raise b e s).total = s.total := rfl

@[simp] theorem raise_node (b : Byte) (e : Status) (s : State) : (raise b e s).node = s.node := rfl

@[simp] theorem raise_nodeCount (b : Byte) (e : Status) (s : State) : (raise b e s).nodeCount = s.nodeCount := rfl

@[simp] theorem raise_heap (b : Byte) (e : Status) (s : State) : (raise b e s).heap = s.heap := rfl

@[simp] theorem raise_heapCount (b : Byte) (e : Status) (s : State) : (raise b e s).heapCount = s.heapCount := rfl

@[simp] theorem raise_root (b : Byte) (e : Status) (s : State) : (raise b e s).root = s.root := rfl

@[simp] theorem raise_rootValid (b : Byte) (e : Status) (s : State) : (raise b e s).rootValid = s.rootValid := rfl

@[simp] theorem raise_rom (b : Byte) (e : Status) (s : State) : (raise b e s).rom = s.rom := rfl

@[simp] theorem raise_maxLen (b : Byte) (e : Status) (s : State) : (raise b e s).maxLen = s.maxLen := rfl

@[simp] theorem raise_errCode (b : Byte) (e : Status) (s : State) : (raise b e s).errCode = statusCode e := rfl

@[simp] theorem raise_errOpc (b : Byte) (e : Status) (s : State) : (raise b e s).errOpc = b := rfl

@[simp] theorem raise_response (b : Byte) (e : Status) (s : State) : (raise b e s).response = some (responseWord (statusCode e) 0#56) := rfl

@[simp] theorem raise_taken (b : Byte) (e : Status) (s : State) : (raise b e s).taken = s.taken := rfl

@[simp] theorem raise_host (b : Byte) (e : Status) (s : State) : (raise b e s).host = s.host := rfl

@[simp] theorem raise_position (b : Byte) (e : Status) (s : State) : (raise b e s).position = s.position := rfl

/-! ## acceptCommand -/

@[simp] theorem acceptCommand_config (rest : List HostMove) (s : State) : (acceptCommand rest s).config = s.config := rfl

@[simp] theorem acceptCommand_phase (rest : List HostMove) (s : State) : (acceptCommand rest s).phase = s.phase := rfl

@[simp] theorem acceptCommand_freq (rest : List HostMove) (s : State) : (acceptCommand rest s).freq = s.freq := rfl

@[simp] theorem acceptCommand_order (rest : List HostMove) (s : State) : (acceptCommand rest s).order = s.order := rfl

@[simp] theorem acceptCommand_distinct (rest : List HostMove) (s : State) : (acceptCommand rest s).distinct = s.distinct := rfl

@[simp] theorem acceptCommand_total (rest : List HostMove) (s : State) : (acceptCommand rest s).total = s.total := rfl

@[simp] theorem acceptCommand_node (rest : List HostMove) (s : State) : (acceptCommand rest s).node = s.node := rfl

@[simp] theorem acceptCommand_nodeCount (rest : List HostMove) (s : State) : (acceptCommand rest s).nodeCount = s.nodeCount := rfl

@[simp] theorem acceptCommand_heap (rest : List HostMove) (s : State) : (acceptCommand rest s).heap = s.heap := rfl

@[simp] theorem acceptCommand_heapCount (rest : List HostMove) (s : State) : (acceptCommand rest s).heapCount = s.heapCount := rfl

@[simp] theorem acceptCommand_root (rest : List HostMove) (s : State) : (acceptCommand rest s).root = s.root := rfl

@[simp] theorem acceptCommand_rootValid (rest : List HostMove) (s : State) : (acceptCommand rest s).rootValid = s.rootValid := rfl

@[simp] theorem acceptCommand_rom (rest : List HostMove) (s : State) : (acceptCommand rest s).rom = s.rom := rfl

@[simp] theorem acceptCommand_maxLen (rest : List HostMove) (s : State) : (acceptCommand rest s).maxLen = s.maxLen := rfl

@[simp] theorem acceptCommand_errCode (rest : List HostMove) (s : State) : (acceptCommand rest s).errCode = s.errCode := rfl

@[simp] theorem acceptCommand_errOpc (rest : List HostMove) (s : State) : (acceptCommand rest s).errOpc = s.errOpc := rfl

@[simp] theorem acceptCommand_response (rest : List HostMove) (s : State) : (acceptCommand rest s).response = s.response := rfl

@[simp] theorem acceptCommand_taken (rest : List HostMove) (s : State) : (acceptCommand rest s).taken = s.taken := rfl

@[simp] theorem acceptCommand_host (rest : List HostMove) (s : State) : (acceptCommand rest s).host = rest := rfl

@[simp] theorem acceptCommand_position (rest : List HostMove) (s : State) : (acceptCommand rest s).position = s.position + 1 := rfl

/-! ## clearBlock -/

@[simp] theorem clearBlock_config (s : State) : (clearBlock s).config = s.config := rfl

@[simp] theorem clearBlock_phase (s : State) : (clearBlock s).phase = .load := rfl

@[simp] theorem clearBlock_freq (s : State) : (clearBlock s).freq = [] := rfl

@[simp] theorem clearBlock_order (s : State) : (clearBlock s).order = [] := rfl

@[simp] theorem clearBlock_distinct (s : State) : (clearBlock s).distinct = 0 := rfl

@[simp] theorem clearBlock_total (s : State) : (clearBlock s).total = 0 := rfl

@[simp] theorem clearBlock_node (s : State) : (clearBlock s).node = [] := rfl

@[simp] theorem clearBlock_nodeCount (s : State) : (clearBlock s).nodeCount = 0 := rfl

@[simp] theorem clearBlock_heap (s : State) : (clearBlock s).heap = [] := rfl

@[simp] theorem clearBlock_heapCount (s : State) : (clearBlock s).heapCount = 0 := rfl

@[simp] theorem clearBlock_root (s : State) : (clearBlock s).root = 0 := rfl

@[simp] theorem clearBlock_rootValid (s : State) : (clearBlock s).rootValid = false := rfl

@[simp] theorem clearBlock_rom (s : State) : (clearBlock s).rom = [] := rfl

@[simp] theorem clearBlock_maxLen (s : State) : (clearBlock s).maxLen = 0 := rfl

@[simp] theorem clearBlock_errCode (s : State) : (clearBlock s).errCode = 0#8 := rfl

@[simp] theorem clearBlock_errOpc (s : State) : (clearBlock s).errOpc = 0#8 := rfl

@[simp] theorem clearBlock_response (s : State) : (clearBlock s).response = s.response := rfl

@[simp] theorem clearBlock_taken (s : State) : (clearBlock s).taken = s.taken := rfl

@[simp] theorem clearBlock_host (s : State) : (clearBlock s).host = s.host := rfl

@[simp] theorem clearBlock_position (s : State) : (clearBlock s).position = s.position := rfl

/-! ## resetBlock -/

@[simp] theorem resetBlock_config (s : State) : (resetBlock s).config = s.config := rfl

@[simp] theorem resetBlock_phase (s : State) : (resetBlock s).phase = .load := rfl

@[simp] theorem resetBlock_freq (s : State) : (resetBlock s).freq = [] := rfl

@[simp] theorem resetBlock_order (s : State) : (resetBlock s).order = [] := rfl

@[simp] theorem resetBlock_distinct (s : State) : (resetBlock s).distinct = 0 := rfl

@[simp] theorem resetBlock_total (s : State) : (resetBlock s).total = 0 := rfl

@[simp] theorem resetBlock_node (s : State) : (resetBlock s).node = [] := rfl

@[simp] theorem resetBlock_nodeCount (s : State) : (resetBlock s).nodeCount = 0 := rfl

@[simp] theorem resetBlock_heap (s : State) : (resetBlock s).heap = [] := rfl

@[simp] theorem resetBlock_heapCount (s : State) : (resetBlock s).heapCount = 0 := rfl

@[simp] theorem resetBlock_root (s : State) : (resetBlock s).root = 0 := rfl

@[simp] theorem resetBlock_rootValid (s : State) : (resetBlock s).rootValid = false := rfl

@[simp] theorem resetBlock_rom (s : State) : (resetBlock s).rom = [] := rfl

@[simp] theorem resetBlock_maxLen (s : State) : (resetBlock s).maxLen = 0 := rfl

@[simp] theorem resetBlock_errCode (s : State) : (resetBlock s).errCode = 0#8 := rfl

@[simp] theorem resetBlock_errOpc (s : State) : (resetBlock s).errOpc = 0#8 := rfl

@[simp] theorem resetBlock_response (s : State) : (resetBlock s).response = none := rfl

@[simp] theorem resetBlock_taken (s : State) : (resetBlock s).taken = s.taken := rfl

@[simp] theorem resetBlock_host (s : State) : (resetBlock s).host = s.host := rfl

@[simp] theorem resetBlock_position (s : State) : (resetBlock s).position = s.position := rfl

/-! ## freqWrite -/

@[simp] theorem freqWrite_config (s : State) (x c : Nat) : (freqWrite s x c).config = s.config := rfl

@[simp] theorem freqWrite_phase (s : State) (x c : Nat) : (freqWrite s x c).phase = s.phase := rfl

@[simp] theorem freqWrite_freq (s : State) (x c : Nat) : (freqWrite s x c).freq = cellsPut 0 s.freq x c := rfl

@[simp] theorem freqWrite_order (s : State) (x c : Nat) : (freqWrite s x c).order = s.order := rfl

@[simp] theorem freqWrite_distinct (s : State) (x c : Nat) : (freqWrite s x c).distinct = s.distinct := rfl

@[simp] theorem freqWrite_total (s : State) (x c : Nat) : (freqWrite s x c).total = s.total := rfl

@[simp] theorem freqWrite_node (s : State) (x c : Nat) : (freqWrite s x c).node = s.node := rfl

@[simp] theorem freqWrite_nodeCount (s : State) (x c : Nat) : (freqWrite s x c).nodeCount = s.nodeCount := rfl

@[simp] theorem freqWrite_heap (s : State) (x c : Nat) : (freqWrite s x c).heap = s.heap := rfl

@[simp] theorem freqWrite_heapCount (s : State) (x c : Nat) : (freqWrite s x c).heapCount = s.heapCount := rfl

@[simp] theorem freqWrite_root (s : State) (x c : Nat) : (freqWrite s x c).root = s.root := rfl

@[simp] theorem freqWrite_rootValid (s : State) (x c : Nat) : (freqWrite s x c).rootValid = s.rootValid := rfl

@[simp] theorem freqWrite_rom (s : State) (x c : Nat) : (freqWrite s x c).rom = s.rom := rfl

@[simp] theorem freqWrite_maxLen (s : State) (x c : Nat) : (freqWrite s x c).maxLen = s.maxLen := rfl

@[simp] theorem freqWrite_errCode (s : State) (x c : Nat) : (freqWrite s x c).errCode = s.errCode := rfl

@[simp] theorem freqWrite_errOpc (s : State) (x c : Nat) : (freqWrite s x c).errOpc = s.errOpc := rfl

@[simp] theorem freqWrite_response (s : State) (x c : Nat) : (freqWrite s x c).response = s.response := rfl

@[simp] theorem freqWrite_taken (s : State) (x c : Nat) : (freqWrite s x c).taken = s.taken := rfl

@[simp] theorem freqWrite_host (s : State) (x c : Nat) : (freqWrite s x c).host = s.host := rfl

@[simp] theorem freqWrite_position (s : State) (x c : Nat) : (freqWrite s x c).position = s.position := rfl

/-! ## offerWord -/

@[simp] theorem offerWord_config (w : CommandWord) (s : State) : (offerWord w s).config = s.config := rfl

@[simp] theorem offerWord_phase (w : CommandWord) (s : State) : (offerWord w s).phase = s.phase := rfl

@[simp] theorem offerWord_freq (w : CommandWord) (s : State) : (offerWord w s).freq = s.freq := rfl

@[simp] theorem offerWord_order (w : CommandWord) (s : State) : (offerWord w s).order = s.order := rfl

@[simp] theorem offerWord_distinct (w : CommandWord) (s : State) : (offerWord w s).distinct = s.distinct := rfl

@[simp] theorem offerWord_total (w : CommandWord) (s : State) : (offerWord w s).total = s.total := rfl

@[simp] theorem offerWord_node (w : CommandWord) (s : State) : (offerWord w s).node = s.node := rfl

@[simp] theorem offerWord_nodeCount (w : CommandWord) (s : State) : (offerWord w s).nodeCount = s.nodeCount := rfl

@[simp] theorem offerWord_heap (w : CommandWord) (s : State) : (offerWord w s).heap = s.heap := rfl

@[simp] theorem offerWord_heapCount (w : CommandWord) (s : State) : (offerWord w s).heapCount = s.heapCount := rfl

@[simp] theorem offerWord_root (w : CommandWord) (s : State) : (offerWord w s).root = s.root := rfl

@[simp] theorem offerWord_rootValid (w : CommandWord) (s : State) : (offerWord w s).rootValid = s.rootValid := rfl

@[simp] theorem offerWord_rom (w : CommandWord) (s : State) : (offerWord w s).rom = s.rom := rfl

@[simp] theorem offerWord_maxLen (w : CommandWord) (s : State) : (offerWord w s).maxLen = s.maxLen := rfl

@[simp] theorem offerWord_errCode (w : CommandWord) (s : State) : (offerWord w s).errCode = s.errCode := rfl

@[simp] theorem offerWord_errOpc (w : CommandWord) (s : State) : (offerWord w s).errOpc = s.errOpc := rfl

@[simp] theorem offerWord_response (w : CommandWord) (s : State) : (offerWord w s).response = none := rfl

@[simp] theorem offerWord_taken (w : CommandWord) (s : State) : (offerWord w s).taken = s.taken := rfl

@[simp] theorem offerWord_host (w : CommandWord) (s : State) : (offerWord w s).host = .command w :: s.host := rfl

@[simp] theorem offerWord_position (w : CommandWord) (s : State) : (offerWord w s).position = s.position := rfl

/-! ## transferResponse -/

@[simp] theorem transferResponse_config (s : State) : (transferResponse s).config = s.config := by
  unfold transferResponse; split <;> rfl

@[simp] theorem transferResponse_phase (s : State) : (transferResponse s).phase = s.phase := by
  unfold transferResponse; split <;> rfl

@[simp] theorem transferResponse_freq (s : State) : (transferResponse s).freq = s.freq := by
  unfold transferResponse; split <;> rfl

@[simp] theorem transferResponse_order (s : State) : (transferResponse s).order = s.order := by
  unfold transferResponse; split <;> rfl

@[simp] theorem transferResponse_distinct (s : State) : (transferResponse s).distinct = s.distinct := by
  unfold transferResponse; split <;> rfl

@[simp] theorem transferResponse_total (s : State) : (transferResponse s).total = s.total := by
  unfold transferResponse; split <;> rfl

@[simp] theorem transferResponse_node (s : State) : (transferResponse s).node = s.node := by
  unfold transferResponse; split <;> rfl

@[simp] theorem transferResponse_nodeCount (s : State) : (transferResponse s).nodeCount = s.nodeCount := by
  unfold transferResponse; split <;> rfl

@[simp] theorem transferResponse_heap (s : State) : (transferResponse s).heap = s.heap := by
  unfold transferResponse; split <;> rfl

@[simp] theorem transferResponse_heapCount (s : State) : (transferResponse s).heapCount = s.heapCount := by
  unfold transferResponse; split <;> rfl

@[simp] theorem transferResponse_root (s : State) : (transferResponse s).root = s.root := by
  unfold transferResponse; split <;> rfl

@[simp] theorem transferResponse_rootValid (s : State) : (transferResponse s).rootValid = s.rootValid := by
  unfold transferResponse; split <;> rfl

@[simp] theorem transferResponse_rom (s : State) : (transferResponse s).rom = s.rom := by
  unfold transferResponse; split <;> rfl

@[simp] theorem transferResponse_maxLen (s : State) : (transferResponse s).maxLen = s.maxLen := by
  unfold transferResponse; split <;> rfl

@[simp] theorem transferResponse_errCode (s : State) : (transferResponse s).errCode = s.errCode := by
  unfold transferResponse; split <;> rfl

@[simp] theorem transferResponse_errOpc (s : State) : (transferResponse s).errOpc = s.errOpc := by
  unfold transferResponse; split <;> rfl

@[simp] theorem transferResponse_host (s : State) : (transferResponse s).host = s.host := by
  unfold transferResponse; split <;> rfl

@[simp] theorem transferResponse_position (s : State) : (transferResponse s).position = s.position := by
  unfold transferResponse; split <;> rfl

@[simp] theorem transferResponse_response (s : State) : (transferResponse s).response = none := by
  unfold transferResponse; split
  · assumption
  · rfl

theorem transferResponse_taken (s : State) : (transferResponse s).taken = s.taken ++ s.response.toList := by
  unfold transferResponse; split <;> simp_all

/-! ## finish -/

@[simp] theorem finish_config (b : Byte) (a : Answer) (s : State) : (finish b a s).config = s.config := by
  cases a <;> rfl

@[simp] theorem finish_phase (b : Byte) (a : Answer) (s : State) : (finish b a s).phase = s.phase := by
  cases a <;> rfl

@[simp] theorem finish_freq (b : Byte) (a : Answer) (s : State) : (finish b a s).freq = s.freq := by
  cases a <;> rfl

@[simp] theorem finish_order (b : Byte) (a : Answer) (s : State) : (finish b a s).order = s.order := by
  cases a <;> rfl

@[simp] theorem finish_distinct (b : Byte) (a : Answer) (s : State) : (finish b a s).distinct = s.distinct := by
  cases a <;> rfl

@[simp] theorem finish_total (b : Byte) (a : Answer) (s : State) : (finish b a s).total = s.total := by
  cases a <;> rfl

@[simp] theorem finish_node (b : Byte) (a : Answer) (s : State) : (finish b a s).node = s.node := by
  cases a <;> rfl

@[simp] theorem finish_nodeCount (b : Byte) (a : Answer) (s : State) : (finish b a s).nodeCount = s.nodeCount := by
  cases a <;> rfl

@[simp] theorem finish_heap (b : Byte) (a : Answer) (s : State) : (finish b a s).heap = s.heap := by
  cases a <;> rfl

@[simp] theorem finish_heapCount (b : Byte) (a : Answer) (s : State) : (finish b a s).heapCount = s.heapCount := by
  cases a <;> rfl

@[simp] theorem finish_root (b : Byte) (a : Answer) (s : State) : (finish b a s).root = s.root := by
  cases a <;> rfl

@[simp] theorem finish_rootValid (b : Byte) (a : Answer) (s : State) : (finish b a s).rootValid = s.rootValid := by
  cases a <;> rfl

@[simp] theorem finish_rom (b : Byte) (a : Answer) (s : State) : (finish b a s).rom = s.rom := by
  cases a <;> rfl

@[simp] theorem finish_maxLen (b : Byte) (a : Answer) (s : State) : (finish b a s).maxLen = s.maxLen := by
  cases a <;> rfl

@[simp] theorem finish_taken (b : Byte) (a : Answer) (s : State) : (finish b a s).taken = s.taken := by
  cases a <;> rfl

@[simp] theorem finish_host (b : Byte) (a : Answer) (s : State) : (finish b a s).host = s.host := by
  cases a <;> rfl

@[simp] theorem finish_position (b : Byte) (a : Answer) (s : State) : (finish b a s).position = s.position := by
  cases a <;> rfl

@[simp] theorem finish_respond (b : Byte) (d : Data) (s : State) : finish b (.respond d) s = respond d s := rfl

@[simp] theorem finish_raise (b : Byte) (e : Status) (s : State) : finish b (.raise e) s = raise b e s := rfl

/-- Reset and CLEAR zero the block to its reset state (R350, R152, R352). -/
theorem clearBlock_eq_resetWith (s : State) :
    clearBlock s = { State.resetWith s.config with
      response := s.response, taken := s.taken, host := s.host, position := s.position } := rfl

end Sys2Proof.Machine
end

