-- ==== Sys2Proof/Laws/Queue.lean ====
section
/-! SUPPORT. What Enqueue and Dequeue do (`42_priority_queue.md` R212, R213): their frames in every state, and their
effect on a queue that is a heap. -/

namespace Sys2Proof.Machine

/-! ## Reading the node store -/

theorem nodeRead_ok_iff {s : State} {i : Nat} {n : NodeRecord} :
    nodeRead s i = .ok n ↔ i < s.config.nodeMax ∧ cellsGet s.node i = some n := arrayRead_ok_iff

theorem nodeFreqAt_of_get {s : State} {i : Nat} {n : NodeRecord} (h : cellsGet s.node i = some n) :
    nodeFreqAt s i = nodeFreq n := by
  simp [nodeFreqAt, h]

/-- A node that is written and in range has its frequency as its key (R211). -/
theorem nodeKey_of_get {s : State} {i : Nat} {n : NodeRecord} (hi : i < s.config.nodeMax)
    (h : cellsGet s.node i = some n) : nodeKey s i = .ok (nodeFreqAt s i) := by
  simp [nodeKey, nodeRead_ok_iff.2 ⟨hi, h⟩, nodeFreqAt_of_get h]

theorem nodeKey_ok {s : State} {i k : Nat} (h : nodeKey s i = .ok k) :
    i < s.config.nodeMax ∧ k = nodeFreqAt s i ∧ ∃ n, cellsGet s.node i = some n := by
  obtain ⟨n, h1, h2⟩ := bind_eq_ok.1 h
  obtain ⟨hi, hn⟩ := nodeRead_ok_iff.1 h1
  cases h2
  exact ⟨hi, (nodeFreqAt_of_get hn).symm, n, hn⟩

/-- The keys depend on the node store and the configuration alone (R211). -/
theorem nodeKey_congr {s t : State} (hn : t.node = s.node) (hc : t.config = s.config) : nodeKey t = nodeKey s := by
  funext i; simp [nodeKey, nodeRead, hn, hc]

theorem nodeFreqAt_congr {s t : State} (hn : t.node = s.node) : nodeFreqAt t = nodeFreqAt s := by
  funext i; simp [nodeFreqAt, hn]

/-! ## The heap as a list -/

theorem heapItem_eq {s : State} (hd : cellsDense s.heap s.heapCount) (k : Nat) :
    heapItem s k = itemAt (heapItems s) k := by
  simp [heapItem, cellsAt, cellsGet_dense hd, itemAt, heapItems]

theorem heapOrdered_iff {s : State} (hd : cellsDense s.heap s.heapCount) :
    HeapOrdered s ↔ Ordered (nodeFreqAt s) (heapItems s) := by
  have hlen : (heapItems s).length = s.heapCount := cellsDense_length hd
  simp only [HeapOrdered, Ordered, heapItem_eq hd, hlen]

theorem heapItems_length {s : State} (hd : cellsDense s.heap s.heapCount) : (heapItems s).length = s.heapCount :=
  cellsDense_length hd

/-! ## Frames, in every state -/

/-- Enqueue changes HEAP and HEAP_COUNT alone, and adds one to the count (R42, R212). -/
theorem enqueue_frame {n : Nat} {s t : State} (h : enqueue n s = .ok t) :
    t = { s with heap := t.heap, heapCount := s.heapCount + 1 } := by
  obtain ⟨h1, _, h⟩ := bind_eq_ok.1 h
  obtain ⟨h2, _, h⟩ := bind_eq_ok.1 h
  cases h; rfl

/-- Dequeue changes HEAP and HEAP_COUNT alone, and takes one from the count of a queue that is not empty (R42,
R213, R215). -/
theorem dequeue_frame {x : Nat} {s t : State} (h : dequeue s = .ok (x, t)) :
    0 < s.heapCount ∧ t = { s with heap := t.heap, heapCount := s.heapCount - 1 } := by
  unfold dequeue at h
  split_ifs at h with h0
  refine ⟨by omega, ?_⟩
  obtain ⟨top, _, h⟩ := bind_eq_ok.1 h
  simp only at h
  split_ifs at h with h1
  · cases h; rfl
  · obtain ⟨last, _, h⟩ := bind_eq_ok.1 h
    obtain ⟨h2, _, h⟩ := bind_eq_ok.1 h
    cases h; rfl

/-- A Dequeue of an empty queue is the fault EMPTY_QUEUE (R215, R319). -/
theorem dequeue_empty {s : State} (h : s.heapCount = 0) : dequeue s = .error .emptyQueue := by
  simp [dequeue, h]

theorem heapSwap_sorted {h : Cells Nat} (hs : cellsSorted h) (i a j b : Nat) : cellsSorted (heapSwap h i a j b) :=
  cellsSorted_set _ _ (cellsSorted_set _ _ hs)

theorem siftUp_sorted {size : Nat} {key : Nat → Except Fault Nat} :
    ∀ (fuel : Nat) (h : Cells Nat) (k : Nat) (h' : Cells Nat), cellsSorted h → siftUp size key fuel h k = .ok h' →
      cellsSorted h' := by
  intro fuel
  induction fuel with
  | zero => intro h k h' hs e; cases e; exact hs
  | succ fuel ih =>
    intro h k h' hs e
    simp only [siftUp] at e
    split_ifs at e with hk
    · cases e; exact hs
    · obtain ⟨a, _, e⟩ := bind_eq_ok.1 e
      obtain ⟨b, _, e⟩ := bind_eq_ok.1 e
      obtain ⟨ka, _, e⟩ := bind_eq_ok.1 e
      obtain ⟨kb, _, e⟩ := bind_eq_ok.1 e
      split_ifs at e with hlt
      · exact ih _ _ _ (heapSwap_sorted hs _ _ _ _) e
      · cases e; exact hs

theorem siftDown_sorted {size : Nat} {key : Nat → Except Fault Nat} {count : Nat} :
    ∀ (fuel : Nat) (h : Cells Nat) (k : Nat) (h' : Cells Nat), cellsSorted h →
      siftDown size key count fuel h k = .ok h' → cellsSorted h' := by
  intro fuel
  induction fuel with
  | zero => intro h k h' hs e; cases e; exact hs
  | succ fuel ih =>
    intro h k h' hs e
    simp only [siftDown] at e
    split_ifs at e with hk
    · cases e; exact hs
    · obtain ⟨c, _, e⟩ := bind_eq_ok.1 e
      obtain ⟨a, _, e⟩ := bind_eq_ok.1 e
      obtain ⟨b, _, e⟩ := bind_eq_ok.1 e
      obtain ⟨ka, _, e⟩ := bind_eq_ok.1 e
      obtain ⟨kb, _, e⟩ := bind_eq_ok.1 e
      split_ifs at e with hlt
      · exact ih _ _ _ (heapSwap_sorted hs _ _ _ _) e
      · cases e; exact hs

/-- Enqueue keeps HEAP's canonical form. -/
theorem enqueue_sorted {n : Nat} {s t : State} (hs : cellsSorted s.heap) (h : enqueue n s = .ok t) :
    cellsSorted t.heap := by
  obtain ⟨h1, e1, h⟩ := bind_eq_ok.1 h
  obtain ⟨h2, e2, h⟩ := bind_eq_ok.1 h
  cases h
  exact siftUp_sorted _ _ _ _ ((arrayWrite_ok_iff.1 e1).2 ▸ cellsSorted_set _ _ hs) e2

/-- Dequeue keeps HEAP's canonical form. -/
theorem dequeue_sorted {x : Nat} {s t : State} (hs : cellsSorted s.heap) (h : dequeue s = .ok (x, t)) :
    cellsSorted t.heap := by
  unfold dequeue at h
  split_ifs at h with h0
  obtain ⟨top, _, h⟩ := bind_eq_ok.1 h
  simp only at h
  split_ifs at h with h1
  · cases h; exact cellsSorted_erase _ hs
  · obtain ⟨last, _, h⟩ := bind_eq_ok.1 h
    obtain ⟨h2, e, h⟩ := bind_eq_ok.1 h
    cases h
    exact siftDown_sorted _ _ _ _ (cellsSorted_erase _ (cellsSorted_set _ _ hs)) e

/-! ## On a heap -/

/-- The queue is a heap: its entries are those at 0 .. HEAP_COUNT−1, each names a written node, and it is ordered
(R42, R211). -/
structure IsQueue (s : State) : Prop where
  dense : cellsDense s.heap s.heapCount
  keys : ∀ x ∈ heapItems s, nodeKey s x = .ok (nodeFreqAt s x)
  ordered : HeapOrdered s

/-- Enqueue on a heap with room (R212, R216): it ends, the queue holds one item more, and it is a heap. -/
theorem enqueue_spec {n : Nat} {s : State} (hq : IsQueue s) (hroom : s.heapCount < s.config.heapMax)
    (hn : nodeKey s n = .ok (nodeFreqAt s n)) :
    ∃ h', enqueue n s = .ok { s with heap := h', heapCount := s.heapCount + 1 } ∧
      (cellsValues h').Perm (n :: heapItems s) ∧ IsQueue { s with heap := h', heapCount := s.heapCount + 1 } := by
  obtain ⟨d1, v1⟩ := cellsDense_append hq.dense n
  have hlen : (heapItems s).length = s.heapCount := cellsDense_length hq.dense
  have hv : cellsValues (cellsSet s.heap s.heapCount n) = heapItems s ++ [n] := v1
  have hkeys : ∀ x ∈ heapItems s ++ [n], nodeKey s x = .ok (nodeFreqAt s x) := by
    intro x hx
    rcases List.mem_append.1 hx with hx | hx
    · exact hq.keys x hx
    · simp only [List.mem_singleton] at hx; subst hx; exact hn
  have hord := (heapOrdered_iff hq.dense).1 hq.ordered
  have hat : ∀ j, j < s.heapCount → itemAt (heapItems s ++ [n]) j = itemAt (heapItems s) j := by
    intro j hj; simp only [itemAt]; rw [List.getElem?_append_left (by omega)]
  have hup : UpOrdered (nodeFreqAt s) (heapItems s ++ [n]) s.heapCount := by
    constructor
    · intro j hj hj0 hjk
      simp only [List.length_append, List.length_singleton] at hj
      rw [hat j (by omega), hat _ (by omega)]
      exact hord j (by omega) hj0
    · intro j hj hj0 hjk hk
      simp only [List.length_append, List.length_singleton] at hj
      omega
  obtain ⟨h', e, d2, p, o⟩ := siftUp_spec (keyOf := nodeKey s) (key := nodeFreqAt s) (n := s.heapCount + 1)
    (size := s.config.heapMax) (by omega) s.heapCount (cellsSet s.heap s.heapCount n) s.heapCount d1 (by omega) le_rfl
    (by rw [hv]; exact hkeys) (by rw [hv]; exact hup)
  rw [hv] at p
  refine ⟨h', ?_, p.trans (List.perm_append_comm.trans (by simp)), ?_⟩
  · simp only [enqueue, arrayWrite_ok_iff.2 ⟨hroom, rfl⟩, e, ok_bind]
  · refine ⟨d2, ?_, (heapOrdered_iff (s := { s with heap := h', heapCount := s.heapCount + 1 }) d2).2 o⟩
    intro x hx
    exact hkeys x (p.mem_iff.1 hx)

/-- Dequeue on a heap that is not empty (R213, R216): it ends with an item of the smallest key, the queue holds the
other items, and it is a heap. -/
theorem dequeue_spec {s : State} (hq : IsQueue s) (hpos : 0 < s.heapCount) (hsize : s.heapCount ≤ s.config.heapMax) :
    ∃ x h', dequeue s = .ok (x, { s with heap := h', heapCount := s.heapCount - 1 }) ∧
      x = heapItem s 0 ∧ (∀ y ∈ heapItems s, nodeFreqAt s x ≤ nodeFreqAt s y) ∧
      (x :: cellsValues h').Perm (heapItems s) ∧ IsQueue { s with heap := h', heapCount := s.heapCount - 1 } := by
  have hlen : (heapItems s).length = s.heapCount := cellsDense_length hq.dense
  have hord := (heapOrdered_iff hq.dense).1 hq.ordered
  have rtop : arrayRead .heap s.config.heapMax s.heap 0 = .ok (itemAt (heapItems s) 0) :=
    arrayRead_ok_iff.2 ⟨by omega, cellsGet_itemAt hq.dense hpos⟩
  obtain ⟨m, hm⟩ : ∃ m, s.heapCount = m + 1 := ⟨s.heapCount - 1, by omega⟩
  have hd : cellsDense s.heap (m + 1) := hm ▸ hq.dense
  have hmin : ∀ y ∈ heapItems s, nodeFreqAt s (itemAt (heapItems s) 0) ≤ nodeFreqAt s y := fun y hy => hord.root_min hy
  by_cases h0 : m = 0
  · subst h0
    obtain ⟨d1, v1⟩ := cellsDense_erase_last hd
    have hnil : cellsErase s.heap 0 = [] := by
      have := congrArg List.length d1
      simpa using this
    refine ⟨itemAt (heapItems s) 0, cellsErase s.heap 0, ?_, (heapItem_eq hq.dense 0).symm, hmin, ?_, ?_⟩
    · simp [dequeue, hm, rtop]
    · rw [hnil]
      obtain ⟨y, hy⟩ := List.length_eq_one_iff.1 (hlen.trans hm)
      simp [hy, itemAt, cellsValues]
    · rw [hnil, hm]
      exact ⟨by simp [cellsDense], by simp [heapItems, cellsValues], fun k hk => by simp at hk⟩
  · have rlast : arrayRead .heap s.config.heapMax s.heap m = .ok (itemAt (heapItems s) m) :=
      arrayRead_ok_iff.2 ⟨by omega, cellsGet_itemAt hq.dense (by omega)⟩
    obtain ⟨d1, v1⟩ := cellsDense_set hd (k := 0) (by omega) (itemAt (heapItems s) m)
    obtain ⟨d2, v2⟩ := cellsDense_erase_last d1
    have hv : cellsValues (cellsErase (cellsSet s.heap 0 (itemAt (heapItems s) m)) m) =
        ((heapItems s).set 0 (itemAt (heapItems s) m)).dropLast := by rw [v2, v1]; rfl
    have hperm : (itemAt (heapItems s) 0 :: ((heapItems s).set 0 (itemAt (heapItems s) m)).dropLast).Perm
        (heapItems s) := by
      have hne : (heapItems s).set 0 (itemAt (heapItems s) m) ≠ [] := by
        intro h; have := congrArg List.length h; simp [hlen, hm] at this
      have hsw := swap_perm (l := heapItems s) (i := 0) (j := m) (by omega) (by omega)
      have hlast : ((heapItems s).set 0 (itemAt (heapItems s) m)).set m (itemAt (heapItems s) 0) =
          ((heapItems s).set 0 (itemAt (heapItems s) m)).dropLast ++ [itemAt (heapItems s) 0] := by
        conv_lhs => rw [← List.dropLast_append_getLast hne]
        rw [List.set_append_right _ _ (by simp [hlen, hm])]
        simp [hlen, hm]
      rw [hlast] at hsw
      exact (List.perm_append_comm (l₁ := [_])).trans hsw
    have hkeys : ∀ x ∈ ((heapItems s).set 0 (itemAt (heapItems s) m)).dropLast, nodeKey s x = .ok (nodeFreqAt s x) :=
      fun x hx => hq.keys x (hperm.mem_iff.1 (List.mem_cons_of_mem _ hx))
    have hat : ∀ j, 0 < j → j < m → itemAt ((heapItems s).set 0 (itemAt (heapItems s) m)).dropLast j =
        itemAt (heapItems s) j := by
      intro j hj0 hj
      unfold itemAt
      rw [List.getElem?_dropLast, if_pos (by simp [hlen, hm]; omega), List.getElem?_set_ne (by omega)]
    have hdown : DownOrdered (nodeFreqAt s) ((heapItems s).set 0 (itemAt (heapItems s) m)).dropLast 0 := by
      constructor
      · intro j hj hj0 hjk
        simp only [List.length_dropLast, List.length_set] at hj
        rw [hat j hj0 (by omega), hat _ (by omega) (by omega)]
        exact hord j (by omega) hj0
      · intro j _ _ _ h; omega
    obtain ⟨h', e, d3, p, o⟩ := siftDown_spec (keyOf := nodeKey s) (key := nodeFreqAt s) (n := m)
      (size := s.config.heapMax) (by omega) m (cellsErase (cellsSet s.heap 0 (itemAt (heapItems s) m)) m) 0 d2 (by omega)
      (by omega) (by rw [hv]; exact hkeys) (by rw [hv]; exact hdown)
    rw [hv] at p
    refine ⟨itemAt (heapItems s) 0, h', ?_, (heapItem_eq hq.dense 0).symm, hmin, (p.cons _).trans hperm, ?_⟩
    · have : s.heapCount - 1 = m := by omega
      simp only [dequeue, this, rtop, rlast, e, ok_bind]
      rw [if_neg (by omega), if_neg h0]
    · have hm' : s.heapCount - 1 = m := by omega
      rw [hm']
      refine ⟨d3, ?_, (heapOrdered_iff (s := { s with heap := h', heapCount := m }) d3).2 o⟩
      intro x hx
      exact hkeys x (p.mem_iff.1 hx)

end Sys2Proof.Machine
end

