-- ==== Sys2Proof/Laws/HeapPath.lean ====
section
/-! SUPPORT. The exact layout that the loops of Enqueue and Dequeue leave (`42_priority_queue.md` R212, R213, R217), ties
included. No heap order is needed. -/

namespace Sys2Proof.Machine

theorem turn_succ (next : Nat → Nat) (k i : Nat) : turn next (next k) i = turn next k (i + 1) := by
  induction i with
  | zero => rfl
  | succ i ih => exact congrArg next ih

/-- A swap of a path's first two positions, and then a move along the rest, is a move along the whole path. -/
theorem MovedAlong.of_swap {old new : List Nat} {pos : Nat → Nat} {m x : Nat} (hlen : new.length = old.length)
    (h0 : pos 0 < old.length) (h1 : pos 1 < old.length) (hk : ∀ i ≤ m, pos (i + 1) ≠ pos 0)
    (hp : ∀ i, 0 < i → i ≤ m → pos (i + 1) ≠ pos 1)
    (h : MovedAlong ((old.set (pos 0) (itemAt old (pos 1))).set (pos 1) (itemAt old (pos 0))) new
      (fun i => pos (i + 1)) m x) :
    MovedAlong old new pos (m + 1) x := by
  obtain ⟨hx, hmove, hstay⟩ := h
  have hsw := itemAt_swap h0 h1 (itemAt old (pos 0)) (itemAt old (pos 1))
  refine ⟨hx, ?_, ?_⟩
  · intro i hi
    cases i with
    | zero =>
      rw [hstay (pos 0) (by omega) (fun i hi => (hk i hi).symm), hsw, if_neg (hk 0 (by omega)).symm, if_pos rfl]
    | succ i =>
      rw [hmove i (by omega), hsw, if_neg (hp (i + 1) (by omega) (by omega)), if_neg (hk (i + 1) (by omega))]
  · intro k hkl hne
    rw [hstay k hkl (fun i hi => hne (i + 1) (by omega)), hsw, if_neg (hne 1 (by omega)), if_neg (hne 0 (by omega))]

/-! ## Sift-up (R212) -/

theorem parentAt_lt {k : Nat} (h : 0 < k) : parentAt k < k := by unfold parentAt; omega

theorem parentAt_le (k : Nat) : parentAt k ≤ k := by unfold parentAt; omega

theorem turn_parentAt_le (k i : Nat) : turn parentAt k i ≤ k := by
  induction i with
  | zero => exact le_rfl
  | succ i ih => exact (parentAt_le _).trans ih

/-- Sift-up moves the item at k up past every parent of strictly greater key, and no further (R212). -/
theorem siftUp_path {size : Nat} {keyOf : Nat → Except Fault Nat} {key : Nat → Nat} {n : Nat} (hn : n ≤ size) :
    ∀ (fuel : Nat) (h : Cells Nat) (k : Nat) (h' : Cells Nat), cellsDense h n → k < n → k ≤ fuel →
      (∀ x ∈ cellsValues h, keyOf x = .ok (key x)) → siftUp size keyOf fuel h k = .ok h' →
      cellsDense h' n ∧ ∃ m, MovedAlong (cellsValues h) (cellsValues h') (turn parentAt k) m (itemAt (cellsValues h) k) ∧
        (∀ i < m, 0 < turn parentAt k i ∧
          key (itemAt (cellsValues h) k) < key (itemAt (cellsValues h) (turn parentAt k (i + 1)))) ∧
        (turn parentAt k m = 0 ∨
          key (itemAt (cellsValues h) (turn parentAt k (m + 1))) ≤ key (itemAt (cellsValues h) k)) := by
  intro fuel
  have stay : ∀ (h : Cells Nat) (k : Nat), MovedAlong (cellsValues h) (cellsValues h) (turn parentAt k) 0
      (itemAt (cellsValues h) k) :=
    fun h k => ⟨rfl, fun i hi => absurd hi (Nat.not_lt_zero i), fun _ _ _ => rfl⟩
  induction fuel with
  | zero =>
    intro h k h' hd _ hf _ e
    cases e
    exact ⟨hd, 0, stay h k, fun i hi => absurd hi (Nat.not_lt_zero i), .inl (by simp only [turn]; omega)⟩
  | succ fuel ih =>
    intro h k h' hd hk hf hkey e
    have hlen := cellsDense_length hd
    by_cases hk0 : k = 0
    · subst hk0
      simp only [siftUp, if_true, Except.ok.injEq] at e
      subst e
      exact ⟨hd, 0, stay h 0, fun i hi => absurd hi (Nat.not_lt_zero i), .inl rfl⟩
    · have hp : (k - 1) / 2 < n := by omega
      have ra : arrayRead .heap size h ((k - 1) / 2) = .ok (itemAt (cellsValues h) ((k - 1) / 2)) :=
        arrayRead_ok_iff.2 ⟨by omega, cellsGet_itemAt hd hp⟩
      have ri : arrayRead .heap size h k = .ok (itemAt (cellsValues h) k) :=
        arrayRead_ok_iff.2 ⟨by omega, cellsGet_itemAt hd hk⟩
      have ka := hkey _ (itemAt_mem (l := cellsValues h) (j := (k - 1) / 2) (by omega))
      have ki := hkey _ (itemAt_mem (l := cellsValues h) (j := k) (by omega))
      simp only [siftUp, hk0, if_false, ra, ri, ka, ki, ok_bind] at e
      split_ifs at e with hlt
      · obtain ⟨h1, h2⟩ := heapSwap_dense hd hp hk (itemAt (cellsValues h) ((k - 1) / 2)) (itemAt (cellsValues h) k)
        have hsw := itemAt_swap (l := cellsValues h) (i := (k - 1) / 2) (j := k) (by omega) (by omega)
          (itemAt (cellsValues h) ((k - 1) / 2)) (itemAt (cellsValues h) k)
        have hperm : (cellsValues (heapSwap h ((k - 1) / 2) (itemAt (cellsValues h) ((k - 1) / 2)) k
            (itemAt (cellsValues h) k))).Perm (cellsValues h) := by
          rw [h2]; exact swap_perm (by omega) (by omega)
        obtain ⟨d, m, hm, hup, hstop⟩ := ih _ ((k - 1) / 2) h' h1 hp (by omega)
          (fun x hx => hkey x (hperm.mem_iff.1 hx)) e
        rw [h2] at hm hup hstop
        have hx : itemAt (((cellsValues h).set ((k - 1) / 2) (itemAt (cellsValues h) k)).set k
            (itemAt (cellsValues h) ((k - 1) / 2))) ((k - 1) / 2) = itemAt (cellsValues h) k := by
          rw [hsw, if_neg (by omega), if_pos rfl]
        have hpos : ∀ i, turn parentAt ((k - 1) / 2) i = turn parentAt k (i + 1) := turn_succ parentAt k
        have hle : ∀ i, turn parentAt k (i + 1) ≤ (k - 1) / 2 := fun i => hpos i ▸ turn_parentAt_le _ i
        have hless : ∀ i, 0 < i → i ≤ m → turn parentAt k (i + 1) < (k - 1) / 2 := by
          intro i hi him
          obtain ⟨i, rfl⟩ : ∃ j, i = j + 1 := ⟨i - 1, by omega⟩
          have := (hup i (by omega)).1
          rw [hpos] at this
          exact (parentAt_lt this).trans_le (hle i)
        have hother : ∀ i, turn parentAt k (i + 1) < (k - 1) / 2 → itemAt (((cellsValues h).set ((k - 1) / 2)
            (itemAt (cellsValues h) k)).set k (itemAt (cellsValues h) ((k - 1) / 2))) (turn parentAt k (i + 1)) =
              itemAt (cellsValues h) (turn parentAt k (i + 1)) := by
          intro i hi
          rw [hsw, if_neg (by omega), if_neg (by omega)]
        rw [hx] at hm hup hstop
        refine ⟨d, m + 1, ?_, ?_, ?_⟩
        · refine MovedAlong.of_swap (by rw [cellsDense_length d, hlen]) (by simpa [turn] using hlen ▸ hk)
            (by simpa [turn, parentAt] using hlen ▸ hp) (fun i _ => ?_) (fun i hi him => ?_) ?_
          · have := hle i
            show turn parentAt k (i + 1) ≠ k
            omega
          · exact (hless i hi him).ne
          · have hc : ((cellsValues h).set ((k - 1) / 2) (itemAt (cellsValues h) k)).set k
                (itemAt (cellsValues h) ((k - 1) / 2)) =
                ((cellsValues h).set k (itemAt (cellsValues h) ((k - 1) / 2))).set ((k - 1) / 2)
                (itemAt (cellsValues h) k) := List.set_comm _ _ (by omega)
            rw [hc] at hm
            have hf : turn parentAt ((k - 1) / 2) = fun i => turn parentAt k (i + 1) := funext hpos
            rw [hf] at hm
            exact hm
        · intro i hi
          cases i with
          | zero => exact ⟨by simp only [turn]; omega, hlt⟩
          | succ i =>
            have h3 := hup i (by omega)
            rw [hpos, hpos, hother (i + 1) ((parentAt_lt (hpos i ▸ h3.1)).trans_le (hle i))] at h3
            exact h3
        · rw [hpos, hpos] at hstop
          rcases Nat.eq_zero_or_pos (turn parentAt k (m + 1)) with h0 | h0
          · exact .inl h0
          · rcases hstop with h3 | h3
            · exact .inl h3
            · rw [hother (m + 1) ((parentAt_lt h0).trans_le (hle m))] at h3
              exact .inr h3
      · cases e
        exact ⟨hd, 0, stay h k, fun i hi => absurd hi (Nat.not_lt_zero i), .inr (by simp only [turn, parentAt]; omega)⟩

/-! ## Sift-down (R213) -/

theorem lesserChild_gt (key : Nat → Nat) (l : List Nat) (n k : Nat) : k < lesserChild key l n k := by
  unfold lesserChild; split_ifs <;> omega

theorem turn_lesserChild_ge (key : Nat → Nat) (l : List Nat) (n k i : Nat) : k + i ≤ turn (lesserChild key l n) k i := by
  induction i with
  | zero => exact le_rfl
  | succ i ih => exact (show k + i + 1 ≤ _ from ih.trans_lt (lesserChild_gt key l n _))

/-- The path from a position on depends on the items after it alone. -/
theorem turn_lesserChild_congr {key : Nat → Nat} {l l' : List Nat} {n k : Nat}
    (h : ∀ j, k < j → j < n → itemAt l' j = itemAt l j) (i : Nat) :
    turn (lesserChild key l' n) k i = turn (lesserChild key l n) k i := by
  induction i with
  | zero => rfl
  | succ i ih =>
    have hge := turn_lesserChild_ge key l n k i
    simp only [turn, ih]
    generalize turn (lesserChild key l n) k i = q at hge
    unfold lesserChild
    by_cases h2 : 2 * q + 2 < n
    · rw [h _ (by omega) h2, h _ (by omega) (by omega)]
    · rw [if_neg (fun h3 => h2 h3.1), if_neg (fun h3 => h2 h3.1)]

/-- The child that sift-down compares against is the lesser child (R213). -/
theorem smallerChild_eq {size : Nat} {keyOf : Nat → Except Fault Nat} {key : Nat → Nat} {n : Nat} (hn : n ≤ size)
    {h : Cells Nat} (hd : cellsDense h n) (hkey : ∀ x ∈ cellsValues h, keyOf x = .ok (key x)) (k : Nat) :
    smallerChild size keyOf h n k = .ok (lesserChild key (cellsValues h) n k) := by
  have hlen := cellsDense_length hd
  unfold smallerChild lesserChild
  by_cases hr : 2 * k + 2 < n
  · have rl : arrayRead .heap size h (2 * k + 1) = .ok (itemAt (cellsValues h) (2 * k + 1)) :=
      arrayRead_ok_iff.2 ⟨by omega, cellsGet_itemAt hd (by omega)⟩
    have rr : arrayRead .heap size h (2 * k + 2) = .ok (itemAt (cellsValues h) (2 * k + 2)) :=
      arrayRead_ok_iff.2 ⟨by omega, cellsGet_itemAt hd hr⟩
    have kl := hkey _ (itemAt_mem (l := cellsValues h) (j := 2 * k + 1) (by omega))
    have kr := hkey _ (itemAt_mem (l := cellsValues h) (j := 2 * k + 2) (by omega))
    simp only [hr, if_true, rl, rr, kl, kr, ok_bind, true_and]
    split_ifs <;> rfl
  · simp [hr]

/-- Sift-down moves the item at k down past every lesser child of strictly smaller key, and no further (R213). -/
theorem siftDown_path {size : Nat} {keyOf : Nat → Except Fault Nat} {key : Nat → Nat} {n : Nat} (hn : n ≤ size) :
    ∀ (fuel : Nat) (h : Cells Nat) (k : Nat) (h' : Cells Nat), cellsDense h n → k < n → n ≤ fuel + k →
      (∀ x ∈ cellsValues h, keyOf x = .ok (key x)) → siftDown size keyOf n fuel h k = .ok h' →
      cellsDense h' n ∧ ∃ m, MovedAlong (cellsValues h) (cellsValues h') (turn (lesserChild key (cellsValues h) n) k) m
          (itemAt (cellsValues h) k) ∧
        (∀ i < m, 2 * turn (lesserChild key (cellsValues h) n) k i + 1 < n ∧
          key (itemAt (cellsValues h) (turn (lesserChild key (cellsValues h) n) k (i + 1))) <
            key (itemAt (cellsValues h) k)) ∧
        (n ≤ 2 * turn (lesserChild key (cellsValues h) n) k m + 1 ∨
          key (itemAt (cellsValues h) k) ≤
            key (itemAt (cellsValues h) (turn (lesserChild key (cellsValues h) n) k (m + 1)))) := by
  intro fuel
  induction fuel with
  | zero => intro h k h' _ hk hf; omega
  | succ fuel ih =>
    intro h k h' hd hk hf hkey e
    have hlen := cellsDense_length hd
    have stay : MovedAlong (cellsValues h) (cellsValues h) (turn (lesserChild key (cellsValues h) n) k) 0
        (itemAt (cellsValues h) k) :=
      ⟨rfl, fun i hi => absurd hi (Nat.not_lt_zero i), fun _ _ _ => rfl⟩
    by_cases hleaf : n ≤ 2 * k + 1
    · simp only [siftDown, hleaf, if_true, Except.ok.injEq] at e
      subst e
      exact ⟨hd, 0, stay, fun i hi => absurd hi (Nat.not_lt_zero i), .inl hleaf⟩
    · have hck := lesserChild_gt key (cellsValues h) n k
      have hc : lesserChild key (cellsValues h) n k < n := by unfold lesserChild; split_ifs <;> omega
      have hsmall := smallerChild_eq hn hd hkey k
      have hturn : ∀ i, turn (lesserChild key (cellsValues h) n) (lesserChild key (cellsValues h) n k) i =
          turn (lesserChild key (cellsValues h) n) k (i + 1) := turn_succ _ k
      have hc1 : turn (lesserChild key (cellsValues h) n) k 1 = lesserChild key (cellsValues h) n k := rfl
      generalize lesserChild key (cellsValues h) n k = c at *
      have rc : arrayRead .heap size h c = .ok (itemAt (cellsValues h) c) :=
        arrayRead_ok_iff.2 ⟨by omega, cellsGet_itemAt hd hc⟩
      have ri : arrayRead .heap size h k = .ok (itemAt (cellsValues h) k) :=
        arrayRead_ok_iff.2 ⟨by omega, cellsGet_itemAt hd hk⟩
      have kc := hkey _ (itemAt_mem (l := cellsValues h) (j := c) (by omega))
      have ki := hkey _ (itemAt_mem (l := cellsValues h) (j := k) (by omega))
      simp only [siftDown, hleaf, if_false, hsmall, rc, ri, kc, ki, ok_bind] at e
      split_ifs at e with hlt
      · obtain ⟨h1, h2⟩ := heapSwap_dense hd hc hk (itemAt (cellsValues h) c) (itemAt (cellsValues h) k)
        have hsw := itemAt_swap (l := cellsValues h) (i := c) (j := k) (by omega) (by omega)
          (itemAt (cellsValues h) c) (itemAt (cellsValues h) k)
        have hperm : (cellsValues (heapSwap h c (itemAt (cellsValues h) c) k (itemAt (cellsValues h) k))).Perm
            (cellsValues h) := by
          rw [h2]; exact swap_perm (by omega) (by omega)
        obtain ⟨d, m, hm, hdown, hstop⟩ := ih _ c h' h1 hc (by omega) (fun x hx => hkey x (hperm.mem_iff.1 hx)) e
        rw [h2] at hm hdown hstop
        have hafter : ∀ j, c < j → itemAt (((cellsValues h).set c (itemAt (cellsValues h) k)).set k
            (itemAt (cellsValues h) c)) j = itemAt (cellsValues h) j := by
          intro j hj; rw [hsw, if_neg (by omega), if_neg (by omega)]
        have hx : itemAt (((cellsValues h).set c (itemAt (cellsValues h) k)).set k (itemAt (cellsValues h) c)) c =
            itemAt (cellsValues h) k := by rw [hsw, if_neg (by omega), if_pos rfl]
        have hpos : ∀ i, turn (lesserChild key (((cellsValues h).set c (itemAt (cellsValues h) k)).set k
            (itemAt (cellsValues h) c)) n) c i = turn (lesserChild key (cellsValues h) n) k (i + 1) := by
          intro i
          rw [← hturn]
          exact turn_lesserChild_congr (fun j hj _ => hafter j hj) i
        have hge : ∀ i, c + i ≤ turn (lesserChild key (cellsValues h) n) k (i + 1) := by
          intro i; rw [← hturn]; exact turn_lesserChild_ge _ _ _ _ _
        rw [hx] at hm hdown hstop
        refine ⟨d, m + 1, ?_, ?_, ?_⟩
        · refine MovedAlong.of_swap (by rw [cellsDense_length d, hlen]) (by simpa [turn] using hlen ▸ hk)
            (by rw [hc1, hlen]; exact hc) (fun i _ => ?_) (fun i hi _ => ?_) ?_
          · have := hge i
            show turn (lesserChild key (cellsValues h) n) k (i + 1) ≠ k
            omega
          · have := hge i
            rw [hc1]; omega
          · have hs : ((cellsValues h).set c (itemAt (cellsValues h) k)).set k (itemAt (cellsValues h) c) =
                ((cellsValues h).set k (itemAt (cellsValues h) c)).set c (itemAt (cellsValues h) k) :=
              List.set_comm _ _ (by omega)
            rw [funext hpos, hs] at hm
            rw [hc1]
            exact hm
        · intro i hi
          cases i with
          | zero =>
            refine ⟨by simp only [turn]; omega, ?_⟩
            rw [hc1]; exact hlt
          | succ i =>
            have h3 := hdown i (by omega)
            rw [hpos, hpos, hafter _ (by have := hge (i + 1); omega)] at h3
            exact h3
        · rw [hpos, hpos, hafter _ (by have := hge (m + 1); omega)] at hstop
          exact hstop
      · cases e
        refine ⟨hd, 0, stay, fun i hi => absurd hi (Nat.not_lt_zero i), .inr ?_⟩
        rw [hc1]; omega

/-! ## Enqueue and Dequeue -/

/-- The layout Enqueue leaves (R212). -/
theorem enqueue_path {n : Nat} {s t : State} (hq : IsQueue s) (hroom : s.heapCount < s.config.heapMax)
    (hn : nodeKey s n = .ok (nodeFreqAt s n)) (e : enqueue n s = .ok t) :
    Enqueued (nodeFreqAt s) (heapItems s) n (heapItems t) := by
  obtain ⟨h1, e1, e⟩ := bind_eq_ok.1 e
  obtain ⟨h2, e2, e⟩ := bind_eq_ok.1 e
  cases e
  obtain ⟨_, rfl⟩ := arrayWrite_ok_iff.1 e1
  obtain ⟨d, v⟩ := cellsDense_append hq.dense n
  have hlen : (heapItems s).length = s.heapCount := cellsDense_length hq.dense
  have hv : cellsValues (cellsSet s.heap s.heapCount n) = heapItems s ++ [n] := v
  have hx : itemAt (heapItems s ++ [n]) s.heapCount = n := by simp [itemAt, ← hlen]
  have hold : ∀ j, j < s.heapCount → itemAt (heapItems s ++ [n]) j = itemAt (heapItems s) j := by
    intro j hj; simp only [itemAt, List.getElem?_append_left (hlen ▸ hj)]
  obtain ⟨d', m, hm, hup, hstop⟩ := siftUp_path (key := nodeFreqAt s) (by omega) _ _ _ _ d (by omega) le_rfl (by
    intro x hx
    rw [hv] at hx
    rcases List.mem_append.1 hx with hx | hx
    · exact hq.keys x hx
    · rw [List.mem_singleton.1 hx]; exact hn) e2
  rw [hv, hx] at hm hup hstop
  have hlen' : (cellsValues h2).length = s.heapCount + 1 := cellsDense_length d'
  have hlt : ∀ i, 0 < turn parentAt s.heapCount i → turn parentAt s.heapCount (i + 1) < s.heapCount :=
    fun i hi => (parentAt_lt hi).trans_le (turn_parentAt_le _ i)
  refine ⟨by rw [hlen]; exact hlen', m, ?_⟩
  rw [hlen]
  refine ⟨⟨hm.1, ?_, ?_⟩, ?_, ?_⟩
  · intro i hi
    rw [← hold _ (hlt i (hup i hi).1)]; exact hm.2.1 i hi
  · intro k hk hne
    have h0 : k ≠ s.heapCount := hne 0 (Nat.zero_le m)
    have hk' : k < (cellsValues h2).length := hk
    rw [← hold k (by omega)]; exact hm.2.2 k hk hne
  · intro i hi
    have h3 := hup i hi
    rw [hold _ (hlt i h3.1)] at h3
    exact h3
  · rcases Nat.eq_zero_or_pos (turn parentAt s.heapCount m) with h0 | h0
    · exact .inl h0
    · rcases hstop with h3 | h3
      · exact .inl h3
      · rw [hold _ (hlt m h0)] at h3
        exact .inr h3

/-- The layout depends on the keys of the items alone. -/
theorem Enqueued.congr {key key' : Nat → Nat} {old new : List Nat} {n : Nat} (h : Enqueued key old n new)
    (hn : key' n = key n) (hk : ∀ x ∈ old, key' x = key x) : Enqueued key' old n new := by
  obtain ⟨hlen, m, hm, hup, hstop⟩ := h
  have hitem : ∀ i, 0 < turn parentAt old.length i → key' (itemAt old (turn parentAt old.length (i + 1))) =
      key (itemAt old (turn parentAt old.length (i + 1))) :=
    fun i hi => hk _ (itemAt_mem ((parentAt_lt hi).trans_le (turn_parentAt_le _ i)))
  refine ⟨hlen, m, hm, fun i hi => ?_, ?_⟩
  · rw [hn, hitem i (hup i hi).1]; exact hup i hi
  · rcases Nat.eq_zero_or_pos (turn parentAt old.length m) with h0 | h0
    · exact .inl h0
    · rw [hn, hitem m h0]; exact hstop

/-- The layout Dequeue leaves (R213). -/
theorem dequeue_path {x : Nat} {s t : State} (hq : IsQueue s) (hsize : s.heapCount ≤ s.config.heapMax)
    (e : dequeue s = .ok (x, t)) : Dequeued (nodeFreqAt s) (heapItems s) (heapItems t) := by
  have hlen : (heapItems s).length = s.heapCount := cellsDense_length hq.dense
  have hpos := (dequeue_frame e).1
  obtain ⟨m, hm⟩ : ∃ m, s.heapCount = m + 1 := ⟨s.heapCount - 1, by omega⟩
  have hd : cellsDense s.heap (m + 1) := hm ▸ hq.dense
  unfold dequeue at e
  rw [if_neg (by omega)] at e
  obtain ⟨top, _, e⟩ := bind_eq_ok.1 e
  simp only [show s.heapCount - 1 = m by omega] at e
  split_ifs at e with h0
  · cases e
    obtain ⟨d1, _⟩ := cellsDense_erase_last hd
    have hl : (cellsValues (cellsErase s.heap m)).length = m := cellsDense_length d1
    exact ⟨by rw [hlen, hm]; exact congrArg (· + 1) hl, fun h => by
      have : 0 < (cellsValues (cellsErase s.heap m)).length := h
      omega⟩
  · obtain ⟨last, elast, e⟩ := bind_eq_ok.1 e
    obtain ⟨h', e2, e⟩ := bind_eq_ok.1 e
    cases e
    have hlast : last = itemAt (heapItems s) m := by
      have := (arrayRead_ok_iff.1 elast).2
      rw [cellsGet_itemAt hq.dense (by omega)] at this
      exact (Option.some.inj this).symm
    obtain ⟨d1, v1⟩ := cellsDense_set hd (k := 0) (by omega) last
    obtain ⟨d2, v2⟩ := cellsDense_erase_last d1
    have hv : cellsValues (cellsErase (cellsSet s.heap 0 last) m) = ((heapItems s).set 0 last).dropLast := by
      rw [v2, v1]; rfl
    have hat : ∀ j, j < m → itemAt ((heapItems s).set 0 last).dropLast j =
        if j = 0 then last else itemAt (heapItems s) j := by
      intro j hj
      unfold itemAt
      rw [List.getElem?_dropLast, if_pos (by simp [hlen, hm]; omega)]
      split_ifs with hj0
      · subst hj0; simp [hlen, hm]
      · rw [List.getElem?_set_ne (by omega)]
    have hsub : ∀ y ∈ ((heapItems s).set 0 last).dropLast, y ∈ heapItems s := by
      intro y hy
      rcases List.mem_or_eq_of_mem_set (List.mem_of_mem_dropLast hy) with h | h
      · exact h
      · rw [h, hlast]; exact itemAt_mem (by omega)
    obtain ⟨d', n, hn, hdown, hstop⟩ := siftDown_path (key := nodeFreqAt s) (by omega) _ _ _ _ d2 (by omega) (by omega)
      (fun y hy => hq.keys y (hsub y (hv ▸ hy))) e2
    have hturn : ∀ i, turn (lesserChild (nodeFreqAt s) ((heapItems s).set 0 last).dropLast m) 0 i =
        turn (lesserChild (nodeFreqAt s) (heapItems s) m) 0 i :=
      turn_lesserChild_congr (fun j hj hjm => by rw [hat j hjm, if_neg (by omega)])
    rw [hv, hat 0 (by omega), if_pos rfl, funext hturn] at hn hdown hstop
    have hl : (cellsValues h').length = m := cellsDense_length d'
    have hge : ∀ i, i ≤ turn (lesserChild (nodeFreqAt s) (heapItems s) m) 0 i := fun i => by
      simpa using turn_lesserChild_ge (nodeFreqAt s) (heapItems s) m 0 i
    have hnext : ∀ i, 2 * turn (lesserChild (nodeFreqAt s) (heapItems s) m) 0 i + 1 < m →
        turn (lesserChild (nodeFreqAt s) (heapItems s) m) 0 (i + 1) < m := by
      intro i hi
      simp only [turn]
      generalize turn (lesserChild (nodeFreqAt s) (heapItems s) m) 0 i = q at hi
      unfold lesserChild; split_ifs <;> omega
    have hitem : ∀ i, 2 * turn (lesserChild (nodeFreqAt s) (heapItems s) m) 0 i + 1 < m →
        itemAt ((heapItems s).set 0 last).dropLast (turn (lesserChild (nodeFreqAt s) (heapItems s) m) 0 (i + 1)) =
          itemAt (heapItems s) (turn (lesserChild (nodeFreqAt s) (heapItems s) m) 0 (i + 1)) := by
      intro i hi
      rw [hat _ (hnext i hi), if_neg (by have := hge (i + 1); omega)]
    have hi : heapItems { s with heap := h', heapCount := m } = cellsValues h' := rfl
    rw [hi]
    refine ⟨by rw [hlen, hm, hl], fun _ => ⟨n, ?_⟩⟩
    rw [hl, ← hlast]
    refine ⟨⟨hn.1, ?_, ?_⟩, ?_, ?_⟩
    · intro i hin
      rw [← hitem i (hdown i hin).1]; exact hn.2.1 i hin
    · intro k hk hne
      have hk0 : k ≠ 0 := hne 0 (Nat.zero_le n)
      have := hn.2.2 k hk hne
      rw [hat k (by omega), if_neg hk0] at this
      exact this
    · intro i hin
      have h3 := hdown i hin
      rw [hitem i h3.1] at h3
      exact h3
    · rcases Nat.lt_or_ge (2 * turn (lesserChild (nodeFreqAt s) (heapItems s) m) 0 n + 1) m with h3 | h3
      · rcases hstop with h4 | h4
        · omega
        · rw [hitem n h3] at h4
          exact .inr h4
      · exact .inl h3

end Sys2Proof.Machine
end

