-- ==== Sys2Proof/Laws/Table.lean ====
section
/-! SUPPORT. The frequency table (`41_frequency.md`): a count written, and the ORDER primitives (R182) said of the
list of symbols. -/

namespace Sys2Proof.Machine

/-! ## FREQ -/

@[simp] theorem freqRead_freqWrite (s : State) (x c y : Nat) :
    freqRead (freqWrite s x c) y = if y = x then c else freqRead s y := cellsAt_put 0 s.freq x y c

theorem freqRead_congr {s t : State} (h : t.freq = s.freq) : freqRead t = freqRead s := by
  funext x; simp [freqRead, h]

theorem sum_update {f g : Nat → Nat} {x : Nat} (h : ∀ y, y ≠ x → g y = f y) :
    ∀ n, x < n → ((List.range n).map g).sum + f x = ((List.range n).map f).sum + g x := by
  intro n
  induction n with
  | zero => intro hx; omega
  | succ n ih =>
    intro hx
    simp only [List.range_succ, List.map_append, List.sum_append, List.map_cons, List.map_nil, List.sum_cons, List.sum_nil,
      Nat.add_zero]
    by_cases hxn : x = n
    · subst hxn
      have : (List.range x).map g = (List.range x).map f :=
        List.map_congr_left (fun y hy => h y (by have := List.mem_range.1 hy; omega))
      rw [this]; omega
    · have := ih (by omega)
      rw [h n (fun e => hxn e.symm)]
      omega

/-- The sum of the counts after one is written (R38). -/
theorem freqSum_freqWrite {s : State} {x : Nat} (c : Nat) (hx : x < s.config.dMax) :
    freqSum (freqWrite s x c) + freqRead s x = freqSum s + c := by
  have := sum_update (f := freqRead s) (g := freqRead (freqWrite s x c)) (x := x)
    (fun y hy => by simp [hy]) s.config.dMax hx
  simpa [freqSum] using this

theorem freqRead_le_freqSum (s : State) {x : Nat} (hx : x < s.config.dMax) : freqRead s x ≤ freqSum s := by
  have := freqSum_freqWrite (s := s) 0 hx
  omega

theorem mem_presentSymbols {s : State} {x : Nat} :
    x ∈ presentSymbols s ↔ x < s.config.dMax ∧ 0 < freqRead s x := by
  simp [presentSymbols]

theorem presentSymbols_nodup (s : State) : (presentSymbols s).Nodup := List.nodup_range.filter _

theorem presentSymbols_length_le (s : State) : (presentSymbols s).length ≤ s.config.dMax := by
  have := List.length_filter_le (fun x => decide (0 < freqRead s x)) (List.range s.config.dMax)
  simpa [presentSymbols] using this

theorem presentSymbols_length_lt {s : State} {x : Nat} (hx : x < s.config.dMax) (h0 : freqRead s x = 0) :
    (presentSymbols s).length < s.config.dMax := by
  have h1 : (x :: presentSymbols s).Nodup := by
    rw [List.nodup_cons]
    exact ⟨fun h => by have := (mem_presentSymbols.1 h).2; omega, presentSymbols_nodup s⟩
  have h2 : (x :: presentSymbols s) ⊆ List.range s.config.dMax := by
    intro y hy
    rcases List.mem_cons.1 hy with rfl | hy
    · exact List.mem_range.2 hx
    · exact List.mem_range.2 (mem_presentSymbols.1 hy).1
  have := (h1.subperm h2).length_le
  simp at this
  omega

/-- A symbol that becomes present joins the present symbols, and one whose count becomes 0 leaves them (R182). -/
theorem presentSymbols_freqWrite {s : State} {x : Nat} (c : Nat) (hx : x < s.config.dMax) :
    (presentSymbols (freqWrite s x c)).Perm
      (if 0 < c then (if freqRead s x = 0 then x :: presentSymbols s else presentSymbols s)
       else (presentSymbols s).erase x) := by
  have hm : ∀ y, y ∈ presentSymbols (freqWrite s x c) ↔ y < s.config.dMax ∧ 0 < if y = x then c else freqRead s y := by
    intro y; rw [mem_presentSymbols]; simp
  have hnd := presentSymbols_nodup s
  have hrhs : (if 0 < c then (if freqRead s x = 0 then x :: presentSymbols s else presentSymbols s)
       else (presentSymbols s).erase x).Nodup := by
    split_ifs with h1 h2
    · rw [List.nodup_cons]
      exact ⟨fun h => by have := (mem_presentSymbols.1 h).2; omega, hnd⟩
    · exact hnd
    · exact hnd.erase x
  rw [List.perm_ext_iff_of_nodup (presentSymbols_nodup _) hrhs]
  intro y
  rw [hm]
  split_ifs with h1 h2 h3 <;> simp only [List.mem_cons, mem_presentSymbols, hnd.mem_erase_iff] <;>
    (constructor <;> intro h <;> simp_all <;> omega)

/-! ## ORDER (R182) -/

/-- `order_append` with room: the symbol comes last. -/
theorem orderAppend_spec {s : State} (sym : Nat) (hd : cellsDense s.order s.distinct) (hroom : s.distinct < s.config.dMax) :
    ∃ c, orderAppend sym s = .ok { s with order := c, distinct := s.distinct + 1 } ∧ cellsDense c (s.distinct + 1) ∧
      cellsValues c = orderList s ++ [sym] := by
  obtain ⟨h1, h2⟩ := cellsDense_append hd sym
  exact ⟨_, by simp [orderAppend, arrayWrite_ok_iff.2 ⟨hroom, rfl⟩], h1, h2⟩

theorem orderAppend_frame {sym : Nat} {s t : State} (h : orderAppend sym s = .ok t) :
    t = { s with order := cellsSet s.order s.distinct sym, distinct := s.distinct + 1 } ∧ s.distinct < s.config.dMax := by
  obtain ⟨c, h1, h⟩ := bind_eq_ok.1 h
  obtain ⟨h2, rfl⟩ := arrayWrite_ok_iff.1 h1
  cases h
  exact ⟨rfl, h2⟩

theorem orderPosition_spec {size : Nat} {c : Cells Nat} {sym N : Nat} (hd : cellsDense c N) (hN : N ≤ size) :
    ∀ (n k : Nat), k + n = N → sym ∈ (cellsValues c).drop k →
      orderPosition size c sym n k = .ok (k + ((cellsValues c).drop k).idxOf sym) := by
  have hlen := cellsDense_length hd
  intro n
  induction n with
  | zero =>
    intro k hk hmem
    rw [List.drop_eq_nil_of_le (by omega)] at hmem
    simp at hmem
  | succ n ih =>
    intro k hk hmem
    have hr : arrayRead .order size c k = .ok (cellsValues c)[k] := by
      rw [arrayRead_ok_iff, cellsGet_dense hd]
      exact ⟨by omega, by simp⟩
    simp only [orderPosition, hr, ok_bind]
    rw [List.drop_eq_getElem_cons (show k < (cellsValues c).length by omega)] at hmem ⊢
    split_ifs with hv
    · simp [hv]
    · rw [ih (k + 1) (by omega) ((List.mem_cons.1 hmem).resolve_left (Ne.symm hv))]
      rw [List.idxOf_cons_ne _ hv]
      congr 1; omega

theorem orderShift_spec {size N : Nat} (hN : N ≤ size) :
    ∀ (n j : Nat) (c : Cells Nat), cellsDense c N → j + n < N →
      ∃ c', orderShift size n j c = .ok c' ∧ cellsDense c' N ∧
        ∀ m, (cellsValues c')[m]? = if j ≤ m ∧ m < j + n then (cellsValues c)[m + 1]? else (cellsValues c)[m]? := by
  intro n
  induction n with
  | zero =>
    intro j c hd _
    exact ⟨c, rfl, hd, fun m => by rw [if_neg (by omega)]⟩
  | succ n ih =>
    intro j c hd hj
    have hlen := cellsDense_length hd
    have hr : arrayRead .order size c (j + 1) = .ok (cellsValues c)[j + 1] := by
      rw [arrayRead_ok_iff, cellsGet_dense hd]
      exact ⟨by omega, by simp⟩
    obtain ⟨d1, v1⟩ := cellsDense_set hd (show j < N by omega) (cellsValues c)[j + 1]
    obtain ⟨c', e, d2, v2⟩ := ih (j + 1) _ d1 (by omega)
    refine ⟨c', ?_, d2, ?_⟩
    · simp only [orderShift, hr, ok_bind, arrayWrite_ok_iff.2 ⟨show j < size by omega, rfl⟩, e]
    · intro m
      rw [v2 m, v1]
      by_cases hm : m = j
      · subst hm
        rw [if_neg (by omega), if_pos (by omega)]
        simp [show m < (cellsValues c).length by omega]
      · by_cases h1 : j + 1 ≤ m ∧ m < j + 1 + n
        · rw [if_pos h1, if_pos (by omega), List.getElem?_set_ne (by omega)]
        · rw [if_neg h1, if_neg (by omega), List.getElem?_set_ne (by omega)]

/-- `order_remove` of a listed symbol: the others keep their order. -/
theorem orderRemove_spec {s : State} {sym : Nat} (hd : cellsDense s.order s.distinct) (hN : s.distinct ≤ s.config.dMax)
    (hmem : sym ∈ orderList s) :
    ∃ c, orderRemove sym s = .ok { s with order := c, distinct := s.distinct - 1 } ∧ cellsDense c (s.distinct - 1) ∧
      cellsValues c = (orderList s).erase sym := by
  have hlen : (orderList s).length = s.distinct := cellsDense_length hd
  have hidx : (orderList s).idxOf sym < (orderList s).length := List.idxOf_lt_length_iff.2 hmem
  have hp : orderPosition s.config.dMax s.order sym s.distinct 0 = .ok ((orderList s).idxOf sym) := by
    have := orderPosition_spec (sym := sym) hd hN s.distinct 0 (by omega) hmem
    simpa [orderList] using this
  obtain ⟨c', e, d2, v2⟩ := orderShift_spec hN (s.distinct - 1 - (orderList s).idxOf sym) ((orderList s).idxOf sym)
    s.order hd (by omega)
  obtain ⟨m, hm⟩ : ∃ m, s.distinct = m + 1 := ⟨s.distinct - 1, by omega⟩
  have d2' : cellsDense c' (m + 1) := hm ▸ d2
  obtain ⟨d3, v3⟩ := cellsDense_erase_last d2'
  have hm' : s.distinct - 1 = m := by omega
  refine ⟨cellsErase c' m, ?_, by rw [hm']; exact d3, ?_⟩
  · simp only [orderRemove, hp, ok_bind, hm']
    rw [hm'] at e
    simp only [e, ok_bind]
  · rw [v3, ← List.eraseIdx_idxOf_eq_erase]
    apply List.ext_getElem?
    intro i
    have hl' : (cellsValues c').length = m + 1 := cellsDense_length d2'
    rw [List.getElem?_dropLast, v2 i, List.getElem?_eraseIdx]
    change (if _ then (if _ then (orderList s)[i + 1]? else (orderList s)[i]?) else _) = _
    by_cases hi : i < m
    · rw [if_pos (by omega)]
      by_cases hi2 : i < (orderList s).idxOf sym
      · rw [if_neg (by omega), if_pos hi2]
      · rw [if_pos (by omega), if_neg hi2]
    · rw [if_neg (by omega)]
      rw [if_neg (by omega)]
      symm
      rw [List.getElem?_eq_none_iff]; omega

theorem orderShift_sorted {size : Nat} :
    ∀ (n j : Nat) (c c' : Cells Nat), cellsSorted c → orderShift size n j c = .ok c' → cellsSorted c' := by
  intro n
  induction n with
  | zero => intro j c c' hs e; cases e; exact hs
  | succ n ih =>
    intro j c c' hs e
    obtain ⟨v, _, e⟩ := bind_eq_ok.1 e
    obtain ⟨d, h1, e⟩ := bind_eq_ok.1 e
    exact ih _ _ _ ((arrayWrite_ok_iff.1 h1).2 ▸ cellsSorted_set _ _ hs) e

theorem orderRemove_frame {sym : Nat} {s t : State} (h : orderRemove sym s = .ok t) :
    t = { s with order := t.order, distinct := s.distinct - 1 } ∧ (cellsSorted s.order → cellsSorted t.order) := by
  obtain ⟨k, _, h⟩ := bind_eq_ok.1 h
  obtain ⟨c, h1, h⟩ := bind_eq_ok.1 h
  cases h
  exact ⟨rfl, fun hs => cellsSorted_erase _ (orderShift_sorted _ _ _ _ hs h1)⟩

/-! ## What the table's invariants give -/

theorem FrequencyTable.distinct_eq {s : State} (h : FrequencyTable s) : s.distinct = (presentSymbols s).length := by
  rw [← h.2.2.1.length_eq]; exact (cellsDense_length h.2.1).symm

theorem FrequencyTable.distinct_le {s : State} (h : FrequencyTable s) : s.distinct ≤ s.config.dMax := by
  rw [FrequencyTable.distinct_eq h]; exact presentSymbols_length_le s

theorem FrequencyTable.mem_order {s : State} (h : FrequencyTable s) {x : Nat} :
    x ∈ orderList s ↔ x < s.config.dMax ∧ 0 < freqRead s x := by
  rw [h.2.2.1.mem_iff, mem_presentSymbols]

theorem FrequencyTable.freq_le_total {s : State} (h : FrequencyTable s) {x : Nat} (hx : x < s.config.dMax) :
    freqRead s x ≤ s.total := by
  rw [h.2.2.2.1]; exact freqRead_le_freqSum s hx

end Sys2Proof.Machine
end

