-- ==== Sys2Proof/Laws/Builder.lean ====
section
/-! SUPPORT. What the tree builder's sub-steps do (`43_tree_builder.md` R246, R247): their frames in every state, and
their effect on the queue and the node store. -/

namespace Sys2Proof.Machine

/-! ## Frames, in every state -/

theorem nodeWrite_frame {i : Nat} {n : NodeRecord} {s t : State} (h : nodeWrite s i n = .ok t) :
    i < s.config.nodeMax ∧ t = { s with node := cellsSet s.node i n } := by
  obtain ⟨c, h1, h⟩ := bind_eq_ok.1 h
  obtain ⟨h2, rfl⟩ := arrayWrite_ok_iff.1 h1
  cases h
  exact ⟨h2, rfl⟩

theorem nodeWrite_ok {i : Nat} {s : State} (n : NodeRecord) (h : i < s.config.nodeMax) :
    nodeWrite s i n = .ok { s with node := cellsSet s.node i n } := by
  simp [nodeWrite, arrayWrite_ok_iff.2 ⟨h, rfl⟩]

/-- The leaves' loop changes NODE, HEAP and HEAP_COUNT alone (R246, R86). -/
theorem initLeaves_frame : ∀ (n k : Nat) (s t : State), initLeaves n k s = .ok t →
    t = { s with node := t.node, heap := t.heap, heapCount := s.heapCount + n } ∧
      (cellsSorted s.node → cellsSorted t.node) ∧ (cellsSorted s.heap → cellsSorted t.heap) := by
  intro n
  induction n with
  | zero => intro k s t h; cases h; exact ⟨rfl, id, id⟩
  | succ n ih =>
    intro k s t h
    obtain ⟨sym, _, ha⟩ := bind_eq_ok.1 h
    obtain ⟨u, h1, hb⟩ := bind_eq_ok.1 ha
    obtain ⟨v, h2, hc⟩ := bind_eq_ok.1 hb
    obtain ⟨_, rfl⟩ := nodeWrite_frame h1
    have hv := enqueue_frame h2
    obtain ⟨ht, hn, hh⟩ := ih (k + 1) v t hc
    refine ⟨?_, ?_, ?_⟩
    · rw [ht, hv]; simp only [State.mk.injEq]; simp; omega
    · intro hs; apply hn; rw [hv]; exact cellsSorted_set _ _ hs
    · intro hs; exact hh (enqueue_sorted (by exact hs) h2)

/-- BUILD_INIT's body changes PHASE, NODE, NODE_COUNT, HEAP and HEAP_COUNT alone (R246, R86). -/
theorem buildInitBody_frame {s t : State} (h : buildInitBody s = .ok t) :
    t = { s with phase := .merging, node := t.node, nodeCount := s.distinct, heap := t.heap,
                 heapCount := s.heapCount + s.distinct } ∧
      (cellsSorted s.node → cellsSorted t.node) ∧ (cellsSorted s.heap → cellsSorted t.heap) := by
  obtain ⟨u, h1, h⟩ := bind_eq_ok.1 h
  obtain ⟨hu, hn, hh⟩ := initLeaves_frame _ _ _ _ h1
  cases h
  refine ⟨?_, hn, hh⟩
  rw [hu]

/-- A merge changes NODE, NODE_COUNT, HEAP and HEAP_COUNT alone: one node more, one item fewer (R247, R86). -/
theorem merge_frame {n : Nat} {s t : State} (h : merge s = .ok (n, t)) :
    n = s.nodeCount ∧ 1 < s.heapCount ∧
      t = { s with node := t.node, nodeCount := s.nodeCount + 1, heap := t.heap, heapCount := s.heapCount - 1 } ∧
      (cellsSorted s.node → cellsSorted t.node) ∧ (cellsSorted s.heap → cellsSorted t.heap) := by
  obtain ⟨⟨x, u⟩, h1, h⟩ := bind_eq_ok.1 h
  obtain ⟨⟨y, v⟩, h2, h⟩ := bind_eq_ok.1 h
  obtain ⟨kx, _, h⟩ := bind_eq_ok.1 h
  obtain ⟨ky, _, h⟩ := bind_eq_ok.1 h
  obtain ⟨w, h3, h⟩ := bind_eq_ok.1 h
  obtain ⟨z, h4, h⟩ := bind_eq_ok.1 h
  obtain ⟨hs, hu⟩ := dequeue_frame h1
  obtain ⟨hs2, hv⟩ := dequeue_frame h2
  obtain ⟨_, hw⟩ := nodeWrite_frame h3
  have hz := enqueue_frame h4
  have su : cellsSorted s.heap → cellsSorted u.heap := fun hs => dequeue_sorted hs h1
  have sv : cellsSorted u.heap → cellsSorted v.heap := fun hs => dequeue_sorted hs h2
  have sz : cellsSorted w.heap → cellsSorted z.heap := fun hs => enqueue_sorted (by exact hs) h4
  rw [hu] at hs2
  cases h
  refine ⟨by rw [hv, hu], by simp at hs2; omega, ?_, ?_, ?_⟩
  · rw [hz, hw, hv, hu]; simp only [State.mk.injEq]; simp; simp at hs2; omega
  · intro h; rw [hz, hw]; simp only; rw [hv, hu]; exact cellsSorted_set _ _ h
  · intro h; apply sz; rw [hw]; exact sv (su h)

theorem mergeAll_frame : ∀ (fuel : Nat) (s t : State), mergeAll fuel s = .ok t →
    t = { s with node := t.node, nodeCount := t.nodeCount, heap := t.heap, heapCount := t.heapCount } ∧
      (s.heapCount ≤ fuel → t.heapCount ≤ 1) ∧ s.nodeCount + s.heapCount = t.nodeCount + t.heapCount ∧
      (cellsSorted s.node → cellsSorted t.node) ∧ (cellsSorted s.heap → cellsSorted t.heap) := by
  intro fuel
  induction fuel with
  | zero => intro s t h; cases h; exact ⟨rfl, by omega, rfl, id, id⟩
  | succ fuel ih =>
    intro s t h
    simp only [mergeAll] at h
    split_ifs at h with hc
    · obtain ⟨⟨n, u⟩, h1, h⟩ := bind_eq_ok.1 h
      obtain ⟨_, h2, hu, hn, hh⟩ := merge_frame h1
      obtain ⟨ht, hle, hsum, hn', hh'⟩ := ih _ _ h
      rw [hu] at hle hsum
      simp only at hle hsum
      exact ⟨by rw [ht, hu], fun hf => hle (by omega), by omega, fun hs => hn' (hn hs), fun hs => hh' (hh hs)⟩
    · have hc' : ¬ 1 < s.heapCount := hc
      cases h; exact ⟨rfl, fun _ => by omega, rfl, id, id⟩

/-! ## On a queue that is a heap -/

/-- A record written at an index that is no item of the queue leaves the queue a heap. -/
theorem IsQueue.nodeWrite {s : State} (hq : IsQueue s) {i : Nat} (n : NodeRecord) (hi : ∀ x ∈ heapItems s, x ≠ i) :
    IsQueue { s with node := cellsSet s.node i n } := by
  have hget : ∀ x ∈ heapItems s, cellsGet (cellsSet s.node i n) x = cellsGet s.node x :=
    fun x hx => cellsGet_set_other _ _ (hi x hx)
  have hf : ∀ x ∈ heapItems s, nodeFreqAt { s with node := cellsSet s.node i n } x = nodeFreqAt s x := by
    intro x hx; simp only [nodeFreqAt, hget x hx]
  refine ⟨hq.dense, ?_, ?_⟩
  · intro x hx
    have hx' : x ∈ heapItems s := hx
    rw [hf x hx', ← hq.keys x hx']
    simp only [nodeKey, nodeRead, arrayRead, hget x hx']
  · rw [heapOrdered_iff (s := { s with node := cellsSet s.node i n }) hq.dense]
    intro j hj hj0
    have hlen : j < (heapItems s).length := hj
    have h1 := (heapOrdered_iff hq.dense).1 hq.ordered j hlen hj0
    change nodeFreqAt { s with node := cellsSet s.node i n } (itemAt (heapItems s) ((j - 1) / 2)) ≤
      nodeFreqAt { s with node := cellsSet s.node i n } (itemAt (heapItems s) j)
    rw [hf _ (itemAt_mem (by omega)), hf _ (itemAt_mem hlen)]
    exact h1

/-- Fields that the queue does not read may change. -/
theorem IsQueue.congr {s t : State} (hq : IsQueue s) (hh : t.heap = s.heap) (hc : t.heapCount = s.heapCount)
    (hn : t.node = s.node) (hcfg : t.config = s.config) : IsQueue t := by
  obtain ⟨d, k, o⟩ := hq
  refine ⟨by rw [hh, hc]; exact d, ?_, ?_⟩
  · intro x hx
    rw [nodeKey_congr hn hcfg, nodeFreqAt_congr hn]
    exact k x (by simpa [heapItems, hh] using hx)
  · intro j hj hj0
    have := o j (by omega) hj0
    simpa [nodeFreqAt_congr hn, heapItem, hh] using this

/-- The leaf that BUILD_INIT writes at index i (R245, R246). -/
def leafAt (s : State) (i : Nat) : NodeRecord := .leaf (freqRead s (itemAt (orderList s) i)) (itemAt (orderList s) i)

/-- The heap's layouts from k items to N (R246, R261): item j is enqueued to the layout of j items. -/
def LeafLayouts (key : Nat → Nat) (f : Nat → List Nat) (k N : Nat) : Prop :=
  ∀ j, k ≤ j → j < N → (f j).Perm (List.range j) ∧ Enqueued key (f j) j (f (j + 1))

/-- The leaves' loop (R246): leaf k for every position of ORDER, all of them enqueued. -/
theorem initLeaves_spec {N : Nat} {s0 : State} (hN : N ≤ s0.config.dMax) (hd : cellsDense s0.order N) :
    ∀ (n k : Nat) (s : State), k + n = N →
      s = { s0 with node := s.node, heap := s.heap, heapCount := k } → cellsDense s.node k →
      (∀ i < k, cellsGet s.node i = some (leafAt s0 i)) → IsQueue s → (heapItems s).Perm (List.range k) →
      ∃ t, initLeaves n k s = .ok t ∧ t = { s0 with node := t.node, heap := t.heap, heapCount := N } ∧
        cellsDense t.node N ∧ (∀ i < N, cellsGet t.node i = some (leafAt s0 i)) ∧ IsQueue t ∧
        (heapItems t).Perm (List.range N) ∧
        ∃ f, f k = heapItems s ∧ f N = heapItems t ∧ LeafLayouts (fun i => nodeFreq (leafAt s0 i)) f k N := by
  intro n
  induction n with
  | zero =>
    intro k s hk hs hnode hleaf hq hp
    have : k = N := by omega
    subst this
    exact ⟨s, rfl, hs, hnode, hleaf, hq, hp, fun _ => heapItems s, rfl, rfl, fun j hj hjk => by omega⟩
  | succ n ih =>
    intro k s hk hs hnode hleaf hq hp
    have hcfg : s.config = s0.config := by rw [hs]
    have hord : s.order = s0.order := by rw [hs]
    have hfreq : s.freq = s0.freq := by rw [hs]
    have hcount : s.heapCount = k := by rw [hs]
    have hlt : k < s0.config.dMax := by omega
    have hnm : k < s.config.nodeMax := by rw [hcfg]; unfold Config.nodeMax; omega
    have hor : orderRead s k = .ok (itemAt (orderList s0) k) := by
      rw [orderRead, arrayRead_ok_iff, hcfg, hord]
      exact ⟨hlt, cellsGet_itemAt hd (by omega)⟩
    have hrec : NodeRecord.leaf (freqRead s (itemAt (orderList s0) k)) (itemAt (orderList s0) k) = leafAt s0 k := by
      rw [leafAt, freqRead_congr hfreq]
    have hne : ∀ x ∈ heapItems s, x ≠ k := by
      intro x hx
      have := List.mem_range.1 (hp.mem_iff.1 hx)
      omega
    obtain ⟨d1, _⟩ := cellsDense_append hnode (leafAt s0 k)
    have hq' := hq.nodeWrite (leafAt s0 k) hne
    have hkey : nodeKey { s with node := cellsSet s.node k (leafAt s0 k) } k =
        .ok (nodeFreqAt { s with node := cellsSet s.node k (leafAt s0 k) } k) :=
      nodeKey_of_get (n := leafAt s0 k) hnm (by simp)
    have hroom : s.heapCount < s.config.heapMax := by rw [hcount, hcfg]; exact hlt
    obtain ⟨h', e, p, q⟩ := enqueue_spec (n := k) hq' hroom hkey
    have hfreqAt : ∀ i, i ≤ k → nodeFreq (leafAt s0 i) = nodeFreqAt { s with node := cellsSet s.node k (leafAt s0 k) } i := by
      intro i hi
      refine (nodeFreqAt_of_get ?_).symm
      by_cases hik : i = k
      · subst hik; simp
      · simp only [cellsGet_set_other _ _ hik]; exact hleaf i (by omega)
    have hlayout : Enqueued (fun i => nodeFreq (leafAt s0 i)) (heapItems s) k (cellsValues h') :=
      (enqueue_path hq' hroom hkey e).congr (hfreqAt k le_rfl)
        (fun x hx => hfreqAt x (List.mem_range.1 (hp.mem_iff.1 hx)).le)
    have hgoal := ih (k + 1) { s with node := cellsSet s.node k (leafAt s0 k), heap := h', heapCount := s.heapCount + 1 }
      (by omega) (by rw [hs]) d1 ?_ q ?_
    · obtain ⟨t, e2, h2, h3, h4, h5, h6, f, hf0, hfN, hf⟩ := hgoal
      refine ⟨t, ?_, h2, h3, h4, h5, h6, fun j => if j = k then heapItems s else f j, if_pos rfl, ?_, ?_⟩
      · simp only [initLeaves, hor, ok_bind, hrec, nodeWrite_ok _ hnm, e, e2]
      · simp only; rw [if_neg (by omega)]; exact hfN
      · intro j hj hjN
        simp only
        rw [if_neg (show j + 1 ≠ k by omega)]
        by_cases hjk : j = k
        · subst hjk
          rw [if_pos rfl, hf0]
          exact ⟨hp, hlayout⟩
        · rw [if_neg hjk]
          exact hf j (by omega) hjN
    · intro i hi
      by_cases hik : i = k
      · subst hik; simp
      · simp only [cellsGet_set_other _ _ hik]; exact hleaf i (by omega)
    · refine p.trans ((hp.cons k).trans ?_)
      rw [List.range_succ]
      exact List.perm_append_comm (l₁ := [k])

/-- The merge step (R247, R241, R242) on a heap of at least two items with room for a node: the two dequeued items
have the smallest keys, the new node has them as left and right child and the sum of their frequencies. -/
theorem merge_spec {s : State} (hq : IsQueue s) (h2 : 1 < s.heapCount) (hsize : s.heapCount ≤ s.config.heapMax)
    (hroom : s.nodeCount < s.config.nodeMax) (hlt : ∀ x ∈ heapItems s, x < s.nodeCount) :
    ∃ x y rest h', merge s = .ok (s.nodeCount, { s with
          node := cellsSet s.node s.nodeCount (.internal (nodeFreqAt s x + nodeFreqAt s y) x y)
          nodeCount := s.nodeCount + 1, heap := h', heapCount := s.heapCount - 1 }) ∧
      x = heapItem s 0 ∧ (heapItems s).Perm (x :: y :: rest) ∧ (∀ z ∈ heapItems s, nodeFreqAt s x ≤ nodeFreqAt s z) ∧
      (∀ z ∈ rest, nodeFreqAt s y ≤ nodeFreqAt s z) ∧ (cellsValues h').Perm (s.nodeCount :: rest) ∧
      MergedLayout (nodeFreqAt s) (nodeFreqAt { s with
          node := cellsSet s.node s.nodeCount (.internal (nodeFreqAt s x + nodeFreqAt s y) x y) })
        (heapItems s) y s.nodeCount (cellsValues h') ∧
      IsQueue { s with
          node := cellsSet s.node s.nodeCount (.internal (nodeFreqAt s x + nodeFreqAt s y) x y)
          nodeCount := s.nodeCount + 1, heap := h', heapCount := s.heapCount - 1 } := by
  obtain ⟨x, h1, e1, hx, min1, p1, q1⟩ := dequeue_spec hq (by omega) hsize
  obtain ⟨y, h3, e2, hy, min2, p2, q2⟩ := dequeue_spec q1 (by simp only; omega) (by simp only; omega)
  change ∀ z ∈ cellsValues h1, nodeFreqAt s y ≤ nodeFreqAt s z at min2
  change (y :: cellsValues h3).Perm (cellsValues h1) at p2
  have pall : (heapItems s).Perm (x :: y :: cellsValues h3) := (p1.symm).trans (p2.symm.cons x)
  have hxm : x ∈ heapItems s := pall.mem_iff.2 (by simp)
  have hym : y ∈ heapItems s := pall.mem_iff.2 (by simp)
  have hcount : s.heapCount - 1 - 1 + 1 = s.heapCount - 1 := by omega
  have q3 := q2.nodeWrite (i := s.nodeCount) (.internal (nodeFreqAt s x + nodeFreqAt s y) x y) (by
    intro z hz
    have hz' : z ∈ cellsValues h3 := hz
    have := hlt z (pall.mem_iff.2 (by simp [hz']))
    omega)
  have q4 := q3.congr (t := { s with
      node := cellsSet s.node s.nodeCount (.internal (nodeFreqAt s x + nodeFreqAt s y) x y)
      nodeCount := s.nodeCount + 1, heap := h3, heapCount := s.heapCount - 1 - 1 }) rfl rfl rfl rfl
  have hkn := nodeKey_of_get (s := { s with
      node := cellsSet s.node s.nodeCount (.internal (nodeFreqAt s x + nodeFreqAt s y) x y)
      nodeCount := s.nodeCount + 1, heap := h3, heapCount := s.heapCount - 1 - 1 }) (i := s.nodeCount)
    (n := .internal (nodeFreqAt s x + nodeFreqAt s y) x y) hroom (by simp)
  obtain ⟨h', e3, p3, q5⟩ := enqueue_spec (n := s.nodeCount) q4 (by simp only; omega) hkn
  refine ⟨x, y, cellsValues h3, h', ?_, hx, pall, min1, ?_, p3, ⟨cellsValues h1, cellsValues h3,
    dequeue_path hq hsize e1, hy.trans (heapItem_eq q1.dense 0), dequeue_path q1 (by simp only; omega) e2,
    enqueue_path q4 (by simp only; omega) hkn e3⟩, ?_⟩
  · simp only [merge, e1, ok_bind, e2]
    have kx : nodeKey { s with heap := h3, heapCount := s.heapCount - 1 - 1 } x = .ok (nodeFreqAt s x) := hq.keys x hxm
    have ky : nodeKey { s with heap := h3, heapCount := s.heapCount - 1 - 1 } y = .ok (nodeFreqAt s y) := hq.keys y hym
    simp only [kx, ky, ok_bind]
    rw [nodeWrite_ok _ (by exact hroom)]
    simp only [ok_bind, e3, hcount]
  · intro z hz
    exact min2 z (p2.mem_iff.1 (List.mem_cons_of_mem _ hz))
  · simpa only [hcount] using q5

end Sys2Proof.Machine
end

