-- ==== Sys2Proof/Laws/Tree.lean ====
section
/-! SUPPORT. The trees of the node store (`43_tree_builder.md` R245, R254, R256) and the ROM generator
(`44_code_rom.md` R282): the leaves under a node with their paths, and what `max_depth` and `walk` make of them. -/

namespace Sys2Proof.Machine

/-! ## The node store as trees -/

/-- What a node store needs for its nodes to be trees with leaves of the table's symbols (R245, R254). -/
structure TreeOk (s : State) : Prop where
  dense : cellsDense s.node s.nodeCount
  size : s.nodeCount ≤ s.config.nodeMax
  ok : ∀ i < s.nodeCount, nodeOk s i = true
  syms : ∀ x ∈ orderList s, x < s.config.dMax

/-- A written node is the leaf of its place in ORDER, or an internal node over smaller indices (R245, R254). -/
theorem TreeOk.cases {s : State} (h : TreeOk s) {i : Nat} (hi : i < s.nodeCount) :
    (∃ sym, cellsGet s.node i = some (.leaf (freqRead s sym) sym) ∧ i < s.distinct ∧ cellsGet s.order i = some sym) ∨
      (∃ l r, cellsGet s.node i = some (.internal (nodeFreqAt s l + nodeFreqAt s r) l r) ∧ s.distinct ≤ i ∧ l < i ∧
        r < i) := by
  have := h.ok i hi
  unfold nodeOk at this
  split at this
  · next f sym heq =>
    simp only [Bool.and_eq_true, decide_eq_true_eq] at this
    obtain ⟨⟨h1, h2⟩, rfl⟩ := this
    exact .inl ⟨sym, heq, h1, h2⟩
  · next f l r heq =>
    simp only [Bool.and_eq_true, decide_eq_true_eq] at this
    obtain ⟨⟨⟨h1, h2⟩, h3⟩, rfl⟩ := this
    exact .inr ⟨l, r, heq, h1, h2, h3⟩
  · simp at this

/-- Induction over a tree of the node store. -/
theorem TreeOk.induct {s : State} (h : TreeOk s) {P : Nat → Prop}
    (leaf : ∀ i sym, i < s.nodeCount → cellsGet s.node i = some (.leaf (freqRead s sym) sym) →
      cellsGet s.order i = some sym → i < s.distinct → P i)
    (node : ∀ i l r, i < s.nodeCount → cellsGet s.node i = some (.internal (nodeFreqAt s l + nodeFreqAt s r) l r) →
      s.distinct ≤ i → l < i → r < i → P l → P r → P i) : ∀ i < s.nodeCount, P i := by
  intro i
  induction i using Nat.strong_induction_on with
  | _ i ih =>
    intro hi
    rcases h.cases hi with ⟨sym, h1, h2, h3⟩ | ⟨l, r, h1, h2, h3, h4⟩
    · exact leaf i sym hi h1 h3 h2
    · exact node i l r hi h1 h2 h3 h4 (ih l h3 (by omega)) (ih r h4 (by omega))

theorem TreeOk.sym_lt {s : State} (h : TreeOk s) {i sym : Nat} (ho : cellsGet s.order i = some sym) :
    sym < s.config.dMax :=
  h.syms sym (List.mem_map.2 ⟨_, cellsGet_mem ho, rfl⟩)

theorem TreeOk.read {s : State} (h : TreeOk s) {i : Nat} (hi : i < s.nodeCount) {n : NodeRecord}
    (hn : cellsGet s.node i = some n) : nodeRead s i = .ok n := by
  have := h.size
  exact arrayRead_ok_iff.2 ⟨by omega, hn⟩

/-! ## The leaves under a node -/

/-- The leaves under node i in pre-order: each one's symbol and the path to it (R282). -/
def leavesUnder (s : State) : (fuel : Nat) → Nat → List (Nat × List Bool)
  | 0, _ => []
  | fuel + 1, i =>
    match cellsGet s.node i with
    | some (.leaf _ sym) => [(sym, [])]
    | some (.internal _ l r) =>
      (leavesUnder s fuel l).map (fun e => (e.1, false :: e.2)) ++
        (leavesUnder s fuel r).map (fun e => (e.1, true :: e.2))
    | none => []

/-- The leaves under node i with their paths. -/
def leavesOf (s : State) (i : Nat) : List (Nat × List Bool) := leavesUnder s (i + 1) i

theorem TreeOk.leavesUnder_eq {s : State} (h : TreeOk s) :
    ∀ i < s.nodeCount, ∀ fuel, i < fuel → leavesUnder s fuel i = leavesOf s i := by
  refine h.induct ?_ ?_
  · intro i sym _ h1 _ _ fuel hf
    obtain ⟨fuel, rfl⟩ : ∃ m, fuel = m + 1 := ⟨fuel - 1, by omega⟩
    simp [leavesOf, leavesUnder, h1]
  · intro i l r _ h1 _ hl hr ihl ihr fuel hf
    obtain ⟨fuel, rfl⟩ : ∃ m, fuel = m + 1 := ⟨fuel - 1, by omega⟩
    simp only [leavesOf, leavesUnder, h1]
    rw [ihl fuel (by omega), ihr fuel (by omega), ihl i hl, ihr i hr]

theorem leavesOf_leaf {s : State} {i f sym : Nat} (h : cellsGet s.node i = some (.leaf f sym)) :
    leavesOf s i = [(sym, [])] := by
  simp [leavesOf, leavesUnder, h]

theorem TreeOk.leavesOf_node {s : State} (h : TreeOk s) {i f l r : Nat} (hi : i < s.nodeCount)
    (hn : cellsGet s.node i = some (.internal f l r)) (hl : l < i) (hr : r < i) :
    leavesOf s i = (leavesOf s l).map (fun e => (e.1, false :: e.2)) ++
      (leavesOf s r).map (fun e => (e.1, true :: e.2)) := by
  simp only [leavesOf, leavesUnder, hn]
  rw [h.leavesUnder_eq l (by omega) i hl, h.leavesUnder_eq r (by omega) i hr]
  rfl

/-- Nothing but NODE decides the leaves. -/
theorem leavesUnder_congr {s t : State} (hn : t.node = s.node) :
    ∀ fuel i, leavesUnder t fuel i = leavesUnder s fuel i := by
  intro fuel
  induction fuel with
  | zero => intro i; rfl
  | succ fuel ih => intro i; simp only [leavesUnder, hn, ih]

theorem leavesOf_congr {s t : State} (hn : t.node = s.node) (i : Nat) : leavesOf t i = leavesOf s i :=
  leavesUnder_congr hn _ _

theorem TreeOk.leavesOf_ne_nil {s : State} (h : TreeOk s) : ∀ i < s.nodeCount, leavesOf s i ≠ [] := by
  refine h.induct ?_ ?_
  · intro i sym _ h1 _ _; simp [leavesOf_leaf h1]
  · intro i l r hi h1 _ hl hr ihl _
    rw [h.leavesOf_node hi h1 hl hr]
    simp [ihl]

/-- The depth of the deepest of some leaves. -/
def deepest (l : List (Nat × List Bool)) : Nat := l.foldr (fun e m => max e.2.length m) 0

theorem deepest_append (a b : List (Nat × List Bool)) : deepest (a ++ b) = max (deepest a) (deepest b) := by
  induction a with
  | nil => simp [deepest]
  | cons e a ih =>
    simp only [deepest, List.cons_append, List.foldr_cons] at ih ⊢
    omega

theorem deepest_cons (d : Bool) (a : List (Nat × List Bool)) (h : a ≠ []) :
    deepest (a.map (fun e => (e.1, d :: e.2))) = deepest a + 1 := by
  induction a with
  | nil => simp at h
  | cons e a ih =>
    cases a with
    | nil => simp [deepest]
    | cons e' a =>
      have := ih (by simp)
      simp only [deepest, List.map_cons, List.foldr_cons, List.length_cons] at this ⊢
      omega

theorem le_deepest {a : List (Nat × List Bool)} {e : Nat × List Bool} (h : e ∈ a) : e.2.length ≤ deepest a := by
  induction a with
  | nil => simp at h
  | cons e' a ih =>
    simp only [deepest, List.foldr_cons] at ih ⊢
    rcases List.mem_cons.1 h with rfl | h
    · omega
    · have := ih h; omega

theorem deepest_le_iff {a : List (Nat × List Bool)} {m : Nat} : deepest a ≤ m ↔ ∀ e ∈ a, e.2.length ≤ m := by
  induction a with
  | nil => simp [deepest]
  | cons e a ih =>
    simp only [deepest, List.foldr_cons, List.forall_mem_cons] at ih ⊢
    rw [← ih]; omega

/-- A tree is at most as deep as its leaves are many, less one (R252). -/
theorem TreeOk.deepest_lt {s : State} (h : TreeOk s) :
    ∀ i < s.nodeCount, deepest (leavesOf s i) + 1 ≤ (leavesOf s i).length := by
  refine h.induct ?_ ?_
  · intro i sym _ h1 _ _; simp [leavesOf_leaf h1, deepest]
  · intro i l r hi h1 _ hl hr ihl ihr
    rw [h.leavesOf_node hi h1 hl hr, deepest_append, deepest_cons _ _ (h.leavesOf_ne_nil l (by omega)),
      deepest_cons _ _ (h.leavesOf_ne_nil r (by omega))]
    simp only [List.length_append, List.length_map]
    omega

/-! ## `max_depth` and `walk` (R282) -/

theorem TreeOk.maxDepth_eq {s : State} (h : TreeOk s) :
    ∀ i < s.nodeCount, ∀ fuel, i < fuel → maxDepth s fuel i = .ok (deepest (leavesOf s i)) := by
  refine h.induct ?_ ?_
  · intro i sym hi h1 _ _ fuel hf
    obtain ⟨fuel, rfl⟩ : ∃ m, fuel = m + 1 := ⟨fuel - 1, by omega⟩
    simp [maxDepth, h.read hi h1, leavesOf_leaf h1, deepest]
  · intro i l r hi h1 _ hl hr ihl ihr fuel hf
    obtain ⟨fuel, rfl⟩ : ∃ m, fuel = m + 1 := ⟨fuel - 1, by omega⟩
    simp only [maxDepth, h.read hi h1, ok_bind, ihl fuel (by omega), ihr fuel (by omega)]
    rw [h.leavesOf_node hi h1 hl hr, deepest_append, deepest_cons _ _ (h.leavesOf_ne_nil l (by omega)),
      deepest_cons _ _ (h.leavesOf_ne_nil r (by omega))]
    congr 1; omega

/-- The ROM entry of a leaf with a path (R281, R282). -/
def codeEntry (p : List Bool) : RomEntry := { valid := true, len := p.length, bits := codeBits p }

/-- The ROM with the entries of some leaves under a path recorded. -/
def recordLeaves (path : List Bool) (l : List (Nat × List Bool)) (rom : Cells RomEntry) : Cells RomEntry :=
  l.foldl (fun r e => cellsSet r e.1 (codeEntry (path ++ e.2))) rom

theorem recordLeaves_append (path : List Bool) (a b : List (Nat × List Bool)) (rom : Cells RomEntry) :
    recordLeaves path (a ++ b) rom = recordLeaves path b (recordLeaves path a rom) := List.foldl_append ..

theorem recordLeaves_cons (path : List Bool) (d : Bool) (a : List (Nat × List Bool)) (rom : Cells RomEntry) :
    recordLeaves path (a.map (fun e => (e.1, d :: e.2))) rom = recordLeaves (path ++ [d]) a rom := by
  simp only [recordLeaves, List.foldl_map, List.append_assoc, List.singleton_append]

theorem TreeOk.walk_eq {s : State} (h : TreeOk s) :
    ∀ i < s.nodeCount, ∀ fuel, i < fuel → ∀ path rom,
      walk s fuel i path rom = .ok (recordLeaves path (leavesOf s i) rom) := by
  refine h.induct ?_ ?_
  · intro i sym hi h1 h2 _ fuel hf path rom
    obtain ⟨fuel, rfl⟩ : ∃ m, fuel = m + 1 := ⟨fuel - 1, by omega⟩
    simp only [walk, h.read hi h1, ok_bind, leavesOf_leaf h1, arrayWrite_ok_iff]
    exact ⟨h.sym_lt h2, by simp [recordLeaves, codeEntry]⟩
  · intro i l r hi h1 _ hl hr ihl ihr fuel hf path rom
    obtain ⟨fuel, rfl⟩ : ∃ m, fuel = m + 1 := ⟨fuel - 1, by omega⟩
    simp only [walk, h.read hi h1, ok_bind, ihl fuel (by omega), ihr fuel (by omega)]
    rw [h.leavesOf_node hi h1 hl hr, recordLeaves_append, recordLeaves_cons, recordLeaves_cons]

theorem recordLeaves_sorted (path : List Bool) :
    ∀ (l : List (Nat × List Bool)) (rom : Cells RomEntry), cellsSorted rom → cellsSorted (recordLeaves path l rom) := by
  intro l
  induction l with
  | nil => exact fun _ h => h
  | cons e l ih => exact fun rom h => ih _ (cellsSorted_set _ _ h)

theorem mem_recordLeaves {path : List Bool} :
    ∀ {l : List (Nat × List Bool)} {rom : Cells RomEntry} {e : Nat × RomEntry}, e ∈ recordLeaves path l rom →
      e ∈ rom ∨ ∃ x ∈ l, e = (x.1, codeEntry (path ++ x.2)) := by
  intro l
  induction l with
  | nil => intro rom e h; exact .inl h
  | cons d l ih =>
    intro rom e h
    rcases ih h with h | ⟨x, hx, rfl⟩
    · rcases mem_cellsSet h with rfl | h
      · exact .inr ⟨d, by simp, rfl⟩
      · exact .inl h
    · exact .inr ⟨x, by simp [hx], rfl⟩

theorem recordLeaves_get_other {path : List Bool} :
    ∀ {l : List (Nat × List Bool)} {rom : Cells RomEntry} {sym : Nat}, sym ∉ l.map Prod.fst →
      cellsGet (recordLeaves path l rom) sym = cellsGet rom sym := by
  intro l
  induction l with
  | nil => intro rom sym _; rfl
  | cons d l ih =>
    intro rom sym h
    simp only [List.map_cons, List.mem_cons, not_or] at h
    exact (ih h.2).trans (cellsGet_set_other _ _ h.1)

/-- Where each symbol labels at most one leaf, the ROM's entry of a leaf's symbol is the one of its path (R282). -/
theorem recordLeaves_get {path : List Bool} :
    ∀ {l : List (Nat × List Bool)} {rom : Cells RomEntry} {x : Nat × List Bool}, (l.map Prod.fst).Nodup → x ∈ l →
      cellsGet (recordLeaves path l rom) x.1 = some (codeEntry (path ++ x.2)) := by
  intro l
  induction l with
  | nil => intro rom x _ h; simp at h
  | cons d l ih =>
    intro rom x hn hx
    simp only [List.map_cons, List.nodup_cons] at hn
    rcases List.mem_cons.1 hx with rfl | hx
    · exact (recordLeaves_get_other hn.1).trans (by simp)
    · exact ih hn.2 hx

/-- MAX_LEN over recorded leaves is the deepest one's depth (R44, R282). -/
theorem maxCodeLen_record {l : List (Nat × List Bool)} (hn : (l.map Prod.fst).Nodup) :
    maxCodeLen (recordLeaves [] l []) = deepest l := by
  have hle : ∀ (rom : Cells RomEntry) (m : Nat), maxCodeLen rom ≤ m ↔ ∀ e ∈ rom, e.2.len ≤ m := by
    intro rom m
    induction rom with
    | nil => simp [maxCodeLen]
    | cons e rom ih =>
      simp only [maxCodeLen, List.foldr_cons, List.forall_mem_cons] at ih ⊢
      rw [← ih]; omega
  apply le_antisymm
  · rw [hle]
    intro e he
    rcases mem_recordLeaves he with h | ⟨x, hx, rfl⟩
    · simp at h
    · exact le_deepest hx
  · rw [deepest_le_iff]
    intro x hx
    exact (hle _ _).1 le_rfl _ (cellsGet_mem (recordLeaves_get (path := []) (rom := []) hn hx))

/-- `rom_of` on a node store of trees (R282, R283): it answers, and it depends on the leaves and LMAX alone. -/
theorem TreeOk.romOf_eq {s : State} (h : TreeOk s) {i : Nat} (hi : i < s.nodeCount)
    (hn : ((leavesOf s i).map Prod.fst).Nodup) :
    romOf s i = .ok (if s.config.lmax < deepest (leavesOf s i) then none
      else some (recordLeaves [] (leavesOf s i) [], deepest (leavesOf s i))) := by
  simp only [romOf, h.maxDepth_eq i hi (i + 1) (by omega), ok_bind]
  split_ifs with hd
  · rfl
  · simp only [h.walk_eq i hi (i + 1) (by omega), ok_bind, maxCodeLen_record hn]

/-! ## The digits of a code (R281) -/

theorem codeBits_testBit (p : List Bool) : ∀ j, (codeBits p).testBit j = p[j]?.getD false := by
  induction p with
  | nil => intro j; simp [codeBits]
  | cons b p ih =>
    intro j
    cases j with
    | zero => cases b <;> simp [codeBits, Nat.testBit_zero]
    | succ j =>
      rw [Nat.testBit_succ]
      have : codeBits (b :: p) / 2 = codeBits p := by cases b <;> simp [codeBits] <;> omega
      rw [this, ih]; simp

theorem codeBits_lt (p : List Bool) : codeBits p < 2 ^ p.length := by
  induction p with
  | nil => simp [codeBits]
  | cons b p ih => cases b <;> simp [codeBits, Nat.pow_succ] <;> omega

/-- The digits read back from an entry are the path (R281). -/
theorem digits_codeEntry (p : List Bool) : (List.range (codeEntry p).len).map (codeEntry p).bits.testBit = p := by
  apply List.ext_getElem
  · simp [codeEntry]
  · intro n h1 h2
    simp [codeEntry, codeBits_testBit, h2]

end Sys2Proof.Machine
end

