-- ==== Sys2Proof/Laws/Forest.lean ====
section
/-! SUPPORT. The forest of the node store (`43_tree_builder.md` R253, R254, R256) and the laws of the codes that a tree
gives (`44_code_rom.md` R284, R289 to R292): which leaves lie under the roots, and where. -/

namespace Sys2Proof.Machine

/-! ## Every node exactly once a root or a child (R256) -/

theorem childrenAt_get {s : State} {i : Nat} {n : NodeRecord} (h : cellsGet s.node i = some n) :
    childrenAt s i = nodeChildren n := by
  simp [childrenAt, h]

theorem children_flatMap {s : State} (hd : cellsDense s.node s.nodeCount) :
    (cellsValues s.node).flatMap nodeChildren = (List.range s.nodeCount).flatMap (childrenAt s) := by
  have hlen := cellsDense_length hd
  have : cellsValues s.node = (List.range s.nodeCount).map (fun i => (cellsGet s.node i).getD (.leaf 0 0)) := by
    apply List.ext_getElem
    · simp [hlen]
    · intro n h1 h2
      simp [cellsGet_dense hd, h1]
  rw [this, List.flatMap_map]
  apply List.flatMap_congr
  intro i hi
  have hi' : i < (cellsValues s.node).length := by rw [hlen]; exact List.mem_range.1 hi
  simp [childrenAt, cellsGet_dense hd, hi']

theorem TreeOk.child_lt {s : State} (h : TreeOk s) {i c : Nat} (hi : i < s.nodeCount) (hc : c ∈ childrenAt s i) :
    c < i := by
  rcases h.cases hi with ⟨sym, h1, _, _⟩ | ⟨l, r, h1, _, hl, hr⟩
  · simp [childrenAt_get h1, nodeChildren] at hc
  · simp only [childrenAt_get h1, nodeChildren, List.mem_cons, List.not_mem_nil, or_false] at hc
    rcases hc with rfl | rfl <;> assumption

/-- A quantity that each node gets from itself and its children sums over the roots to its sum over all nodes. -/
theorem TreeOk.sum_roots {M : Type} [AddCommMonoid M] {s : State} (h : TreeOk s) {g own : Nat → M}
    (hg : ∀ i < s.nodeCount, g i = own i + ((childrenAt s i).map g).sum) :
    ∀ (N : Nat) (roots : List Nat), N ≤ s.nodeCount →
      (roots ++ (List.range N).flatMap (childrenAt s)).Perm (List.range N) →
      (roots.map g).sum = ((List.range N).map own).sum := by
  intro N
  induction N with
  | zero =>
    intro roots _ hp
    have := hp.length_eq
    simp only [List.range_zero, List.flatMap_nil, List.append_nil, List.length_nil] at this
    simp [List.length_eq_zero_iff.1 this]
  | succ N ih =>
    intro roots hN hp
    have hroot : N ∈ roots := by
      have : N ∈ roots ++ (List.range (N + 1)).flatMap (childrenAt s) := hp.mem_iff.2 (by simp)
      rcases List.mem_append.1 this with h1 | h1
      · exact h1
      · obtain ⟨i, hi, hc⟩ := List.mem_flatMap.1 h1
        have hi' := List.mem_range.1 hi
        have := h.child_lt (by omega) hc
        omega
    have pr : roots.Perm (N :: roots.erase N) := List.perm_cons_erase hroot
    have hp' : ((childrenAt s N ++ roots.erase N) ++ (List.range N).flatMap (childrenAt s)).Perm (List.range N) := by
      have e : (roots ++ (List.range (N + 1)).flatMap (childrenAt s)).Perm
          (N :: ((childrenAt s N ++ roots.erase N) ++ (List.range N).flatMap (childrenAt s))) := by
        rw [List.range_succ, List.flatMap_append, List.flatMap_singleton]
        refine (pr.append_right _).trans ?_
        rw [List.cons_append]
        refine List.Perm.cons N ?_
        refine (List.Perm.append_left _ List.perm_append_comm).trans ?_
        rw [← List.append_assoc]
        exact List.perm_append_comm.append_right _
      have e2 : (List.range (N + 1)).Perm (N :: List.range N) := by
        rw [List.range_succ]; exact List.perm_append_comm (l₂ := [N])
      exact ((e.symm.trans hp).trans e2).cons_inv
    have := ih _ (by omega) hp'
    rw [List.range_succ, List.map_append, List.sum_append, ← this, List.map_append, List.sum_append,
      (pr.map g).sum_eq, List.map_cons, List.sum_cons, hg N (by omega)]
    simp only [List.map_cons, List.map_nil, List.sum_cons, List.sum_nil, add_zero]
    abel

/-- The symbol of a leaf. -/
def leafSym (s : State) (i : Nat) : List Nat :=
  match cellsGet s.node i with
  | some (.leaf _ x) => [x]
  | some (.internal _ _ _) => []
  | none => []

/-- The symbols of the written leaves are those of ORDER (R245). -/
theorem TreeOk.leafSyms {s : State} (h : TreeOk s) (ho : cellsDense s.order s.distinct) (hd : s.distinct ≤ s.nodeCount) :
    (List.range s.nodeCount).flatMap (leafSym s) = orderList s := by
  obtain ⟨m, hm⟩ : ∃ m, s.nodeCount = s.distinct + m := ⟨s.nodeCount - s.distinct, by omega⟩
  rw [hm, List.range_add, List.flatMap_append]
  have h1 : (List.range s.distinct).flatMap (leafSym s) = orderList s := by
    have hlen : (orderList s).length = s.distinct := cellsDense_length ho
    have : (List.range s.distinct).flatMap (leafSym s) =
        (List.range s.distinct).flatMap (fun i => [itemAt (orderList s) i]) := by
      apply List.flatMap_congr
      intro i hi
      have hi' := List.mem_range.1 hi
      rcases h.cases (show i < s.nodeCount by omega) with ⟨sym, h2, _, h4⟩ | ⟨_, _, _, h3, _, _⟩
      · rw [cellsGet_dense ho] at h4
        simp [leafSym, h2, itemAt, orderList, h4]
      · omega
    rw [this, ← List.map_eq_flatMap]
    apply List.ext_getElem
    · simp [hlen]
    · intro n h1 h2
      simp [itemAt, h2]
  rw [h1, List.flatMap_eq_nil_iff.2, List.append_nil]
  intro i hi
  obtain ⟨j, hj, rfl⟩ := List.mem_map.1 hi
  have hj' := List.mem_range.1 hj
  rcases h.cases (show s.distinct + j < s.nodeCount by omega) with ⟨sym, _, h3, _⟩ | ⟨l, r, h2, _, _, _⟩
  · omega
  · simp [leafSym, h2]

theorem list_sum_coe {α β : Type} (f : α → List β) (l : List α) :
    (l.map (fun i => ((f i : List β) : Multiset β))).sum = ((l.flatMap f : List β) : Multiset β) := by
  induction l with
  | nil => rfl
  | cons a l ih => simp [ih]

/-- The leaves under the roots of a forest are those of ORDER, each once (R256). -/
theorem TreeOk.roots_leaves {s : State} (h : TreeOk s) (ho : cellsDense s.order s.distinct)
    (hd : s.distinct ≤ s.nodeCount) {roots : List Nat}
    (hp : (roots ++ (cellsValues s.node).flatMap nodeChildren).Perm (List.range s.nodeCount)) :
    (roots.flatMap (fun i => (leavesOf s i).map Prod.fst)).Perm (orderList s) := by
  rw [children_flatMap h.dense] at hp
  have hg : ∀ i < s.nodeCount, (((leavesOf s i).map Prod.fst : List Nat) : Multiset Nat) =
      (leafSym s i : Multiset Nat) + ((childrenAt s i).map
        (fun i => (((leavesOf s i).map Prod.fst : List Nat) : Multiset Nat))).sum := by
    intro i hi
    rcases h.cases hi with ⟨sym, h1, _, _⟩ | ⟨l, r, h1, _, hl, hr⟩
    · simp [leavesOf_leaf h1, leafSym, h1, childrenAt, nodeChildren]
    · simp [h.leavesOf_node hi h1 hl hr, leafSym, h1, childrenAt, nodeChildren, Function.comp_def]
  have := h.sum_roots hg s.nodeCount roots le_rfl hp
  rw [list_sum_coe, list_sum_coe, h.leafSyms ho hd] at this
  exact Multiset.coe_eq_coe.1 this

/-! ## Frequencies (R253, R254, R291) -/

theorem TreeOk.leaf_freq {s : State} {i f sym : Nat} (h : cellsGet s.node i = some (.leaf f sym)) :
    nodeFreqAt s i = f := by
  simp [nodeFreqAt, h, nodeFreq]

theorem node_freq {s : State} {i f l r : Nat} (h : cellsGet s.node i = some (.internal f l r)) :
    nodeFreqAt s i = f := by
  simp [nodeFreqAt, h, nodeFreq]

/-- A node's frequency is the sum of the counts of the symbols under it (R254). -/
theorem TreeOk.freq_eq {s : State} (h : TreeOk s) :
    ∀ i < s.nodeCount, nodeFreqAt s i = ((leavesOf s i).map (fun e => freqRead s e.1)).sum := by
  refine h.induct ?_ ?_
  · intro i sym _ h1 _ _
    simp [TreeOk.leaf_freq h1, leavesOf_leaf h1]
  · intro i l r hi h1 _ hl hr ihl ihr
    simp [node_freq h1, h.leavesOf_node hi h1 hl hr, ihl, ihr, Function.comp_def]

/-- The digits that the symbols under a node take, each as often as its count says, from the node on. -/
def cost (s : State) (i : Nat) : Nat := ((leavesOf s i).map (fun e => freqRead s e.1 * e.2.length)).sum

theorem sum_succ (s : State) (d : Bool) (a : List (Nat × List Bool)) :
    ((a.map (fun e => (e.1, d :: e.2))).map (fun e => freqRead s e.1 * e.2.length)).sum =
      (a.map (fun e => freqRead s e.1)).sum + (a.map (fun e => freqRead s e.1 * e.2.length)).sum := by
  induction a with
  | nil => rfl
  | cons e a ih =>
    simp only [List.map_cons, List.sum_cons, List.length_cons] at ih ⊢
    rw [ih, Nat.mul_add]; omega

/-- The cost of a node is its own frequency, if it is Internal, and its children's cost (R291). -/
theorem TreeOk.cost_eq {s : State} (h : TreeOk s) {i : Nat} (hi : i < s.nodeCount) :
    cost s i = internalFreq s i + ((childrenAt s i).map (cost s)).sum := by
  rcases h.cases hi with ⟨sym, h1, _, _⟩ | ⟨l, r, h1, _, hl, hr⟩
  · simp [cost, leavesOf_leaf h1, internalFreq, h1, childrenAt, nodeChildren]
  · have el := h.freq_eq l (by omega)
    have er := h.freq_eq r (by omega)
    simp only [cost, h.leavesOf_node hi h1 hl hr, List.map_append, List.sum_append, sum_succ, internalFreq, h1,
      childrenAt, nodeChildren, List.map_cons, List.map_nil, List.sum_cons, List.sum_nil, el, er]
    omega

/-- The digits of the whole input are the sum of the internal nodes' frequencies (R291). -/
theorem TreeOk.roots_cost {s : State} (h : TreeOk s) {roots : List Nat}
    (hp : (roots ++ (cellsValues s.node).flatMap nodeChildren).Perm (List.range s.nodeCount)) :
    (roots.map (cost s)).sum = ((List.range s.nodeCount).map (internalFreq s)).sum := by
  rw [children_flatMap h.dense] at hp
  exact h.sum_roots (fun i hi => h.cost_eq hi) s.nodeCount roots le_rfl hp

theorem TreeOk.child_freq_le {s : State} (h : TreeOk s) {i c : Nat} (hi : i < s.nodeCount) (hc : c ∈ childrenAt s i) :
    nodeFreqAt s c ≤ nodeFreqAt s i := by
  rcases h.cases hi with ⟨sym, h1, _, _⟩ | ⟨l, r, h1, _, hl, hr⟩
  · simp [childrenAt_get h1, nodeChildren] at hc
  · simp only [childrenAt_get h1, nodeChildren, List.mem_cons, List.not_mem_nil, or_false] at hc
    rw [node_freq h1]
    rcases hc with rfl | rfl <;> omega

/-- Every node's frequency is at most the roots' sum (R253). -/
theorem TreeOk.freq_le_roots {s : State} (h : TreeOk s) {roots : List Nat}
    (hp : (roots ++ (cellsValues s.node).flatMap nodeChildren).Perm (List.range s.nodeCount)) :
    ∀ i < s.nodeCount, nodeFreqAt s i ≤ (roots.map (nodeFreqAt s)).sum := by
  rw [children_flatMap h.dense] at hp
  have key : ∀ k i, s.nodeCount = i + 1 + k → nodeFreqAt s i ≤ (roots.map (nodeFreqAt s)).sum := by
    intro k
    induction k using Nat.strong_induction_on with
    | _ k ih =>
      intro i hik
      have hm : i ∈ roots ++ (List.range s.nodeCount).flatMap (childrenAt s) :=
        hp.mem_iff.2 (List.mem_range.2 (by omega))
      rcases List.mem_append.1 hm with h1 | h1
      · exact List.single_le_sum (by simp) _ (List.mem_map.2 ⟨i, h1, rfl⟩)
      · obtain ⟨j, hj, hc⟩ := List.mem_flatMap.1 h1
        have hj' := List.mem_range.1 hj
        have := h.child_lt hj' hc
        exact (h.child_freq_le hj' hc).trans (ih (s.nodeCount - 1 - j) (by omega) j (by omega))
  intro i hi
  exact key (s.nodeCount - 1 - i) i (by omega)

/-! ## The codes (R284, R289, R290) -/

/-- Kraft's sum of a tree is 1 (R290), scaled by a power of two. -/
theorem TreeOk.kraft {s : State} (h : TreeOk s) :
    ∀ i < s.nodeCount, ∀ m, deepest (leavesOf s i) ≤ m → ((leavesOf s i).map (fun e => 2 ^ (m - e.2.length))).sum = 2 ^ m := by
  refine h.induct ?_ ?_
  · intro i sym _ h1 _ _ m _; simp [leavesOf_leaf h1]
  · intro i l r hi h1 _ hl hr ihl ihr m hm
    rw [h.leavesOf_node hi h1 hl hr, deepest_append, deepest_cons _ _ (h.leavesOf_ne_nil l (by omega)),
      deepest_cons _ _ (h.leavesOf_ne_nil r (by omega))] at hm
    obtain ⟨m, rfl⟩ : ∃ k, m = k + 1 := ⟨m - 1, by omega⟩
    rw [h.leavesOf_node hi h1 hl hr]
    simp only [List.map_append, List.map_map, List.sum_append, Function.comp_def, List.length_cons,
      Nat.add_sub_add_right]
    rw [ihl m (by omega), ihr m (by omega)]
    ring

theorem nodeOn_append (s : State) (p q : List Bool) (i : Nat) :
    nodeOn s (p ++ q) i = (nodeOn s p i).bind (nodeOn s q) := by
  induction p generalizing i with
  | nil => rfl
  | cons b p ih =>
    simp only [List.cons_append, nodeOn]
    cases childOn s i b with
    | none => rfl
    | some j => exact ih j

theorem nodeOn_concat {s : State} {p : List Bool} {b : Bool} {i k : Nat} :
    nodeOn s (p ++ [b]) i = some k ↔ ∃ j, nodeOn s p i = some j ∧ childOn s j b = some k := by
  rw [nodeOn_append, Option.bind_eq_some_iff]
  simp only [nodeOn]
  constructor
  · rintro ⟨j, hj, h⟩; exact ⟨j, hj, by cases hc : childOn s j b <;> simp_all⟩
  · rintro ⟨j, hj, h⟩; exact ⟨j, hj, by simp [h]⟩

theorem childOn_mem {s : State} {i j : Nat} {b : Bool} (h : childOn s i b = some j) : j ∈ childrenAt s i := by
  unfold childOn at h
  unfold childrenAt
  cases hn : cellsGet s.node i with
  | none => simp [hn] at h
  | some n =>
    cases n with
    | leaf f x => simp [hn] at h
    | internal f l r => cases b <;> simp [hn] at h <;> simp [nodeChildren, h]

/-- The leaves under a node are those that strings of digits lead to (R289). -/
theorem TreeOk.mem_leavesOf {s : State} (h : TreeOk s) :
    ∀ i < s.nodeCount, ∀ sym p, (sym, p) ∈ leavesOf s i ↔ ∃ j, nodeOn s p i = some j ∧ isLeafOf s j sym = true := by
  refine h.induct ?_ ?_
  · intro i x _ h1 _ _ sym p
    rw [leavesOf_leaf h1]
    cases p with
    | nil => simp [nodeOn, isLeafOf, h1, eq_comm (a := sym)]
    | cons b p => simp [nodeOn, childOn, h1]
  · intro i l r hi h1 _ hl hr ihl ihr sym p
    rw [h.leavesOf_node hi h1 hl hr]
    cases p with
    | nil => simp [nodeOn, isLeafOf, h1]
    | cons b p =>
      cases b
      · simp [nodeOn, childOn, h1, ← ihl]
      · simp [nodeOn, childOn, h1, ← ihr]

/-- A leaf under a node lies deeper than `n` exactly when the longest of its codes is longer (R283). -/
theorem TreeOk.leafDeeper_iff {s : State} (h : TreeOk s) {i n : Nat} (hi : i < s.nodeCount) :
    LeafDeeper s i n ↔ n < deepest (leavesOf s i) := by
  rw [← not_le, deepest_le_iff]
  simp only [Prod.forall, h.mem_leavesOf i hi, not_forall, not_le, LeafDeeper]
  constructor
  · rintro ⟨p, j, x, h1, h2, h3⟩; exact ⟨x, p, ⟨j, h1, h2⟩, h3⟩
  · rintro ⟨x, p, ⟨j, h1, h2⟩, h3⟩; exact ⟨p, j, x, h1, h2, h3⟩

/-- From a leaf no digit leads on. -/
theorem leaf_end {s : State} {i sym : Nat} (hl : isLeafOf s i sym = true) {p : List Bool} {j : Nat}
    (hp : nodeOn s p i = some j) : p = [] := by
  cases p with
  | nil => rfl
  | cons b p =>
    simp only [nodeOn, Option.bind_eq_some_iff] at hp
    obtain ⟨k, hk, _⟩ := hp
    unfold isLeafOf at hl
    unfold childOn at hk
    cases hn : cellsGet s.node i with
    | none => simp [hn] at hk
    | some n => cases n <;> simp [hn] at hk hl

theorem TreeOk.nodeOn_lt {s : State} (h : TreeOk s) :
    ∀ (p : List Bool) (i j : Nat), i < s.nodeCount → nodeOn s p i = some j → j < s.nodeCount := by
  intro p
  induction p with
  | nil => intro i j hi hj; cases hj; exact hi
  | cons b p ih =>
    intro i j hi hj
    simp only [nodeOn, Option.bind_eq_some_iff] at hj
    obtain ⟨k, hk, hj⟩ := hj
    have := h.child_lt hi (childOn_mem hk)
    exact ih k j (by omega) hj

/-! ## The depth of a node (R292) -/

/-- In a tree with unshared nodes a string of digits is known from where it leads. -/
theorem TreeOk.path_unique {s : State} (h : TreeOk s) {root : Nat}
    (hp : ([root] ++ (cellsValues s.node).flatMap nodeChildren).Perm (List.range s.nodeCount)) :
    ∀ (p q : List Bool) (i : Nat), nodeOn s p root = some i → nodeOn s q root = some i → p = q := by
  rw [children_flatMap h.dense] at hp
  have hroot : root < s.nodeCount := List.mem_range.1 (hp.mem_iff.1 (by simp))
  have hnd : ([root] ++ (List.range s.nodeCount).flatMap (childrenAt s)).Nodup := hp.nodup_iff.2 List.nodup_range
  rw [List.singleton_append, List.nodup_cons, List.nodup_flatMap] at hnd
  obtain ⟨hr, hin, hdis⟩ := hnd
  have hnot : ∀ j < s.nodeCount, root ∉ childrenAt s j := fun j hj hc =>
    hr (List.mem_flatMap.2 ⟨j, List.mem_range.2 hj, hc⟩)
  have hpar : ∀ i j c, i < s.nodeCount → j < s.nodeCount → c ∈ childrenAt s i → c ∈ childrenAt s j → i = j := by
    intro i j c hi hj ci cj
    have key : ∀ a b, a < b → b < s.nodeCount → c ∈ childrenAt s a → c ∈ childrenAt s b → False := by
      intro a b hab hb ca cb
      have := List.pairwise_iff_getElem.1 hdis a b (by simpa using hab.trans hb) (by simpa using hb) hab
      simp only [Function.onFun, List.getElem_range] at this
      exact this ca cb
    rcases Nat.lt_trichotomy i j with hlt | rfl | hlt
    · exact (key i j hlt hj ci cj).elim
    · rfl
    · exact (key j i hlt hi cj ci).elim
  intro p
  induction p using List.reverseRecOn with
  | nil =>
    intro q i h1 h2
    cases h1
    rcases List.eq_nil_or_concat q with rfl | ⟨q, c, rfl⟩
    · rfl
    · rw [List.concat_eq_append, nodeOn_concat] at h2
      obtain ⟨j, hj, hk⟩ := h2
      exact absurd (childOn_mem hk) (hnot j (h.nodeOn_lt q root j hroot hj))
  | append_singleton p b ih =>
    intro q i h1 h2
    obtain ⟨j, hj, hk⟩ := nodeOn_concat.1 h1
    have hjlt := h.nodeOn_lt p root j hroot hj
    rcases List.eq_nil_or_concat q with rfl | ⟨q, c, rfl⟩
    · cases h2
      exact absurd (childOn_mem hk) (hnot j hjlt)
    · rw [List.concat_eq_append] at h2
      obtain ⟨j', hj', hk'⟩ := nodeOn_concat.1 h2
      have hjlt' := h.nodeOn_lt q root j' hroot hj'
      have : j = j' := hpar j j' i hjlt hjlt' (childOn_mem hk) (childOn_mem hk')
      subst this
      rw [ih q j hj hj', List.concat_eq_append]
      congr 2
      have hch := hin j (List.mem_range.2 hjlt)
      rcases h.cases hjlt with ⟨sym, e, _, _⟩ | ⟨l, r, e, _, _, _⟩
      · simp [childOn, e] at hk
      · rw [childrenAt_get e] at hch
        simp only [nodeChildren, List.nodup_cons, List.mem_singleton] at hch
        simp only [childOn, e, Option.some.injEq] at hk hk'
        cases b <;> cases c <;> simp_all

/-- In a tree of greedy merges a node of strictly smaller frequency lies at least as deep (R292). -/
theorem TreeOk.depth_order {s : State} (h : TreeOk s) {root : Nat} (hg : GreedyOrder s [root])
    (hp : ([root] ++ (cellsValues s.node).flatMap nodeChildren).Perm (List.range s.nodeCount)) :
    ∀ (p q : List Bool) (u v : Nat), nodeOn s p root = some u → nodeOn s q root = some v →
      nodeFreqAt s u < nodeFreqAt s v → q.length ≤ p.length := by
  have hroot : root < s.nodeCount := List.mem_range.1 (hp.mem_iff.1 (by simp))
  intro p
  induction p using List.reverseRecOn with
  | nil =>
    intro q u v h1 h2 hlt
    cases h1
    have := h.freq_le_roots hp v (h.nodeOn_lt q root v hroot h2)
    simp at this
    omega
  | append_singleton p b ih =>
    intro q u v h1 h2 hlt
    obtain ⟨j, hj, hk⟩ := nodeOn_concat.1 h1
    have hjlt := h.nodeOn_lt p root j hroot hj
    rcases List.eq_nil_or_concat q with rfl | ⟨q, c, rfl⟩
    · simp
    · rw [List.concat_eq_append] at h2
      obtain ⟨j', hj', hk'⟩ := nodeOn_concat.1 h2
      have hjlt' := h.nodeOn_lt q root j' hroot hj'
      simp only [List.concat_eq_append, List.length_append, List.length_singleton, Nat.add_le_add_iff_right]
      rcases Nat.lt_trichotomy j j' with hjj | rfl | hjj
      · refine ih q j j' hj hj' ?_
        have hord : ∀ x ∈ childrenAt s j, ∀ y ∈ childrenAt s j', nodeFreqAt s x ≤ nodeFreqAt s y :=
          fun x hx y hy => (hg j' hjlt' y hy).1 j hjj x hx
        have hkm := childOn_mem hk
        have hkm' := childOn_mem hk'
        rcases h.cases hjlt with ⟨_, e, _, _⟩ | ⟨l, r, e, _, _, _⟩
        · simp [childOn, e] at hk
        · rcases h.cases hjlt' with ⟨_, e', _, _⟩ | ⟨l', r', e', _, _, _⟩
          · simp [childOn, e'] at hk'
          · rw [node_freq e, node_freq e']
            simp only [childrenAt_get e, childrenAt_get e', nodeChildren, List.mem_cons, List.not_mem_nil, or_false,
              forall_eq_or_imp, forall_eq] at hord hkm hkm'
            obtain ⟨⟨a1, a2⟩, a3, a4⟩ := hord
            rcases hkm with rfl | rfl <;> rcases hkm' with rfl | rfl <;> omega
      · exact (congrArg List.length (h.path_unique hp q p j hj' hj)).le
      · have := (hg j hjlt u (childOn_mem hk)).1 j' hjj v (childOn_mem hk')
        omega

end Sys2Proof.Machine
end

