-- ==== Sys2Proof/Laws/Phase.lean ====
section
/-! SUPPORT. The phases (`10_state.md` R31): what BUILD_INIT, a merge and the finalize step make of the contents of
their phase (`43_tree_builder.md` R246 to R248, R251, R255). -/

namespace Sys2Proof.Machine

/-! ## What the invariants of a phase give -/

theorem treeOk_of_forest {s : State} (ht : FrequencyTable s) {roots : List Nat} (hf : Forest s roots)
    (hc : s.nodeCount ≤ 2 * s.distinct - 1) : TreeOk s := by
  have hd := ht.distinct_le
  refine ⟨hf.1, ?_, hf.2.1, fun x hx => (ht.mem_order.1 hx).1⟩
  unfold Config.nodeMax; omega

theorem MergingPhase.treeOk {s : State} (h : MergingPhase s) (ht : FrequencyTable s) : TreeOk s :=
  treeOk_of_forest ht h.2.2.1 h.2.2.2.2.1

theorem orderList_nodup {s : State} (h : FrequencyTable s) : (orderList s).Nodup :=
  h.2.2.1.nodup_iff.2 (presentSymbols_nodup s)

/-- The counts of the listed symbols sum to TOTAL (R38, R253). -/
theorem order_sum {s : State} (h : FrequencyTable s) : ((orderList s).map (freqRead s)).sum = s.total := by
  rw [(h.2.2.1.map (freqRead s)).sum_eq, h.2.2.2.1, presentSymbols, freqSum]
  induction List.range s.config.dMax with
  | nil => rfl
  | cons x l ih =>
    by_cases hx : 0 < freqRead s x
    · simp [hx, ih]
    · have : freqRead s x = 0 := by omega
      simp [this, ih]

theorem MergingPhase.item_lt {s : State} (h : MergingPhase s) {x : Nat} (hx : x ∈ heapItems s) : x < s.nodeCount :=
  List.mem_range.1 (h.2.2.1.2.2.1.mem_iff.1 (List.mem_append_left _ hx))

/-- In MERGING the queue is a heap whose items have keys (R211). -/
theorem MergingPhase.isQueue {s : State} (h : MergingPhase s) (ht : FrequencyTable s) : IsQueue s := by
  have htree := h.treeOk ht
  refine ⟨h.1, ?_, h.2.1⟩
  intro x hx
  have hlt := h.item_lt hx
  have hs := htree.size
  rcases htree.cases hlt with ⟨_, e, _, _⟩ | ⟨_, _, e, _, _, _⟩ <;> exact nodeKey_of_get (by omega) e

/-- The capacity law (R251). -/
theorem MergingPhase.counts {s : State} (h : MergingPhase s) (ht : FrequencyTable s) :
    s.heapCount ≤ s.distinct ∧ s.heapCount ≤ s.config.heapMax ∧ s.nodeCount + s.heapCount = 2 * s.distinct ∧
      (1 < s.heapCount → s.nodeCount < s.config.nodeMax) := by
  have hd := ht.distinct_le
  obtain ⟨_, _, _, h1, h2, h3, _⟩ := h
  unfold Config.heapMax Config.nodeMax
  omega

/-! ## Fields that do not matter -/

theorem freqSum_congr {s t : State} (h : t.freq = s.freq) (hc : t.config = s.config) : freqSum t = freqSum s := by
  simp [freqSum, freqRead_congr h, hc]

theorem FrequencyTable.congr {s t : State} (h : FrequencyTable s) (h1 : t.freq = s.freq) (h2 : t.order = s.order)
    (h3 : t.distinct = s.distinct) (h4 : t.total = s.total) (h5 : t.config = s.config) : FrequencyTable t := by
  obtain ⟨a, b, c, d, e⟩ := h
  refine ⟨by rw [h1, h5]; exact a, by rw [h2, h3]; exact b, ?_, by rw [h4, freqSum_congr h1 h5]; exact d,
    by rw [h4, h5]; exact e⟩
  simpa [orderList, presentSymbols, freqRead_congr h1, h2, h5] using c

theorem nodeOk_congr {s t : State} (h1 : t.freq = s.freq) (h2 : t.order = s.order) (h3 : t.distinct = s.distinct)
    {i : Nat} (hg : cellsGet t.node i = cellsGet s.node i) (hf : ∀ l < i, nodeFreqAt t l = nodeFreqAt s l) :
    nodeOk t i = nodeOk s i := by
  unfold nodeOk
  rw [hg]
  cases cellsGet s.node i with
  | none => rfl
  | some n =>
    cases n with
    | leaf f x => simp only [h2, h3, freqRead_congr h1]
    | internal f l r =>
      simp only [h3]
      by_cases hl : l < i
      · by_cases hr : r < i
        · rw [hf l hl, hf r hr]
        · simp [hr]
      · simp [hl]

theorem Forest.congr {s t : State} {roots : List Nat} (h : Forest s roots) (h1 : t.freq = s.freq)
    (h2 : t.order = s.order) (h3 : t.distinct = s.distinct) (h4 : t.total = s.total) (h5 : t.node = s.node)
    (h6 : t.nodeCount = s.nodeCount) : Forest t roots := by
  obtain ⟨a, b, c, d, e⟩ := h
  refine ⟨by rw [h5, h6]; exact a, ?_, by rw [h5, h6]; exact c, by rw [h4, nodeFreqAt_congr h5]; exact d, ?_⟩
  · intro i hi
    rw [nodeOk_congr h1 h2 h3 (by rw [h5]) (fun l _ => by rw [nodeFreqAt_congr h5])]
    exact b i (by omega)
  · have : childrenAt t = childrenAt s := by funext i; simp [childrenAt, h5]
    simpa [GreedyOrder, h6, this, nodeFreqAt_congr h5] using e

theorem MergingPhase.congr {s t : State} (h : MergingPhase s) (h1 : t.freq = s.freq)
    (h2 : t.order = s.order) (h3 : t.distinct = s.distinct) (h4 : t.total = s.total) (h5 : t.node = s.node)
    (h6 : t.nodeCount = s.nodeCount) (h7 : t.heap = s.heap) (h8 : t.heapCount = s.heapCount) (h9 : t.root = s.root)
    (h10 : t.rootValid = s.rootValid) (h11 : t.rom = s.rom) (h12 : t.maxLen = s.maxLen) : MergingPhase t := by
  obtain ⟨a, b, c, d, e, f, g⟩ := h
  have hi : heapItems t = heapItems s := by simp [heapItems, h7]
  refine ⟨by rw [h7, h8]; exact a, ?_, ?_, by omega, by omega, by omega, ?_⟩
  · simpa [HeapOrdered, h8, nodeFreqAt_congr h5, heapItem, h7] using b
  · rw [hi]; exact c.congr h1 h2 h3 h4 h5 h6
  · simpa [NoResult, h9, h10, h11, h12] using g

/-! ## BUILD_INIT (R246) -/

/-- BUILD_INIT's body in LOAD: it completes, and the leaves are a forest of d roots, all in the queue. -/
theorem buildInitBody_spec {s : State} (ht : FrequencyTable s) (hl : LoadPhase s) :
    ∃ t, buildInitBody s = .ok t ∧
      t = { s with phase := .merging, node := t.node, nodeCount := s.distinct, heap := t.heap, heapCount := s.distinct } ∧
      (∀ i < s.distinct, cellsGet t.node i = some (leafAt s i)) ∧
      (∃ f, f 0 = [] ∧ f s.distinct = heapItems t ∧ LeafLayouts (nodeFreqAt t) f 0 s.distinct) ∧ MergingPhase t := by
  obtain ⟨l1, l2, l3, l4, l5⟩ := hl
  have hq : IsQueue s := by
    refine ⟨by rw [l3, l4]; rfl, ?_, ?_⟩
    · intro x hx; simp [heapItems, l3, cellsValues] at hx
    · intro k hk; omega
  obtain ⟨u, e, hu, hd, hleaf, hqu, hp, f, hf0, hfN, hf⟩ := initLeaves_spec ht.distinct_le ht.2.1 s.distinct 0 s (by omega)
    (by rw [l4.symm]) (by rw [l1]; rfl) (by omega) hq (by simp [heapItems, l3, cellsValues])
  have hq' : IsQueue { u with nodeCount := s.distinct, phase := .merging } := hqu.congr rfl rfl rfl rfl
  have hcount : u.heapCount = s.distinct := by rw [hu]
  have hfreq : u.freq = s.freq := by rw [hu]
  have hlen : (orderList s).length = s.distinct := cellsDense_length ht.2.1
  have hchild : ∀ i < s.distinct, childrenAt u i = [] := by
    intro i hi; simp [childrenAt, hleaf i hi, leafAt, nodeChildren]
  have hnf : ∀ i < s.distinct, nodeFreqAt u i = freqRead s (itemAt (orderList s) i) := by
    intro i hi; simp [nodeFreqAt, hleaf i hi, leafAt, nodeFreq]
  refine ⟨{ u with nodeCount := s.distinct, phase := .merging }, by simp only [buildInitBody, e, ok_bind], ?_, hleaf,
    ⟨f, ?_, hfN, ?_⟩, ?_⟩
  · rw [hu]
  · rw [hf0]; simp [heapItems, l3, cellsValues]
  · intro j hj hjN
    obtain ⟨h1, h2⟩ := hf j hj hjN
    have hk : ∀ i ≤ j, nodeFreqAt u i = nodeFreq (leafAt s i) := fun i hi => hnf i (by omega)
    exact ⟨h1, h2.congr (hk j le_rfl) (fun x hx => hk x (List.mem_range.1 (h1.mem_iff.1 hx)).le)⟩
  · refine ⟨hq'.dense, hq'.ordered, ⟨hd, ?_, ?_, ?_, ?_⟩, ?_, ?_, ?_, ?_⟩
    · intro i hi
      have hi' : i < s.distinct := hi
      have hd' : u.distinct = s.distinct := by rw [hu]
      have ho' : u.order = s.order := by rw [hu]
      have hg : cellsGet s.order i = some (itemAt (orderList s) i) := cellsGet_itemAt ht.2.1 hi'
      simp [nodeOk, hleaf i hi', leafAt, hd', ho', hg, hi']
      simp [freqRead, hfreq]
    · have h0 : (cellsValues u.node).flatMap nodeChildren = [] := by
        rw [List.flatMap_eq_nil_iff]
        intro n hn
        obtain ⟨i, hi, rfl⟩ := List.getElem_of_mem hn
        have hi' : i < s.distinct := by rw [← cellsDense_length hd]; exact hi
        have := hleaf i hi'
        rw [cellsGet_dense hd, List.getElem?_eq_getElem hi, Option.some.injEq] at this
        rw [this]; rfl
      simp only [h0, List.append_nil]
      exact hp
    · have hp' : (heapItems u).Perm (List.range s.distinct) := hp
      have htot : u.total = s.total := by rw [hu]
      change ((heapItems u).map (nodeFreqAt u)).sum = u.total
      rw [(hp'.map (nodeFreqAt u)).sum_eq, htot, ← order_sum ht]
      congr 1
      apply List.ext_getElem
      · simp [hlen]
      · intro n h1 h2
        have hn : n < s.distinct := by simpa using h1
        simp only [List.getElem_map, List.getElem_range, hnf n hn]
        simp [itemAt, hlen, hn]
    · intro j hj c hc
      have hj' : j < s.distinct := hj
      have hc' : c ∈ childrenAt u j := hc
      simp [hchild j hj'] at hc'
    · change s.distinct + u.heapCount = 2 * u.distinct
      rw [hcount, show u.distinct = s.distinct by rw [hu]]; omega
    · change s.distinct ≤ 2 * u.distinct - 1 
      rw [show u.distinct = s.distinct by rw [hu]]; omega
    · change u.distinct ≤ s.distinct
      rw [show u.distinct = s.distinct by rw [hu]]
    · rw [hu]; exact l5

/-! ## The merge step (R247) -/

theorem nodeFreqAt_set {s t : State} {k : Nat} {n : NodeRecord} (h : t.node = cellsSet s.node k n) (i : Nat) :
    nodeFreqAt t i = if i = k then nodeFreq n else nodeFreqAt s i := by
  simp only [nodeFreqAt, h, cellsGet_set]
  split_ifs <;> rfl

theorem childrenAt_set {s t : State} {k : Nat} {n : NodeRecord} (h : t.node = cellsSet s.node k n) (i : Nat) :
    childrenAt t i = if i = k then nodeChildren n else childrenAt s i := by
  simp only [childrenAt, h, cellsGet_set]
  split_ifs <;> rfl

/-- A merge in MERGING: it completes, it writes the next node, and the forest has one root fewer (R241, R242, R251). -/
theorem MergingPhase.merge {s : State} (hm : MergingPhase s) (ht : FrequencyTable s) (h2 : 1 < s.heapCount) :
    ∃ x y rest h', merge s = .ok (s.nodeCount, { s with
          node := cellsSet s.node s.nodeCount (.internal (nodeFreqAt s x + nodeFreqAt s y) x y)
          nodeCount := s.nodeCount + 1, heap := h', heapCount := s.heapCount - 1 }) ∧
      x = heapItem s 0 ∧ (heapItems s).Perm (x :: y :: rest) ∧ (∀ z ∈ heapItems s, nodeFreqAt s x ≤ nodeFreqAt s z) ∧
      (∀ z ∈ rest, nodeFreqAt s y ≤ nodeFreqAt s z) ∧ (cellsValues h').Perm (s.nodeCount :: rest) ∧
      MergedLayout (nodeFreqAt s) (nodeFreqAt { s with
          node := cellsSet s.node s.nodeCount (.internal (nodeFreqAt s x + nodeFreqAt s y) x y) })
        (heapItems s) y s.nodeCount (cellsValues h') ∧
      MergingPhase { s with
          node := cellsSet s.node s.nodeCount (.internal (nodeFreqAt s x + nodeFreqAt s y) x y)
          nodeCount := s.nodeCount + 1, heap := h', heapCount := s.heapCount - 1 } := by
  have hc := hm.counts ht
  obtain ⟨x, y, rest, h', e, hx, hp, hmin, hmin2, hp', hlay, hq⟩ := merge_spec (hm.isQueue ht) h2 hc.2.1 (hc.2.2.2 h2)
    (fun x hx => hm.item_lt hx)
  refine ⟨x, y, rest, h', e, hx, hp, hmin, hmin2, hp', hlay, ?_⟩
  obtain ⟨-, -, ⟨hd, hok, hperm, hsum, hgreedy⟩, c1, c2, c3, hno⟩ := hm
  have hxm : x ∈ heapItems s := hp.mem_iff.2 (by simp)
  have hym : y ∈ heapItems s := hp.mem_iff.2 (by simp)
  have hrm : ∀ z ∈ rest, z ∈ heapItems s := fun z hz => hp.mem_iff.2 (by simp [hz])
  have hlt : ∀ z ∈ heapItems s, z < s.nodeCount := fun z hz =>
    List.mem_range.1 (hperm.mem_iff.1 (List.mem_append_left _ hz))
  obtain ⟨d1, v1⟩ := cellsDense_append hd (NodeRecord.internal (nodeFreqAt s x + nodeFreqAt s y) x y)
  have hget : ∀ i, i ≠ s.nodeCount → cellsGet (cellsSet s.node s.nodeCount
      (NodeRecord.internal (nodeFreqAt s x + nodeFreqAt s y) x y)) i = cellsGet s.node i :=
    fun i hi => cellsGet_set_other _ _ hi
  set t : State := { s with
      node := cellsSet s.node s.nodeCount (.internal (nodeFreqAt s x + nodeFreqAt s y) x y)
      nodeCount := s.nodeCount + 1, heap := h', heapCount := s.heapCount - 1 } with htdef
  have hf : ∀ i < s.nodeCount, nodeFreqAt t i = nodeFreqAt s i := by
    intro i hi; rw [nodeFreqAt_set (s := s) (t := t) rfl, if_neg (by omega)]
  have hfn : nodeFreqAt t s.nodeCount = nodeFreqAt s x + nodeFreqAt s y := by
    rw [nodeFreqAt_set (s := s) (t := t) rfl, if_pos rfl]; rfl
  have hch : ∀ i < s.nodeCount, childrenAt t i = childrenAt s i := by
    intro i hi; rw [childrenAt_set (s := s) (t := t) rfl, if_neg (by omega)]
  have hchn : childrenAt t s.nodeCount = [x, y] := by rw [childrenAt_set (s := s) (t := t) rfl, if_pos rfl]; rfl
  have hclt : ∀ i < s.nodeCount, ∀ c ∈ childrenAt s i, c < s.nodeCount := by
    intro i hi c hc
    have : c ∈ heapItems s ++ (cellsValues s.node).flatMap nodeChildren := by
      rw [children_flatMap hd]
      exact List.mem_append_right _ (List.mem_flatMap.2 ⟨i, List.mem_range.2 hi, hc⟩)
    exact List.mem_range.1 (hperm.mem_iff.1 this)
  have hitems : heapItems t = cellsValues h' := rfl
  refine ⟨hq.dense, hq.ordered, ⟨d1, ?_, ?_, ?_, ?_⟩, by change _ + _ = 2 * s.distinct; simp only [htdef]; omega,
    by change s.nodeCount + 1 ≤ 2 * s.distinct - 1; omega, by change s.distinct ≤ s.nodeCount + 1; omega, hno⟩
  · intro i hi
    have hi' : i < s.nodeCount + 1 := hi
    by_cases hin : i = s.nodeCount
    · subst hin
      have hxl := hlt x hxm
      have hyl := hlt y hym
      have hn : cellsGet t.node s.nodeCount = some (.internal (nodeFreqAt s x + nodeFreqAt s y) x y) := by simp [htdef]
      simp only [nodeOk, hn, hf x hxl, hf y hyl]
      simp [htdef, c3, hxl, hyl]
    · rw [show nodeOk t i = nodeOk s i from nodeOk_congr (by rfl) (by rfl) (by rfl) (hget i hin) (fun l hl => hf l (by omega))]
      exact hok i (by omega)
  · rw [hitems]
    change (cellsValues h' ++ (cellsValues (cellsSet s.node s.nodeCount _)).flatMap nodeChildren).Perm
      (List.range (s.nodeCount + 1))
    rw [v1, List.flatMap_append, List.flatMap_singleton, List.range_succ]
    refine (hp'.append_right _).trans ?_
    refine List.Perm.trans ?_ (List.perm_append_comm (l₁ := [s.nodeCount]))
    rw [List.cons_append, List.singleton_append]
    refine List.Perm.cons _ ?_
    refine List.Perm.trans ?_ hperm
    refine List.Perm.trans ?_ (hp.symm.append_right _)
    change (rest ++ (_ ++ [x, y])).Perm ([x, y] ++ rest ++ _)
    apply Multiset.coe_eq_coe.1
    simp only [← Multiset.coe_add]
    abel
  · rw [hitems, (hp'.map (nodeFreqAt t)).sum_eq]
    change _ = s.total
    rw [← hsum, (hp.map (nodeFreqAt s)).sum_eq]
    simp only [List.map_cons, List.sum_cons, hfn]
    rw [List.map_congr_left (fun z hz => hf z (hlt z (hrm z hz)))]
    omega
  · intro j hj c hcj
    have hj' : j < s.nodeCount + 1 := hj
    have hroots : ∀ r, r ∈ heapItems t → r = s.nodeCount ∨ r ∈ rest := by
      intro r hr
      have := hp'.mem_iff.1 (show r ∈ cellsValues h' from hr)
      simpa using this
    by_cases hjn : j = s.nodeCount
    · subst hjn
      rw [hchn] at hcj
      have hcm : c ∈ heapItems s := by
        simp only [List.mem_cons, List.not_mem_nil, or_false] at hcj
        rcases hcj with rfl | rfl <;> assumption
      constructor
      · intro i hi b hb
        rw [hch i hi] at hb
        rw [hf b (hclt i hi b hb), hf c (hlt c hcm)]
        exact (hgreedy i hi b hb).2 c hcm
      · intro r hr
        rw [hf c (hlt c hcm)]
        simp only [List.mem_cons, List.not_mem_nil, or_false] at hcj
        rcases hroots r hr with rfl | hr'
        · rw [hfn]; rcases hcj with rfl | rfl <;> omega
        · rw [hf r (hlt r (hrm r hr'))]
          rcases hcj with rfl | rfl
          · exact hmin r (hrm r hr')
          · exact hmin2 r hr'
    · have hjl : j < s.nodeCount := by omega
      rw [hch j hjl] at hcj
      have hcl := hclt j hjl c hcj
      constructor
      · intro i hi b hb
        rw [hch i (by omega)] at hb
        rw [hf b (hclt i (by omega) b hb), hf c hcl]
        exact (hgreedy j hjl c hcj).1 i hi b hb
      · intro r hr
        rw [hf c hcl]
        rcases hroots r hr with rfl | hr'
        · rw [hfn]
          have := (hgreedy j hjl c hcj).2 x hxm
          omega
        · rw [hf r (hlt r (hrm r hr'))]
          exact (hgreedy j hjl c hcj).2 r (hrm r hr')

/-- BUILD's merges in MERGING (R250): they complete, and at most one item is left. -/
theorem MergingPhase.mergeAll : ∀ (fuel : Nat) {s : State}, MergingPhase s → FrequencyTable s → s.heapCount ≤ fuel →
    ∃ t, mergeAll fuel s = .ok t ∧ MergingPhase t ∧ FrequencyTable t ∧ t.heapCount ≤ 1 ∧
      t = { s with node := t.node, nodeCount := t.nodeCount, heap := t.heap, heapCount := t.heapCount } := by
  intro fuel
  induction fuel with
  | zero => intro s hm ht hc; exact ⟨s, rfl, hm, ht, by omega, rfl⟩
  | succ fuel ih =>
    intro s hm ht hc
    by_cases h2 : 1 < s.heapCount
    · obtain ⟨x, y, rest, h', e, -, -, -, -, -, -, hm'⟩ := hm.merge ht h2
      obtain ⟨t, e2, h3, h4, h5, h6⟩ := ih hm' (ht.congr rfl rfl rfl rfl rfl) (by simp only; omega)
      refine ⟨t, ?_, h3, h4, h5, by rw [h6]⟩
      simp only [Machine.mergeAll, queueCount, if_pos h2, e, ok_bind, e2]
    · refine ⟨s, ?_, hm, ht, by omega, rfl⟩
      simp only [Machine.mergeAll, queueCount]
      exact if_neg h2

/-! ## The finalize step (R248) -/

/-- In MERGING with one item left, it is the last node written, and the tree under it has every symbol (R255, R256). -/
theorem MergingPhase.last {s : State} (hm : MergingPhase s) (ht : FrequencyTable s) (h1 : s.heapCount = 1) :
    0 < s.distinct ∧ s.nodeCount = 2 * s.distinct - 1 ∧ s.heap = [(0, 2 * s.distinct - 2)] ∧
      ((leavesOf s (2 * s.distinct - 2)).map Prod.fst).Perm (orderList s) := by
  have htree := hm.treeOk ht
  obtain ⟨hdense, -, ⟨hd, hok, hperm, hsum, hgreedy⟩, c1, c2, c3, hno⟩ := hm
  have hpos : 0 < s.distinct := by omega
  have hcount : s.nodeCount = 2 * s.distinct - 1 := by omega
  obtain ⟨r, hr⟩ : ∃ r, s.heap = [(0, r)] := by
    rw [h1] at hdense
    cases hh : s.heap with
    | nil => simp [cellsDense, hh] at hdense
    | cons e l =>
      obtain ⟨k, v⟩ := e
      simp only [cellsDense, hh, List.map_cons, List.range_one, List.cons.injEq, List.map_eq_nil_iff] at hdense
      obtain ⟨rfl, rfl⟩ := hdense
      exact ⟨v, rfl⟩
  have hitems : heapItems s = [r] := by simp [heapItems, hr, cellsValues]
  rw [hitems] at hperm
  have hroot : r = 2 * s.distinct - 2 := by
    have hm : s.nodeCount - 1 ∈ [r] ++ (cellsValues s.node).flatMap nodeChildren :=
      hperm.mem_iff.2 (List.mem_range.2 (by omega))
    rcases List.mem_append.1 hm with h | h
    · simp at h; omega
    · rw [children_flatMap hd] at h
      obtain ⟨j, hj, hc⟩ := List.mem_flatMap.1 h
      have hj' := List.mem_range.1 hj
      have := htree.child_lt hj' hc
      omega
  refine ⟨hpos, hcount, by rw [hr, hroot], ?_⟩
  have := htree.roots_leaves ht.2.1 c3 hperm
  rw [List.flatMap_singleton, hroot] at this
  exact this

/-- What the finalize step does in MERGING with at most one item: without a symbol it ends with no root; with one item
it raises CODE_TOO_LONG where a leaf lies deeper than LMAX, and otherwise fills the ROM (R248, R283). -/
theorem MergingPhase.finalize {s : State} (hm : MergingPhase s) (ht : FrequencyTable s) (h1 : s.heapCount ≤ 1) :
    (s.distinct = 0 ∧ s.heapCount = 0 ∧ finalize s = .ok (.respond (finalizeData false 0), { s with phase := .built }) ∧
        BuiltPhase { s with phase := .built }) ∨
      (0 < s.distinct ∧ s.heapCount = 1 ∧ s.config.lmax < deepest (leavesOf s (2 * s.distinct - 2)) ∧
        finalize s = .ok (.raise .codeTooLong, s)) ∨
      (0 < s.distinct ∧ s.heapCount = 1 ∧ deepest (leavesOf s (2 * s.distinct - 2)) ≤ s.config.lmax ∧
        ∃ t, finalize s = .ok (.respond (finalizeData true (2 * s.distinct - 2)), t) ∧
          t = { s with heap := [], heapCount := 0, root := 2 * s.distinct - 2, rootValid := true,
                       rom := recordLeaves [] (leavesOf s (2 * s.distinct - 2)) [],
                       maxLen := deepest (leavesOf s (2 * s.distinct - 2)), phase := .built } ∧
          BuiltPhase t) := by
  have htree := hm.treeOk ht
  have hcounts := hm.counts ht
  rcases Nat.eq_zero_or_pos s.heapCount with h0 | hpos
  · left
    obtain ⟨hdense, -, ⟨hd, -, -, -, -⟩, c1, c2, c3, hno⟩ := hm
    have hz : s.distinct = 0 := by omega
    have hn : s.nodeCount = 0 := by omega
    have hheap : s.heap = [] := by
      have : s.heap.map Prod.fst = [] := by unfold cellsDense at hdense; rw [hdense, h0]; rfl
      simpa using this
    have hnode : s.node = [] := by
      have : s.node.map Prod.fst = [] := by unfold cellsDense at hd; rw [hd, hn]; rfl
      simpa using this
    obtain ⟨n1, n2, n3, n4⟩ := hno
    refine ⟨hz, h0, ?_, hheap, h0, by simp only; omega, fun _ => ⟨hnode, n1, n2, n3, n4⟩, ?_⟩
    · have hs : { s with root := 0, rootValid := false, rom := [], maxLen := 0, phase := .built } =
          { s with phase := .built } := by simp only [State.mk.injEq]; simp [n1, n2, n3, n4]
      rw [Machine.finalize, queueCount, if_neg (by omega), hs]
    · intro h; simp only at h; omega
  · right
    have h1' : s.heapCount = 1 := by omega
    obtain ⟨hdpos, hcount, hheap, hleaves⟩ := hm.last ht h1'
    have hroot : 2 * s.distinct - 2 < s.nodeCount := by omega
    have hnd : ((leavesOf s (2 * s.distinct - 2)).map Prod.fst).Nodup := hleaves.nodup_iff.2 (orderList_nodup ht)
    have hrom := htree.romOf_eq hroot hnd
    have hget : heapRead s 0 = .ok (2 * s.distinct - 2) := by
      rw [heapRead, arrayRead_ok_iff]
      refine ⟨?_, by simp [hheap, cellsGet]⟩
      have := hcounts.2.1
      omega
    by_cases hdeep : s.config.lmax < deepest (leavesOf s (2 * s.distinct - 2))
    · left
      refine ⟨hdpos, h1', hdeep, ?_⟩
      rw [if_pos hdeep] at hrom
      simp only [Machine.finalize, queueCount, h1', if_true, hget, ok_bind, hrom]
    · right
      refine ⟨hdpos, h1', by omega, _, ?_, rfl, ?_⟩
      · rw [if_neg hdeep] at hrom
        have hdeq : dequeue s = .ok (2 * s.distinct - 2, { s with heap := [], heapCount := 0 }) := by
          have hr0 : arrayRead .heap s.config.heapMax s.heap 0 = .ok (2 * s.distinct - 2) := hget
          have he : cellsErase s.heap 0 = [] := by simp [hheap, cellsErase]
          simp only [dequeue, h1', hr0, ok_bind, he]
          rfl
        simp only [Machine.finalize, queueCount, h1', if_true, hget, ok_bind, hrom, hdeq]
      · refine ⟨rfl, rfl, hcount, fun h => ?_, fun _ => ⟨rfl, rfl, ?_, ?_⟩⟩
        · simp only at h; omega
        · have hitems : heapItems s = [2 * s.distinct - 2] := by simp [heapItems, hheap, cellsValues]
          have := hm.2.2.1
          rw [hitems] at this
          exact this.congr rfl rfl rfl rfl rfl rfl
        · have htree' : TreeOk { s with
              heap := [], heapCount := 0, root := 2 * s.distinct - 2, rootValid := true,
              rom := recordLeaves [] (leavesOf s (2 * s.distinct - 2)) [],
              maxLen := deepest (leavesOf s (2 * s.distinct - 2)), phase := .built } := by
            have hitems : heapItems s = [2 * s.distinct - 2] := by simp [heapItems, hheap, cellsValues]
            have hf := hm.2.2.1
            rw [hitems] at hf
            exact treeOk_of_forest (roots := [2 * s.distinct - 2]) (ht.congr rfl rfl rfl rfl rfl)
              (hf.congr rfl rfl rfl rfl rfl rfl) (by simp only; omega)
          have hcong : ∀ i, leavesOf { s with
              heap := [], heapCount := 0, root := 2 * s.distinct - 2, rootValid := true,
              rom := recordLeaves [] (leavesOf s (2 * s.distinct - 2)) [],
              maxLen := deepest (leavesOf s (2 * s.distinct - 2)), phase := .built } i = leavesOf s i :=
            fun i => leavesOf_congr (by rfl) i
          have := htree'.romOf_eq (i := 2 * s.distinct - 2) hroot (by rw [hcong]; exact hnd)
          rw [hcong, if_neg hdeep] at this
          simp only [romIsOfRoot, this, decide_true, Bool.and_self]

/-! ## BUILT (R255, R282) -/

theorem BuiltPhase.treeOk {s : State} (h : BuiltPhase s) (ht : FrequencyTable s) (hd : 0 < s.distinct) : TreeOk s :=
  treeOk_of_forest ht (h.2.2.2.2 hd).2.2.1 (by have := h.2.2.1; omega)

/-- In BUILT the ROM records the leaves under ROOT: each listed symbol once, with its path as its code (R282). -/
theorem BuiltPhase.rom {s : State} (h : BuiltPhase s) (ht : FrequencyTable s) (hd : 0 < s.distinct) :
    ((leavesOf s s.root).map Prod.fst).Perm (orderList s) ∧ s.rom = recordLeaves [] (leavesOf s s.root) [] ∧
      s.maxLen = deepest (leavesOf s s.root) ∧ s.maxLen ≤ s.config.lmax := by
  have htree := h.treeOk ht hd
  obtain ⟨_, _, hcount, _, hb⟩ := h
  obtain ⟨_, hroot, hf, hrom⟩ := hb hd
  have hlt : s.root < s.nodeCount := by omega
  have hp := htree.roots_leaves ht.2.1 (by omega) hf.2.2.1
  rw [List.flatMap_singleton] at hp
  refine ⟨hp, ?_⟩
  have he := htree.romOf_eq hlt (hp.nodup_iff.2 (orderList_nodup ht))
  simp only [romIsOfRoot, he] at hrom
  by_cases hdeep : s.config.lmax < deepest (leavesOf s s.root)
  · simp [hdeep] at hrom
  · simp only [if_neg hdeep, Bool.and_eq_true, decide_eq_true_eq] at hrom
    exact ⟨hrom.1.symm, hrom.2.symm, by omega⟩

/-- The ROM's entry of a listed symbol (R281, R286). -/
theorem BuiltPhase.entry {s : State} (h : BuiltPhase s) (ht : FrequencyTable s) {x : Nat} (hx : x ∈ orderList s) :
    ∃ p, (x, p) ∈ leavesOf s s.root ∧ romRead s x = codeEntry p := by
  have hd : 0 < s.distinct := by
    have := cellsDense_length ht.2.1
    have : 0 < (orderList s).length := List.length_pos_of_mem hx
    simp only [orderList] at *; omega
  obtain ⟨hp, hrom, -, -⟩ := h.rom ht hd
  have hm : x ∈ (leavesOf s s.root).map Prod.fst := hp.mem_iff.2 hx
  obtain ⟨⟨y, p⟩, hmem, rfl⟩ := List.mem_map.1 hm
  refine ⟨p, hmem, ?_⟩
  have := recordLeaves_get (path := []) (rom := []) (hp.nodup_iff.2 (orderList_nodup ht)) hmem
  simp only [romRead, cellsAt, hrom, this, List.nil_append, Option.getD_some]

/-- A symbol that is not listed has no code (R286). -/
theorem BuiltPhase.no_entry {s : State} (h : BuiltPhase s) (ht : FrequencyTable s) {x : Nat} (hx : x ∉ orderList s) :
    romRead s x = RomEntry.zero := by
  rcases Nat.eq_zero_or_pos s.distinct with h0 | hd
  · have := ((h.2.2.2.1 h0).2).2.2.1
    simp [romRead, cellsAt, this, cellsGet]
  · obtain ⟨hp, hrom, -, -⟩ := h.rom ht hd
    have hm : x ∉ (leavesOf s s.root).map Prod.fst := fun hm => hx (hp.mem_iff.1 hm)
    have := recordLeaves_get_other (path := []) (rom := ([] : Cells RomEntry)) hm
    simp only [romRead, cellsAt, hrom, this, cellsGet, Option.getD_none]

end Sys2Proof.Machine
end

