-- ==== Sys2Proof/Laws/Bounds.lean ====
section
/-! SUPPORT. The sizes that the invariant gives (`00_scope.md` R7, `43_tree_builder.md` R251, R253, R255): what keeps
every value within its field. -/

namespace Sys2Proof.Machine

theorem legal_bounds {c : Config} (h : c.legal = true) :
    (1 ≤ c.symW ∧ c.symW ≤ 16) ∧ (1 ≤ c.freqW ∧ c.freqW ≤ 32) ∧ (1 ≤ c.lmax ∧ c.lmax ≤ 65535) := by
  simp only [Config.legal, Bool.and_eq_true, decide_eq_true_eq] at h; omega

theorem two_pow_le {a b : Nat} (h : a ≤ b) : 2 ^ a ≤ 2 ^ b := Nat.pow_le_pow_right (by decide) h

theorem dMax_le {c : Config} (h : c.legal = true) : 0 < c.dMax ∧ c.dMax ≤ 2 ^ 16 :=
  ⟨Nat.pow_pos (by decide), two_pow_le (legal_bounds h).1.2⟩

theorem nodeW_pow (c : Config) : 2 ^ c.nodeW = 2 * c.dMax := by
  unfold Config.nodeW Config.dMax; rw [pow_succ]; omega

theorem fmax_lt {c : Config} {v : Nat} (h : v ≤ c.fmax) : v < 2 ^ c.freqW := by
  have : 0 < 2 ^ c.freqW := Nat.pow_pos (by decide)
  unfold Config.fmax at h; omega

/-- The sizes of a state in the invariant. -/
structure Bounds (s : State) : Prop where
  legal : s.config.legal = true
  table : FrequencyTable s
  distinct : s.distinct ≤ s.config.dMax
  total : s.total < 2 ^ s.config.freqW
  nodes : s.nodeCount ≤ 2 * s.distinct - 1
  heap : s.heapCount ≤ s.distinct
  root : s.root ≤ 2 * s.distinct - 2
  maxLen : s.maxLen ≤ s.config.lmax

/-- What a phase says of the rest of the state (R31). -/
theorem Inv.phase {s : State} (h : Inv s) :
    (s.phase = .load ∧ LoadPhase s) ∨ (s.phase = .merging ∧ MergingPhase s) ∨ (s.phase = .built ∧ BuiltPhase s) := by
  have hp := h.2.2.2.1
  unfold phaseContents at hp
  cases hph : s.phase <;> simp only [hph, decide_eq_true_eq] at hp
  · exact .inl ⟨rfl, hp⟩
  · exact .inr (.inl ⟨rfl, hp⟩)
  · exact .inr (.inr ⟨rfl, hp⟩)

theorem Inv.load {s : State} (h : Inv s) (hp : s.phase = .load) : LoadPhase s := by
  rcases Inv.phase h with ⟨h1, h2⟩ | ⟨h1, h2⟩ | ⟨h1, h2⟩
  · exact h2
  · rw [hp] at h1; cases h1
  · rw [hp] at h1; cases h1

theorem Inv.merging {s : State} (h : Inv s) (hp : s.phase = .merging) : MergingPhase s := by
  rcases Inv.phase h with ⟨h1, h2⟩ | ⟨h1, h2⟩ | ⟨h1, h2⟩
  · rw [hp] at h1; cases h1
  · exact h2
  · rw [hp] at h1; cases h1

theorem Inv.built {s : State} (h : Inv s) (hp : s.phase = .built) : BuiltPhase s := by
  rcases Inv.phase h with ⟨h1, h2⟩ | ⟨h1, h2⟩ | ⟨h1, h2⟩
  · rw [hp] at h1; cases h1
  · rw [hp] at h1; cases h1
  · exact h2

/-- Only in MERGING does the queue hold an item (R218). -/
theorem Inv.merging_of_item {s : State} (h : Inv s) (hc : 0 < s.heapCount) : s.phase = .merging := by
  rcases Inv.phase h with ⟨h1, h2⟩ | ⟨h1, h2⟩ | ⟨h1, h2⟩
  · have := h2.2.2.2.1; omega
  · exact h1
  · have := h2.2.1; omega

theorem Inv.bounds {s : State} (h : Inv s) : Bounds s := by
  have hl := h.1
  have ht := h.2.2.1
  have hd := FrequencyTable.distinct_le ht
  have htot : s.total < 2 ^ s.config.freqW := fmax_lt ht.2.2.2.2
  rcases Inv.phase h with ⟨-, hp⟩ | ⟨-, hp⟩ | ⟨-, hp⟩
  · obtain ⟨_, h1, _, h2, h3, h4, h5, h6⟩ := hp
    exact ⟨hl, ht, hd, htot, by omega, by omega, by omega, by omega⟩
  · have hc := MergingPhase.counts hp ht
    obtain ⟨_, _, _, a, b, c, h3, h4, h5, h6⟩ := hp
    exact ⟨hl, ht, hd, htot, by omega, by omega, by omega, by omega⟩
  · rcases Nat.eq_zero_or_pos s.distinct with h0 | h0
    · obtain ⟨_, a, b, c, d⟩ := hp
      obtain ⟨_, h3, h4, h5, h6⟩ := c h0
      exact ⟨hl, ht, hd, htot, by omega, by omega, by omega, by omega⟩
    · have hr := BuiltPhase.rom hp ht h0
      obtain ⟨_, a, b, c, d⟩ := hp
      obtain ⟨h3, h4, h5, h6⟩ := d h0
      exact ⟨hl, ht, hd, htot, by omega, by omega, by omega, by omega⟩

/-- The node store of a state in the invariant is made of trees. -/
theorem Inv.treeOk {s : State} (h : Inv s) (hn : 0 < s.nodeCount) : TreeOk s := by
  have ht := h.2.2.1
  rcases Inv.phase h with ⟨-, hp⟩ | ⟨-, hp⟩ | ⟨-, hp⟩
  · have := hp.2.1; omega
  · exact MergingPhase.treeOk hp ht
  · rcases Nat.eq_zero_or_pos s.distinct with h0 | h0
    · have := hp.2.2.1; omega
    · exact BuiltPhase.treeOk hp ht h0

/-- The written nodes of a state in the invariant are a forest over some roots. -/
theorem Inv.forest {s : State} (h : Inv s) (hn : 0 < s.nodeCount) : ∃ roots, Forest s roots := by
  rcases Inv.phase h with ⟨-, hp⟩ | ⟨-, hp⟩ | ⟨-, hp⟩
  · have := hp.2.1; omega
  · exact ⟨_, hp.2.2.1⟩
  · rcases Nat.eq_zero_or_pos s.distinct with h0 | h0
    · have := hp.2.2.1; omega
    · exact ⟨_, (hp.2.2.2.2 h0).2.2.1⟩

end Sys2Proof.Machine
end

