-- ==== Sys2Proof/Laws/Commands.lean ====
section
/-! SUPPORT. Every command as the decode stage and a rule of its own (`30_encoding.md` R118), and what each rule can do
in any state (`20_memory.md` R86, `60_exceptions.md` R313, R316). -/

namespace Sys2Proof.Machine

/-- The rule of a command after the decode stage. -/
def ruleOf : Instr → State → Except Fault (Answer × State)
  | .nop, s => .ok (.respond 0#56, s)
  | .clear, s => .ok (.respond 0#56, clearBlock s)
  | .readReg arg, s => readRegRule arg s
  | .addSymbol sym, s => addSymbolRule sym s
  | .setFreq sym arg, s => setFreqRule sym arg s
  | .readFreq sym, s => .ok (.respond (fieldData s.config.freqW (freqRead s sym.toNat)), s)
  | .readOrder arg, s => readOrderRule arg s
  | .readHeap arg, s => readHeapRule arg s
  | .buildInit, s => buildInitRule s
  | .buildStep, s => buildStepRule s
  | .build, s => buildRule s
  | .readNodeF arg, s => readNodeFRule arg s
  | .readNodeL arg, s => readNodeLRule arg s
  | .readCodeLen sym, s => .ok (.respond (codeLenData (romRead s sym.toNat)), s)
  | .readCodeBits sym arg, s => readCodeBitsRule sym arg s

theorem exec_eq (i : Instr) (s : State) : exec i s = runCommand (opcodeOf i) (symOf i) (argOf i) (ruleOf i) s := by
  cases i <;> rfl

/-- The decode stage's verdict on a command (R118). -/
def admission (i : Instr) (s : State) : Option Status := admissionError (opcodeOf i) (symOf i) (argOf i) s

/-- What a command can do when it ends (R118, R11, R316). -/
theorem exec_next_iff {i : Instr} {s t : State} :
    exec i s = .next t ↔ s.config.legal = true ∧
      ((∃ e, admission i s = some e ∧ t = raise (opcodeByte (opcodeOf i)) e s) ∨
        (admission i s = none ∧ ∃ a u, ruleOf i s = .ok (a, u) ∧ t = finish (opcodeByte (opcodeOf i)) a u)) := by
  rw [exec_eq]; exact runCommand_next_iff

theorem exec_run {i : Instr} {s u : State} {a : Answer} (hl : s.config.legal = true) (he : admission i s = none)
    (hr : ruleOf i s = .ok (a, u)) : exec i s = .next (finish (opcodeByte (opcodeOf i)) a u) :=
  exec_next_iff.2 ⟨hl, .inr ⟨he, a, u, hr, rfl⟩⟩

theorem exec_raise {i : Instr} {s : State} {e : Status} (hl : s.config.legal = true) (he : admission i s = some e) :
    exec i s = .next (raise (opcodeByte (opcodeOf i)) e s) :=
  exec_next_iff.2 ⟨hl, .inl ⟨e, he, rfl⟩⟩

/-- An admitted command whose rule responds ends with status OK and the rule's data (R11, R114). -/
theorem exec_respond {i : Instr} {s u : State} {d : Data} (hl : s.config.legal = true) (he : admission i s = none)
    (hr : ruleOf i s = .ok (.respond d, u)) : exec i s = .next { u with response := some (0x00#8 ++ d) } :=
  exec_run hl he hr

/-- An admitted command whose rule raises ends with the error record and the response of R316. -/
theorem exec_fail {i : Instr} {s u : State} {e : Status} (hl : s.config.legal = true) (he : admission i s = none)
    (hr : ruleOf i s = .ok (.raise e, u)) :
    exec i s = .next { u with errCode := statusCode e, errOpc := opcodeByte (opcodeOf i)
                              response := some (statusCode e ++ 0#56) } :=
  exec_run hl he hr

/-- Where a command is admitted (R118). -/
theorem admission_none_iff {i : Instr} {s : State} :
    admission i s = none ↔ admitted (opcodeOf i) s.phase = true ∧
      (usesSym (opcodeOf i) = true → symInRange s.config (symOf i) = true) ∧
      (opcodeOf i = .setFreq → countInRange s.config (argOf i) = true) := admissionError_none_iff

/-! ## What a rule can do, in any state -/

theorem addSymbolRule_ok {sym : SymField} {s t : State} {a : Answer} (h : addSymbolRule sym s = .ok (a, t)) :
    (a = .raise .freqOverflow ∧ t = s ∧ s.total = s.config.fmax) ∨
      (s.total ≠ s.config.fmax ∧ (∃ d, a = .respond d) ∧
        t = { s with freq := cellsPut 0 s.freq sym.toNat (freqRead s sym.toNat + 1), order := t.order,
                     distinct := t.distinct, total := s.total + 1 } ∧
        (cellsSorted s.order → cellsSorted t.order)) := by
  unfold addSymbolRule at h
  split_ifs at h with h1 h2
  · cases h; exact .inl ⟨rfl, rfl, h1⟩
  · obtain ⟨u, hu, hb⟩ := bind_eq_ok.1 h
    cases hb
    have := (orderAppend_frame hu).1
    right
    refine ⟨h1, ⟨_, rfl⟩, ?_, ?_⟩
    · rw [this]; simp [freqWrite, freqRead]
    · intro hs; rw [this]; exact cellsSorted_set _ _ hs
  · cases h
    right
    exact ⟨h1, ⟨_, rfl⟩, rfl, id⟩

theorem setFreqRule_ok {sym : SymField} {arg : ArgField} {s t : State} {a : Answer}
    (h : setFreqRule sym arg s = .ok (a, t)) :
    (a = .raise .freqOverflow ∧ t = s ∧ s.config.fmax < newTotal s sym.toNat arg.toNat) ∨
      (newTotal s sym.toNat arg.toNat ≤ s.config.fmax ∧
        a = .respond (fieldData s.config.freqW (freqRead s sym.toNat)) ∧
        t = { s with freq := cellsPut 0 s.freq sym.toNat arg.toNat, order := t.order, distinct := t.distinct,
                     total := newTotal s sym.toNat arg.toNat } ∧
        (cellsSorted s.order → cellsSorted t.order)) := by
  unfold setFreqRule at h
  simp only at h
  split_ifs at h with h1 h2 h3
  · cases h; exact .inl ⟨rfl, rfl, h1⟩
  · obtain ⟨u, hu, hb⟩ := bind_eq_ok.1 h
    cases hb
    have := (orderAppend_frame hu).1
    right
    refine ⟨by omega, rfl, ?_, ?_⟩
    · rw [this]; simp [freqWrite]
    · intro hs; rw [this]; exact cellsSorted_set _ _ hs
  · obtain ⟨u, hu, hb⟩ := bind_eq_ok.1 h
    cases hb
    obtain ⟨e, hs⟩ := orderRemove_frame hu
    right
    refine ⟨by omega, rfl, ?_, fun hx => hs hx⟩
    rw [e]; simp [freqWrite]
  · cases h
    right
    exact ⟨by omega, rfl, rfl, id⟩

/-- The finalize step in any state: it raises CODE_TOO_LONG with nothing changed, or it ends the build (R248). -/
theorem finalize_ok {s t : State} {a : Answer} (h : finalize s = .ok (a, t)) :
    (a = .raise .codeTooLong ∧ t = s ∧ s.heapCount = 1) ∨
      ((∃ d, a = .respond d) ∧
        t = { s with phase := .built, heap := t.heap, heapCount := t.heapCount, root := t.root, rootValid := t.rootValid,
                     rom := t.rom, maxLen := t.maxLen } ∧
        (cellsSorted s.heap → cellsSorted t.heap) ∧
        (t.rom = [] ∨ ∃ r m, romOf s r = .ok (some (t.rom, m)))) := by
  unfold finalize at h
  split_ifs at h with h1
  · obtain ⟨r, hr, hb⟩ := bind_eq_ok.1 h
    obtain ⟨res, hres, hc⟩ := bind_eq_ok.1 hb
    cases res with
    | none => cases hc; exact .inl ⟨rfl, rfl, h1⟩
    | some p =>
      obtain ⟨rom, m⟩ := p
      obtain ⟨⟨x, u⟩, hu, hd⟩ := bind_eq_ok.1 hc
      cases hd
      have := (dequeue_frame hu).2
      right
      refine ⟨⟨_, rfl⟩, ?_, ?_, .inr ⟨r, m, hres⟩⟩
      · rw [this]
      · intro hs; have := dequeue_sorted hs hu; exact this
  · cases h
    exact .inr ⟨⟨_, rfl⟩, rfl, id, .inl rfl⟩

theorem walk_canonical {s : State} : ∀ (fuel i : Nat) (path : List Bool) (rom rom' : Cells RomEntry),
    walk s fuel i path rom = .ok rom' → (cellsSorted rom → cellsSorted rom') ∧
      ((∀ e ∈ rom, e.2 ≠ RomEntry.zero) → ∀ e ∈ rom', e.2 ≠ RomEntry.zero) := by
  intro fuel
  induction fuel with
  | zero => intro i path rom rom' h; cases h
  | succ fuel ih =>
    intro i path rom rom' h
    obtain ⟨n, hn, hb⟩ := bind_eq_ok.1 h
    cases n with
    | leaf f x =>
      obtain ⟨_, rfl⟩ := arrayWrite_ok_iff.1 hb
      refine ⟨fun hs => cellsSorted_set _ _ hs, ?_⟩
      intro hz e he
      rcases mem_cellsSet he with rfl | he
      · simp [RomEntry.zero]
      · exact hz e he
    | internal f l r =>
      obtain ⟨rom1, h1, h2⟩ := bind_eq_ok.1 hb
      have a := ih _ _ _ _ h1
      have b := ih _ _ _ _ h2
      exact ⟨fun hs => b.1 (a.1 hs), fun hz => b.2 (a.2 hz)⟩

theorem romOf_canonical {s : State} {r m : Nat} {rom : Cells RomEntry} (h : romOf s r = .ok (some (rom, m))) :
    cellsSorted rom ∧ ∀ e ∈ rom, e.2 ≠ RomEntry.zero := by
  obtain ⟨d, _, hb⟩ := bind_eq_ok.1 h
  split_ifs at hb with hd
  · cases hb
  · obtain ⟨rom', hw, hc⟩ := bind_eq_ok.1 hb
    cases hc
    have := walk_canonical _ _ _ _ _ hw
    exact ⟨this.1 (by simp [cellsSorted]), this.2 (by simp)⟩

/-- BUILD_STEP's rule in any state (R249). -/
theorem buildStepRule_ok {s t : State} {a : Answer} (h : buildStepRule s = .ok (a, t)) :
    (1 < s.heapCount ∧ ∃ n, merge s = .ok (n, t) ∧ a = .respond (fieldData s.config.nodeW n)) ∨
      (s.heapCount ≤ 1 ∧ finalize s = .ok (a, t)) := by
  unfold buildStepRule at h
  split_ifs at h with h1
  · obtain ⟨⟨n, u⟩, hu, hb⟩ := bind_eq_ok.1 h
    cases hb
    exact .inl ⟨h1, n, hu, rfl⟩
  · have : ¬ 1 < s.heapCount := h1
    exact .inr ⟨by omega, h⟩

/-- BUILD's rule in any state (R250). -/
theorem buildRule_ok {s t : State} {a : Answer} (h : buildRule s = .ok (a, t)) :
    ∃ u v, ((s.phase = .load ∧ buildInitBody s = .ok u) ∨ (s.phase ≠ .load ∧ u = s)) ∧
      mergeAll u.heapCount u = .ok v ∧ finalize v = .ok (a, t) := by
  unfold buildRule at h
  split_ifs at h with h1
  · obtain ⟨u, hu, hb⟩ := bind_eq_ok.1 h
    obtain ⟨v, hv, hc⟩ := bind_eq_ok.1 hb
    exact ⟨u, v, .inl ⟨h1, hu⟩, hv, hc⟩
  · obtain ⟨w, hw, hb⟩ := bind_eq_ok.1 h
    cases hw
    obtain ⟨v, hv, hc⟩ := bind_eq_ok.1 hb
    exact ⟨s, v, .inr ⟨h1, rfl⟩, hv, hc⟩

/-- BUILD_STEP finalizes where at most one item is left (R249). -/
theorem buildStepRule_finalize {s : State} (h : s.heapCount ≤ 1) : buildStepRule s = finalize s :=
  if_neg (show ¬ 1 < s.heapCount by omega)

/-- BUILD_STEP merges where more than one item is left (R249). -/
theorem buildStepRule_merge {s t : State} {n : Nat} (h : 1 < s.heapCount) (e : merge s = .ok (n, t)) :
    buildStepRule s = .ok (.respond (fieldData s.config.nodeW n), t) := by
  unfold buildStepRule
  rw [if_pos (show 1 < queueCount s from h), e]
  rfl

/-- BUILD's rule in the invariant (R250): BUILD_INIT's body in LOAD, the merges, and then the finalize step on a state
of MERGING with at most one item. -/
theorem buildRule_spec {s : State} (h : Inv s) (hp : s.phase ≠ .built) :
    ∃ u v, ((s.phase = .load ∧ buildInitBody s = .ok u) ∨ (s.phase ≠ .load ∧ u = s)) ∧
      MergingPhase u ∧ FrequencyTable u ∧ mergeAll u.heapCount u = .ok v ∧ MergingPhase v ∧ FrequencyTable v ∧
      v.heapCount ≤ 1 ∧ buildRule s = finalize v ∧
      v = { s with phase := .merging, node := v.node, nodeCount := v.nodeCount, heap := v.heap,
                   heapCount := v.heapCount } := by
  have b := Inv.bounds h
  have ht := b.table
  rcases Inv.phase h with ⟨h1, h2⟩ | ⟨h1, h2⟩ | ⟨h1, h2⟩
  · obtain ⟨u, e, hu, _, _, hm⟩ := buildInitBody_spec ht h2
    have hut : FrequencyTable u := FrequencyTable.congr ht (by rw [hu]) (by rw [hu]) (by rw [hu]) (by rw [hu]) (by rw [hu])
    obtain ⟨v, e2, hmv, htv, hc, hv⟩ := MergingPhase.mergeAll u.heapCount hm hut le_rfl
    refine ⟨u, v, .inl ⟨h1, e⟩, hm, hut, e2, hmv, htv, hc, ?_, ?_⟩
    · simp only [buildRule, if_pos h1, e, ok_bind, queueCount, e2]
    · rw [hv, hu]
  · have hl : s.phase ≠ .load := by rw [h1]; decide
    obtain ⟨v, e2, hmv, htv, hc, hv⟩ := MergingPhase.mergeAll s.heapCount h2 ht le_rfl
    refine ⟨s, v, .inr ⟨hl, rfl⟩, h2, ht, e2, hmv, htv, hc, ?_, ?_⟩
    · simp only [buildRule, if_neg hl, ok_bind, queueCount, e2]
    · rw [hv]; simp [h1]
  · exact absurd h1 hp

/-- A rule that only reads changes nothing (R87). -/
theorem readRule_ok {i : Instr} {s t : State} {a : Answer} (hi : isRead i = true) (h : ruleOf i s = .ok (a, t)) :
    t = s ∧ ∀ e, a = .raise e → e = .indexRange := by
  cases i <;> simp only [isRead, Bool.false_eq_true] at hi <;> simp only [ruleOf] at h
  case nop => cases h; exact ⟨rfl, by simp⟩
  case readReg arg =>
    unfold readRegRule at h
    split at h <;> cases h <;> exact ⟨rfl, by simp⟩
  case readFreq sym => cases h; exact ⟨rfl, by simp⟩
  case readOrder arg =>
    unfold readOrderRule at h
    split_ifs at h
    · cases h; exact ⟨rfl, by simp⟩
    · obtain ⟨v, _, hb⟩ := bind_eq_ok.1 h; cases hb; exact ⟨rfl, by simp⟩
  case readHeap arg =>
    unfold readHeapRule at h
    split_ifs at h
    · cases h; exact ⟨rfl, by simp⟩
    · obtain ⟨v, _, hb⟩ := bind_eq_ok.1 h; cases hb; exact ⟨rfl, by simp⟩
  case readNodeF arg =>
    unfold readNodeFRule at h
    split_ifs at h
    · cases h; exact ⟨rfl, by simp⟩
    · obtain ⟨v, _, hb⟩ := bind_eq_ok.1 h; cases hb; exact ⟨rfl, by simp⟩
  case readNodeL arg =>
    unfold readNodeLRule at h
    split_ifs at h
    · cases h; exact ⟨rfl, by simp⟩
    · obtain ⟨v, _, hb⟩ := bind_eq_ok.1 h; cases hb; exact ⟨rfl, by simp⟩
  case readCodeLen sym => cases h; exact ⟨rfl, by simp⟩
  case readCodeBits sym arg =>
    unfold readCodeBitsRule at h
    split_ifs at h <;> cases h <;> exact ⟨rfl, by simp⟩

/-! ## The table's commands, with the invariant of R52 -/

theorem orderList_eq {s t : State} (h : t.order = s.order) : orderList t = orderList s := by simp [orderList, h]

/-- ADD_SYMBOL's rule with room in TOTAL (R181): it completes, and the table keeps its invariant. -/
theorem addSymbolRule_spec {s : State} {sym : SymField} (ht : FrequencyTable s) (hs : sym.toNat < s.config.dMax)
    (hroom : s.total < s.config.fmax) :
    ∃ t, addSymbolRule sym s = .ok (.respond (fieldData s.config.freqW (freqRead s sym.toNat + 1)), t) ∧
      t = { s with freq := cellsPut 0 s.freq sym.toNat (freqRead s sym.toNat + 1), order := t.order,
                   distinct := t.distinct, total := s.total + 1 } ∧
      orderList t = (if freqRead s sym.toNat = 0 then orderList s ++ [sym.toNat] else orderList s) ∧
      t.distinct = (if freqRead s sym.toNat = 0 then s.distinct + 1 else s.distinct) ∧ FrequencyTable t := by
  have hfin : ∀ c n, cellsDense c n → (cellsValues c).Perm
      (if freqRead s sym.toNat = 0 then sym.toNat :: presentSymbols s else presentSymbols s) →
      FrequencyTable { s with freq := cellsPut 0 s.freq sym.toNat (freqRead s sym.toNat + 1), order := c, distinct := n,
                              total := s.total + 1 } := by
    intro c n hd hp
    refine ⟨?_, hd, ?_, ?_, hroom⟩
    · intro e he
      have he' : e ∈ cellsPut 0 s.freq sym.toNat (freqRead s sym.toNat + 1) := he
      rcases mem_cellsPut he' with ⟨rfl, _⟩ | he
      · exact hs
      · exact ht.1 e he
    · have := presentSymbols_freqWrite (s := s) (freqRead s sym.toNat + 1) hs
      rw [if_pos (by omega)] at this
      exact hp.trans this.symm
    · have := freqSum_freqWrite (s := s) (freqRead s sym.toNat + 1) hs
      have h2 : freqSum (freqWrite s sym.toNat (freqRead s sym.toNat + 1)) = s.total + 1 := by
        have := ht.2.2.2.1; omega
      exact h2.symm
  by_cases h0 : freqRead s sym.toNat = 0
  · have hlt : s.distinct < s.config.dMax := by
      rw [ht.distinct_eq]; exact presentSymbols_length_lt hs h0
    obtain ⟨c, e, hd, hv⟩ := orderAppend_spec sym.toNat ht.2.1 hlt
    refine ⟨{ s with freq := cellsPut 0 s.freq sym.toNat (freqRead s sym.toNat + 1), order := c,
                     distinct := s.distinct + 1, total := s.total + 1 }, ?_, rfl, ?_, ?_, ?_⟩
    · have e1 : freqRead { s with order := c, distinct := s.distinct + 1 } sym.toNat = freqRead s sym.toNat := rfl
      simp only [addSymbolRule, if_neg (Nat.ne_of_lt hroom), if_pos h0, e, ok_bind, e1]
      simp only [freqWrite, freqRead, cellsAt_put, if_true]
    · rw [if_pos h0]; exact hv
    · rw [if_pos h0]
    · refine hfin c _ hd ?_
      rw [if_pos h0, hv]
      exact (List.perm_append_comm (l₂ := [sym.toNat])).trans (ht.2.2.1.cons _)
  · refine ⟨{ s with freq := cellsPut 0 s.freq sym.toNat (freqRead s sym.toNat + 1), total := s.total + 1 }, ?_, rfl,
      ?_, ?_, ?_⟩
    · simp only [addSymbolRule, if_neg (Nat.ne_of_lt hroom), if_neg h0, ok_bind]
      simp only [freqWrite, freqRead, cellsAt_put, if_true]
    · rw [if_neg h0]; rfl
    · rw [if_neg h0]
    · refine hfin s.order _ ht.2.1 ?_
      rw [if_neg h0]; exact ht.2.2.1

/-- SET_FREQ's rule with room in TOTAL (R183): it completes, and the table keeps its invariant. -/
theorem setFreqRule_spec {s : State} {sym : SymField} {arg : ArgField} (ht : FrequencyTable s)
    (hs : sym.toNat < s.config.dMax) (hroom : newTotal s sym.toNat arg.toNat ≤ s.config.fmax) :
    ∃ t, setFreqRule sym arg s = .ok (.respond (fieldData s.config.freqW (freqRead s sym.toNat)), t) ∧
      t = { s with freq := cellsPut 0 s.freq sym.toNat arg.toNat, order := t.order, distinct := t.distinct,
                   total := newTotal s sym.toNat arg.toNat } ∧
      orderList t =
        (if freqRead s sym.toNat = 0 ∧ 0 < arg.toNat then orderList s ++ [sym.toNat]
         else if 0 < freqRead s sym.toNat ∧ arg.toNat = 0 then (orderList s).erase sym.toNat else orderList s) ∧
      t.distinct = (orderList t).length ∧ FrequencyTable t := by
  have hle := ht.freq_le_total hs
  have hfin : ∀ c n, cellsDense c n → (cellsValues c).Perm
      (if 0 < arg.toNat then (if freqRead s sym.toNat = 0 then sym.toNat :: presentSymbols s else presentSymbols s)
       else (presentSymbols s).erase sym.toNat) →
      FrequencyTable { s with freq := cellsPut 0 s.freq sym.toNat arg.toNat, order := c, distinct := n,
                              total := newTotal s sym.toNat arg.toNat } := by
    intro c n hd hp
    refine ⟨?_, hd, ?_, ?_, hroom⟩
    · intro e he
      have he' : e ∈ cellsPut 0 s.freq sym.toNat arg.toNat := he
      rcases mem_cellsPut he' with ⟨rfl, _⟩ | he
      · exact hs
      · exact ht.1 e he
    · exact hp.trans (presentSymbols_freqWrite (s := s) arg.toNat hs).symm
    · have := freqSum_freqWrite (s := s) arg.toNat hs
      have h2 : freqSum (freqWrite s sym.toNat arg.toNat) = newTotal s sym.toNat arg.toNat := by
        have := ht.2.2.2.1; unfold newTotal; omega
      exact h2.symm
  have hlen : (orderList s).length = s.distinct := cellsDense_length ht.2.1
  by_cases h1 : freqRead s sym.toNat = 0 ∧ 0 < arg.toNat
  · have hlt : s.distinct < s.config.dMax := by
      rw [ht.distinct_eq]; exact presentSymbols_length_lt hs h1.1
    obtain ⟨c, e, hd, hv⟩ := orderAppend_spec sym.toNat ht.2.1 hlt
    refine ⟨{ s with freq := cellsPut 0 s.freq sym.toNat arg.toNat, order := c,
                     distinct := s.distinct + 1, total := newTotal s sym.toNat arg.toNat }, ?_, rfl, ?_, ?_, ?_⟩
    · simp only [setFreqRule, if_neg (Nat.not_lt.2 hroom), if_pos h1, e, ok_bind]
      simp only [freqWrite]
    · rw [if_pos h1]; exact hv
    · change s.distinct + 1 = (cellsValues c).length
      rw [hv]; simp [hlen]
    · refine hfin c _ hd ?_
      rw [if_pos h1.2, if_pos h1.1, hv]
      exact (List.perm_append_comm (l₂ := [sym.toNat])).trans (ht.2.2.1.cons _)
  · by_cases h2 : 0 < freqRead s sym.toNat ∧ arg.toNat = 0
    · have hm : sym.toNat ∈ orderList s := ht.mem_order.2 ⟨hs, h2.1⟩
      obtain ⟨c, e, hd, hv⟩ := orderRemove_spec ht.2.1 ht.distinct_le hm
      refine ⟨{ s with freq := cellsPut 0 s.freq sym.toNat arg.toNat, order := c,
                       distinct := s.distinct - 1, total := newTotal s sym.toNat arg.toNat }, ?_, rfl, ?_, ?_, ?_⟩
      · simp only [setFreqRule, if_neg (Nat.not_lt.2 hroom), if_neg h1, if_pos h2, e, ok_bind]
        simp only [freqWrite]
      · rw [if_neg h1, if_pos h2]; exact hv
      · change s.distinct - 1 = (cellsValues c).length
        rw [hv, List.length_erase_of_mem hm, hlen]
      · refine hfin c _ hd ?_
        rw [if_neg (by omega), hv]
        exact ht.2.2.1.erase _
    · refine ⟨{ s with freq := cellsPut 0 s.freq sym.toNat arg.toNat, total := newTotal s sym.toNat arg.toNat }, ?_, rfl,
        ?_, ?_, ?_⟩
      · simp only [setFreqRule, if_neg (Nat.not_lt.2 hroom), if_neg h1, if_neg h2, ok_bind]
        simp only [freqWrite]
      · rw [if_neg h1, if_neg h2]; rfl
      · exact hlen.symm
      · refine hfin s.order _ ht.2.1 ?_
        by_cases h3 : 0 < arg.toNat
        · rw [if_pos h3, if_neg (by omega)]; exact ht.2.2.1
        · rw [if_neg h3, List.erase_of_not_mem]
          · exact ht.2.2.1
          · intro hm; have := (mem_presentSymbols.1 hm).2; omega

end Sys2Proof.Machine
end

