-- ==== Sys2Proof/Laws/Invariant.lean ====
section
/-! SUPPORT. What every command's rule keeps: the canonical form of the arrays in every state, and the invariant's table
and phase contents (`10_state.md` R31, R52; `60_exceptions.md` R319; `70_reset_and_hazards.md` R365). -/

namespace Sys2Proof.Machine

/-- What a phase says of the rest of the state, for each phase. -/
theorem phaseContents_load {s : State} (hp : s.phase = .load) : phaseContents s = true ↔ LoadPhase s :=
    by simp [phaseContents, hp]
theorem phaseContents_merging {s : State} (hp : s.phase = .merging) : phaseContents s = true ↔ MergingPhase s :=
    by simp only [phaseContents, hp, decide_eq_true_eq]
theorem phaseContents_built {s : State} (hp : s.phase = .built) : phaseContents s = true ↔ BuiltPhase s :=
    by simp only [phaseContents, hp, decide_eq_true_eq]

theorem cellsPut_canonical {c : Cells Nat} {i v : Nat} (h : cellsSorted c ∧ ∀ e ∈ c, e.2 ≠ 0) :
    cellsSorted (cellsPut 0 c i v) ∧ ∀ e ∈ cellsPut 0 c i v, e.2 ≠ 0 := by
  refine ⟨cellsSorted_put _ _ h.1, ?_⟩
  intro e he
  rcases mem_cellsPut he with ⟨rfl, hv⟩ | he
  · exact hv
  · exact h.2 e he

theorem ArraysCanonical.table {s t : State} (h : ArraysCanonical s) {i v : Nat} (h1 : t.freq = cellsPut 0 s.freq i v)
    (h2 : cellsSorted s.order → cellsSorted t.order)
    (h3 : t.node = s.node) (h4 : t.heap = s.heap) (h5 : t.rom = s.rom) : ArraysCanonical t := by
  obtain ⟨a, b, c, d, e, f, g⟩ := h
  have := cellsPut_canonical (i := i) (v := v) ⟨a, b⟩
  refine ⟨h1 ▸ this.1, ?_, h2 c, h3 ▸ d, h4 ▸ e, h5 ▸ f, h5 ▸ g⟩
  rw [h1]; exact this.2

theorem ArraysCanonical.build {s t : State} (h : ArraysCanonical s) (h1 : t.freq = s.freq) (h2 : t.order = s.order)
    (h3 : cellsSorted s.node → cellsSorted t.node) (h4 : cellsSorted s.heap → cellsSorted t.heap) (h5 : t.rom = s.rom) :
    ArraysCanonical t := by
  obtain ⟨a, b, c, d, e, f, g⟩ := h
  exact ⟨h1 ▸ a, h1 ▸ b, h2 ▸ c, h3 d, h4 e, h5 ▸ f, h5 ▸ g⟩

theorem ArraysCanonical.finalize {s t : State} {a : Answer} (h : ArraysCanonical s) (e : finalize s = .ok (a, t)) :
    ArraysCanonical t := by
  rcases finalize_ok e with ⟨_, rfl, _⟩ | ⟨_, ht, hh, hr⟩
  · exact h
  · obtain ⟨a, b, c, d, e, f, g⟩ := h
    have hrom : cellsSorted t.rom ∧ ∀ e ∈ t.rom, e.2 ≠ RomEntry.zero := by
      rcases hr with hr | ⟨r, m, hr⟩
      · rw [hr]; simp [cellsSorted]
      · exact romOf_canonical hr
    rw [ht]
    exact ⟨a, b, c, d, hh e, hrom.1, hrom.2⟩

/-- In every state a command's rule keeps the canonical form of the arrays. -/
theorem ruleOf_canonical {i : Instr} {s t : State} {a : Answer} (h : ArraysCanonical s) (e : ruleOf i s = .ok (a, t)) :
    ArraysCanonical t := by
  by_cases hi : isRead i = true
  · rw [(readRule_ok hi e).1]; exact h
  · cases i <;> simp [isRead] at hi <;> simp only [ruleOf] at e
    · cases e; simp [clearBlock, ArraysCanonical, cellsSorted]
    · rcases addSymbolRule_ok e with ⟨_, rfl, _⟩ | ⟨_, _, ht, ho⟩
      · exact h
      · exact ArraysCanonical.table h (by rw [ht]) ho (by rw [ht]) (by rw [ht]) (by rw [ht])
    · rcases setFreqRule_ok e with ⟨_, rfl, _⟩ | ⟨_, _, ht, ho⟩
      · exact h
      · exact ArraysCanonical.table h (by rw [ht]) ho (by rw [ht]) (by rw [ht]) (by rw [ht])
    · obtain ⟨u, hu, hb⟩ := bind_eq_ok.1 e
      cases hb
      obtain ⟨ht, hn, hh⟩ := buildInitBody_frame hu
      exact ArraysCanonical.build h (by rw [ht]) (by rw [ht]) hn hh (by rw [ht])
    · rcases buildStepRule_ok e with ⟨_, n, hm, _⟩ | ⟨_, hf⟩
      · obtain ⟨_, _, ht, hn, hh⟩ := merge_frame hm
        exact ArraysCanonical.build h (by rw [ht]) (by rw [ht]) hn hh (by rw [ht])
      · exact ArraysCanonical.finalize h hf
    · obtain ⟨u, v, hu, hv, hf⟩ := buildRule_ok e
      have h1 : ArraysCanonical u := by
        rcases hu with ⟨_, hu⟩ | ⟨_, rfl⟩
        · obtain ⟨ht, hn, hh⟩ := buildInitBody_frame hu
          exact ArraysCanonical.build h (by rw [ht]) (by rw [ht]) hn hh (by rw [ht])
        · exact h
      obtain ⟨ht, _, _, hn, hh⟩ := mergeAll_frame _ _ _ hv
      exact ArraysCanonical.finalize (ArraysCanonical.build h1 (by rw [ht]) (by rw [ht]) hn hh (by rw [ht])) hf

theorem LoadPhase.congr {s t : State} (h : LoadPhase s) (h5 : t.node = s.node)
    (h6 : t.nodeCount = s.nodeCount) (h7 : t.heap = s.heap) (h8 : t.heapCount = s.heapCount) (h9 : t.root = s.root)
    (h10 : t.rootValid = s.rootValid) (h11 : t.rom = s.rom) (h12 : t.maxLen = s.maxLen) : LoadPhase t := by
  simp [LoadPhase, NoResult, *]

/-- What an admitted command's rule leaves of a state in the invariant. -/
structure RuleEnd (s : State) (a : Answer) (u : State) : Prop where
  table : FrequencyTable u
  contents : phaseContents u = true
  config : u.config = s.config
  response : u.response = s.response
  host : u.host = s.host
  taken : u.taken = s.taken
  position : u.position = s.position
  errors : (u.errCode = s.errCode ∧ u.errOpc = s.errOpc) ∨ (u.errCode = 0#8 ∧ u.errOpc = 0#8)
  code : ∀ e, a = .raise e → returnedCode (statusCode e) = true ∧ statusCode e ≠ 0#8

/-- In the invariant every admitted command's rule ends, with the table and the phase's contents in order (R52, R216,
R251, R255, R365). -/
theorem ruleOf_spec {i : Instr} {s : State} (h : Inv s) (ha : admission i s = none) :
    ∃ a u, ruleOf i s = .ok (a, u) ∧ RuleEnd s a u := by
  have b := Inv.bounds h
  have ht := b.table
  have hph := h.2.2.2.1
  have hadm := admission_none_iff.1 ha
  have same : ∀ a, (∀ e, a = Answer.raise e → returnedCode (statusCode e) = true ∧ statusCode e ≠ 0#8) →
      ruleOf i s = .ok (a, s) → ∃ a u, ruleOf i s = .ok (a, u) ∧ RuleEnd s a u :=
    fun a hr e => ⟨a, s, e, ht, hph, rfl, rfl, rfl, rfl, rfl, .inl ⟨rfl, rfl⟩, hr⟩
  cases i
  case nop => exact same _ (by simp) rfl
  case clear =>
    refine ⟨_, _, rfl, ?_, by simp [phaseContents, clearBlock, LoadPhase, NoResult], rfl, rfl, rfl, rfl, rfl,
        .inr ⟨rfl, rfl⟩, by simp⟩
    have h0 : freqRead (clearBlock s) = fun _ => 0 := by funext x; simp [freqRead, clearBlock, cellsAt, cellsGet]
    refine ⟨by simp [clearBlock], rfl, ?_, ?_, by simp [clearBlock]⟩
    · simp [orderList, presentSymbols, h0]
      simp [cellsValues]
    · simp only [freqSum, h0]; simp [clearBlock]
  case readReg arg =>
    cases hr : registerData s arg.toNat with
    | none => exact same (.raise .indexRange) (by simp; decide) (by simp only [ruleOf, readRegRule, hr])
    | some d => exact same (.respond d) (by simp) (by simp only [ruleOf, readRegRule, hr])
  case addSymbol sym =>
    have hp : s.phase = .load := by simpa [admitted, opcodeOf] using hadm.1
    have hs : sym.toNat < s.config.dMax := of_decide_eq_true (hadm.2.1 rfl)
    rcases Nat.lt_or_ge s.total s.config.fmax with hlt | hge
    · obtain ⟨t, e, ht', ho, hd, htab⟩ := addSymbolRule_spec ht hs hlt
      refine ⟨_, t, e, htab, ?_, by rw [ht'], by rw [ht'], by rw [ht'], by rw [ht'], by rw [ht'], .inl ⟨by rw [ht'],
          by rw [ht']⟩, by simp⟩
      have hpt : t.phase = .load := by rw [ht']; exact hp
      rw [phaseContents_load hpt]
      exact LoadPhase.congr (Inv.load h hp) (by rw [ht']) (by rw [ht']) (by rw [ht']) (by rw [ht']) (by rw [ht'])
          (by rw [ht']) (by rw [ht']) (by rw [ht'])
    · have : s.total = s.config.fmax := by have := ht.2.2.2.2; omega
      exact same (.raise .freqOverflow) (by simp; decide) (by simp only [ruleOf, addSymbolRule, if_pos this])
  case setFreq sym arg =>
    have hp : s.phase = .load := by simpa [admitted, opcodeOf] using hadm.1
    have hs : sym.toNat < s.config.dMax := of_decide_eq_true (hadm.2.1 rfl)
    rcases Nat.lt_or_ge s.config.fmax (newTotal s sym.toNat arg.toNat) with hlt | hge
    · exact same (.raise .freqOverflow) (by simp; decide) (by simp only [ruleOf, setFreqRule, if_pos hlt])
    · obtain ⟨t, e, ht', ho, hd, htab⟩ := setFreqRule_spec ht hs hge
      refine ⟨_, t, e, htab, ?_, by rw [ht'], by rw [ht'], by rw [ht'], by rw [ht'], by rw [ht'], .inl ⟨by rw [ht'],
          by rw [ht']⟩, by simp⟩
      have hpt : t.phase = .load := by rw [ht']; exact hp
      rw [phaseContents_load hpt]
      exact LoadPhase.congr (Inv.load h hp) (by rw [ht']) (by rw [ht']) (by rw [ht']) (by rw [ht']) (by rw [ht'])
          (by rw [ht']) (by rw [ht']) (by rw [ht'])
  case readFreq sym => exact same _ (by simp) rfl
  case readOrder arg =>
    by_cases hk : s.distinct ≤ arg.toNat
    · exact same (.raise .indexRange) (by simp; decide) (by simp only [ruleOf, readOrderRule, if_pos hk])
    · have hg := cellsGet_itemAt ht.2.1 (show arg.toNat < s.distinct by omega)
      have := b.distinct
      have hr : orderRead s arg.toNat = .ok (itemAt (orderList s) arg.toNat) := arrayRead_ok_iff.2 ⟨by omega, hg⟩
      exact same (.respond _) (by simp) (by simp only [ruleOf, readOrderRule, if_neg hk, hr, ok_bind]; rfl)
  case readHeap arg =>
    by_cases hk : s.heapCount ≤ arg.toNat
    · exact same (.raise .indexRange) (by simp; decide) (by simp only [ruleOf, readHeapRule, if_pos hk])
    · have hm := Inv.merging h (Inv.merging_of_item h (by omega))
      have hg := cellsGet_itemAt hm.1 (show arg.toNat < s.heapCount by omega)
      have := (hm.counts ht).2.1
      have hr : heapRead s arg.toNat = .ok (itemAt (heapItems s) arg.toNat) := arrayRead_ok_iff.2 ⟨by omega, hg⟩
      exact same (.respond _) (by simp) (by simp only [ruleOf, readHeapRule, if_neg hk, hr, ok_bind]; rfl)
  case buildInit =>
    have hp : s.phase = .load := by simpa [admitted, opcodeOf] using hadm.1
    obtain ⟨t, e, ht', _, _, hm⟩ := buildInitBody_spec ht (Inv.load h hp)
    refine ⟨.respond _, t, by simp only [ruleOf, buildInitRule, e, ok_bind]; rfl, ht.congr (by rw [ht']) (by rw [ht'])
        (by rw [ht']) (by rw [ht']) (by rw [ht']), ?_, by rw [ht'], by rw [ht'], by rw [ht'], by rw [ht'],
        by rw [ht'], .inl ⟨by rw [ht'], by rw [ht']⟩, by simp⟩
    rw [phaseContents_merging (by rw [ht'])]; exact hm
  case buildStep =>
    have hp : s.phase = .merging := by simpa [admitted, opcodeOf] using hadm.1
    have hm := Inv.merging h hp
    rcases Nat.lt_or_ge 1 s.heapCount with h1 | h1
    · obtain ⟨x, y, rest, h', e, _, _, _, _, _, _, hm'⟩ := hm.merge ht h1
      refine ⟨_, _, buildStepRule_merge h1 e, ht.congr rfl rfl rfl rfl rfl, ?_, rfl, rfl, rfl, rfl, rfl, .inl ⟨rfl,
          rfl⟩, by simp⟩
      rw [phaseContents_merging (by exact hp)]; exact hm'
    · rcases hm.finalize ht h1 with ⟨_, _, e, hb⟩ | ⟨_, _, _, e⟩ | ⟨_, _, _, t, e, ht', hb⟩
      · refine ⟨_, _, (buildStepRule_finalize h1).trans e, ht.congr rfl rfl rfl rfl rfl, ?_, rfl, rfl, rfl, rfl, rfl,
          .inl ⟨rfl, rfl⟩, by simp⟩
        rw [phaseContents_built rfl]; exact hb
      · exact same (.raise .codeTooLong) (by simp; decide) ((buildStepRule_finalize h1).trans e)
      · refine ⟨_, t, (buildStepRule_finalize h1).trans e, ht.congr (by rw [ht']) (by rw [ht']) (by rw [ht'])
          (by rw [ht']) (by rw [ht']), ?_, by rw [ht'], by rw [ht'], by rw [ht'], by rw [ht'], by rw [ht'],
          .inl ⟨by rw [ht'], by rw [ht']⟩, by simp⟩
        rw [phaseContents_built (by rw [ht'])]; exact hb
  case build =>
    have hp : s.phase ≠ .built := by intro hp; simp [admitted, opcodeOf, hp] at hadm
    obtain ⟨u, v, -, -, -, -, hm, htv, hc, e, hv⟩ := buildRule_spec h hp
    rcases hm.finalize htv hc with ⟨_, _, e2, hb⟩ | ⟨_, _, _, e2⟩ | ⟨_, _, _, t, e2, ht', hb⟩
    · refine ⟨_, _, e.trans e2, htv.congr rfl rfl rfl rfl rfl, ?_, ?_, ?_, ?_, ?_, ?_, .inl ⟨?_, ?_⟩, by simp⟩
      · rw [phaseContents_built rfl]; exact hb
      all_goals (rw [hv])
    · refine ⟨_, _, e.trans e2, htv, ?_, ?_, ?_, ?_, ?_, ?_, .inl ⟨?_, ?_⟩, by simp; decide⟩
      · rw [phaseContents_merging (by rw [hv])]; exact hm
      all_goals (rw [hv])
    · refine ⟨_, t, e.trans e2, htv.congr (by rw [ht']) (by rw [ht']) (by rw [ht']) (by rw [ht']) (by rw [ht']), ?_,
        ?_, ?_, ?_, ?_, ?_, .inl ⟨?_, ?_⟩, by simp⟩
      · rw [phaseContents_built (by rw [ht'])]; exact hb
      all_goals (rw [ht', hv])
  case readNodeF arg =>
    by_cases hk : s.nodeCount ≤ arg.toNat
    · exact same (.raise .indexRange) (by simp; decide) (by simp only [ruleOf, readNodeFRule, if_pos hk])
    · have htree := Inv.treeOk h (by omega)
      rcases htree.cases (show arg.toNat < s.nodeCount by omega) with ⟨sym, h1, h2, h3⟩ | ⟨l, r, h1, h4, h2, h3⟩
      · exact same (.respond _) (by simp)
          (by simp only [ruleOf, readNodeFRule, if_neg hk, htree.read (by omega) h1, ok_bind]; rfl)
      · exact same (.respond _) (by simp)
          (by simp only [ruleOf, readNodeFRule, if_neg hk, htree.read (by omega) h1, ok_bind]; rfl)
  case readNodeL arg =>
    by_cases hk : s.nodeCount ≤ arg.toNat
    · exact same (.raise .indexRange) (by simp; decide) (by simp only [ruleOf, readNodeLRule, if_pos hk])
    · have htree := Inv.treeOk h (by omega)
      rcases htree.cases (show arg.toNat < s.nodeCount by omega) with ⟨sym, h1, h2, h3⟩ | ⟨l, r, h1, h4, h2, h3⟩
      · exact same (.respond (nodeLinkData (.leaf (freqRead s sym) sym))) (by simp)
          (by simp only [ruleOf, readNodeLRule, if_neg hk, htree.read (by omega) h1, ok_bind])
      · exact same (.respond (nodeLinkData (.internal (nodeFreqAt s l + nodeFreqAt s r) l r))) (by simp)
          (by simp only [ruleOf, readNodeLRule, if_neg hk, htree.read (by omega) h1, ok_bind])
  case readCodeLen sym => exact same _ (by simp) rfl
  case readCodeBits sym arg =>
    by_cases hk : s.config.nchunk ≤ arg.toNat
    · exact same (.raise .indexRange) (by simp; decide) (by simp only [ruleOf, readCodeBitsRule, if_pos hk])
    · exact same (.respond _) (by simp) (by simp only [ruleOf, readCodeBitsRule, if_neg hk]; rfl)

end Sys2Proof.Machine
end

