-- ==== Sys2Proof/Laws/PerInstr.lean ====
section
/-! SUPPORT. The layout of each command's word (`30_encoding.md` R110, R113, R116, R117), one lemma per constructor. -/

namespace Sys2Proof.Laws.Layout

open Sys2Proof.Machine

/-- The fields of a command's word are its opcode, RSV = 0, its symbol and its number (R110, R113), and the fields give
the command back (R117). -/
def Statement (i : Instr) : Prop :=
  opcField (encode i) = opcodeByte (opcodeOf i) ∧ rsvField (encode i) = 0#8 ∧ symField (encode i) = symOf i ∧
    argField (encode i) = argOf i ∧ instrOf (opcodeOf i) (symOf i) (argOf i) = i

/-- The fields of any command's word, given that its own fields give it back. -/
theorem of_instrOf (i : Instr) (h : instrOf (opcodeOf i) (symOf i) (argOf i) = i) : Statement i :=
  ⟨opcField_word _ _ _ _, rsvField_word _ _ _ _, symField_word _ _ _ _, argField_word _ _ _ _, h⟩

theorem nop : Statement .nop := of_instrOf _ rfl
theorem clear : Statement .clear := of_instrOf _ rfl
theorem readReg (arg : ArgField) : Statement (.readReg arg) := of_instrOf _ rfl
theorem addSymbol (sym : SymField) : Statement (.addSymbol sym) := of_instrOf _ rfl
theorem setFreq (sym : SymField) (arg : ArgField) : Statement (.setFreq sym arg) := of_instrOf _ rfl
theorem readFreq (sym : SymField) : Statement (.readFreq sym) := of_instrOf _ rfl
theorem readOrder (arg : ArgField) : Statement (.readOrder arg) := of_instrOf _ rfl
theorem readHeap (arg : ArgField) : Statement (.readHeap arg) := of_instrOf _ rfl
theorem buildInit : Statement .buildInit := of_instrOf _ rfl
theorem buildStep : Statement .buildStep := of_instrOf _ rfl
theorem build : Statement .build := of_instrOf _ rfl
theorem readNodeF (arg : ArgField) : Statement (.readNodeF arg) := of_instrOf _ rfl
theorem readNodeL (arg : ArgField) : Statement (.readNodeL arg) := of_instrOf _ rfl
theorem readCodeLen (sym : SymField) : Statement (.readCodeLen sym) := of_instrOf _ rfl
theorem readCodeBits (sym : SymField) (arg : ArgField) : Statement (.readCodeBits sym arg) := of_instrOf _ rfl

end Sys2Proof.Laws.Layout
end

