-- ==== Sys2Proof/Machine/Assembler.lean ====
section
/-! DEFINITION. The assembler notation for command programs (`30_encoding.md` R123), the register names (R125) and
the pseudo-instructions that are fixed command lists (R124). This is the host's notation, not hardware (D37). A
character operand stands for its 8-bit ASCII code (R14, R123). -/

namespace Sys2Proof.Machine

/-- The register names of READ_REG (R125). -/
inductive RegName where
  | status | distinct | total | nodeCount | heapCount | root | maxLen | param | ident
  deriving DecidableEq, Repr

/-- The number of a register (R125, R45). -/
def regNumber : RegName → ArgField
  | .status => 0x00#32
  | .distinct => 0x01#32
  | .total => 0x02#32
  | .nodeCount => 0x03#32
  | .heapCount => 0x04#32
  | .root => 0x05#32
  | .maxLen => 0x06#32
  | .param => 0x07#32
  | .ident => 0x08#32

/-- A register by the name the notation gives it (R123). -/
def regOfName (name : List Char) : Option RegName :=
  ([(.status, "STATUS"), (.distinct, "DISTINCT"), (.total, "TOTAL"), (.nodeCount, "NODE_COUNT"),
    (.heapCount, "HEAP_COUNT"), (.root, "ROOT"), (.maxLen, "MAX_LEN"), (.param, "PARAM"),
    (.ident, "IDENT")] : List (RegName × String)).findSome? (fun e => if e.2.toList = name then some e.1 else none)

/-- A token of a line (R123). -/
inductive Token where
  | word (cs : List Char)
  | char (c : Char)
  | comma
  | bad
  deriving DecidableEq, Repr

/-- A character of a mnemonic, a number or a register name. -/
def isWordChar (c : Char) : Bool := c.isAlphanum || c == '_'

/-- The word at the start of a text, and the rest. -/
def takeWord : List Char → List Char × List Char
  | [] => ([], [])
  | c :: cs => if isWordChar c then (c :: (takeWord cs).1, (takeWord cs).2) else ([], c :: cs)

/-- The tokens of a line; a `;` starts a comment (R123). Each turn takes at least one character, so `fuel` = the
line's length suffices. White space, of which the grammar of R123 says nothing: the character ' ' separates tokens, any
number of times, and no other does, so a line with a tab has no command. DESIGN CHOICE (log 27), unsafe for a program's
text, read by no rule of the block. -/
def tokens : (fuel : Nat) → List Char → List Token
  | 0, _ => []
  | _, [] => []
  | fuel + 1, c :: cs =>
    if c = ' ' then tokens fuel cs
    else if c = ';' then []
    else if c = ',' then .comma :: tokens fuel cs
    else if c = '\'' then
      match cs with
      | d :: '\'' :: rest => .char d :: tokens fuel rest
      | _ => [.bad]
    else if isWordChar c then .word (takeWord (c :: cs)).1 :: tokens fuel (takeWord (c :: cs)).2
    else [.bad]

/-- The value of a digit in base 16, or none. -/
def digitValue (c : Char) : Option Nat :=
  if '0' ≤ c ∧ c ≤ '9' then some (c.toNat - '0'.toNat)
  else if 'a' ≤ c ∧ c ≤ 'f' then some (c.toNat - 'a'.toNat + 10)
  else if 'A' ≤ c ∧ c ≤ 'F' then some (c.toNat - 'A'.toNat + 10)
  else none

/-- The number that digits give in a base, after the value so far. -/
def digitsValue (base : Nat) : List Char → Nat → Option Nat
  | [], acc => some acc
  | c :: cs, acc =>
    match digitValue c with
    | none => none
    | some d => if d < base then digitsValue base cs (acc * base + d) else none

/-- `number := decimal digits | "0x" hex digits` (R123). -/
def numberOf : List Char → Option Nat
  | [] => none
  | '0' :: 'x' :: c :: cs => digitsValue 16 (c :: cs) 0
  | c :: cs => digitsValue 10 (c :: cs) 0

/-- The operands of a line, separated by commas (R123). -/
def operandsOf : List Token → Option (List Token)
  | [] => some []
  | [.word w] => some [.word w]
  | [.char c] => some [.char c]
  | .word w :: .comma :: rest =>
    match rest with
    | [] => none
    | _ :: _ => (operandsOf rest).map (.word w :: ·)
  | .char c :: .comma :: rest =>
    match rest with
    | [] => none
    | _ :: _ => (operandsOf rest).map (.char c :: ·)
  | _ => none

/-- `symbol := "'" char "'" | number`, in the SYM field (R123). A number of 2^16 or more, which the grammar can write
but the field cannot hold, is no operand: the line has no command. DESIGN CHOICE (log 28), safe. -/
def symOperand : Token → Option SymField
  | .char c => if c.toNat < 256 then some (BitVec.ofNat 16 c.toNat) else none
  | .word w => (numberOf w).bind (fun n => if n < 2 ^ 16 then some (BitVec.ofNat 16 n) else none)
  | .comma => none
  | .bad => none

/-- `number`, in the ARG field (R123). A number of 2^32 or more, which the grammar can write but the field cannot
hold, is no operand: the line has no command. DESIGN CHOICE (log 28), safe. Nor is a quoted character, which the
grammar admits as an operand without saying of which command: it stands only for a symbol. DESIGN CHOICE (log 29),
safe. -/
def argOperand : Token → Option ArgField
  | .word w => (numberOf w).bind (fun n => if n < 2 ^ 32 then some (BitVec.ofNat 32 n) else none)
  | .char _ => none
  | .comma => none
  | .bad => none

/-- The operand of READ_REG: a register's name or its number (R123, R125), and no quoted character. DESIGN CHOICE
(log 29), safe. -/
def regOperand : Token → Option ArgField
  | .word w =>
    match regOfName w with
    | some r => some (regNumber r)
    | none => argOperand (.word w)
  | .char _ => none
  | .comma => none
  | .bad => none

/-- The mnemonics (R116). -/
def mnemonicOf : Opcode → String
  | .nop => "NOP"
  | .clear => "CLEAR"
  | .readReg => "READ_REG"
  | .addSymbol => "ADD_SYMBOL"
  | .setFreq => "SET_FREQ"
  | .readFreq => "READ_FREQ"
  | .readOrder => "READ_ORDER"
  | .readHeap => "READ_HEAP"
  | .buildInit => "BUILD_INIT"
  | .buildStep => "BUILD_STEP"
  | .build => "BUILD"
  | .readNodeF => "READ_NODE_F"
  | .readNodeL => "READ_NODE_L"
  | .readCodeLen => "READ_CODE_LEN"
  | .readCodeBits => "READ_CODE_BITS"

/-- The opcode of a mnemonic (R116). -/
def opcodeOfMnemonic (name : List Char) : Option Opcode := allOpcodes.find? (fun o => (mnemonicOf o).toList == name)

/-- The command of an opcode with the operands of a line, in the order of R123; zero in every unused field. -/
def assembleOperands (o : Opcode) (operands : List Token) : Option Instr :=
  match usesSym o, usesArg o, operands with
  | false, false, [] => some (instrOf o 0#16 0#32)
  | true, false, [a] => (symOperand a).map (fun sym => instrOf o sym 0#32)
  | false, true, [a] =>
    if o = .readReg then (regOperand a).map (fun arg => instrOf o 0#16 arg)
    else (argOperand a).map (fun arg => instrOf o 0#16 arg)
  | true, true, [a, b] =>
    match symOperand a, argOperand b with
    | some sym, some arg => some (instrOf o sym arg)
    | _, _ => none
  | _, _, _ => none

/-- The command of one line of the notation (R123). -/
def assembleLine (line : String) : Option Instr :=
  match tokens line.toList.length line.toList with
  | .word m :: rest =>
    match opcodeOfMnemonic m, operandsOf rest with
    | some o, some operands => assembleOperands o operands
    | _, _ => none
  | _ => none

/-! ## Pseudo-instructions (R124); READ_CODE, whose expansion depends on a response, is in Machine/HostModel.lean -/

/-- `ADD_STRING`: one ADD_SYMBOL per character, in string order (R124). -/
def addString (text : List Char) : List Instr := text.map (fun c => .addSymbol (BitVec.ofNat 16 c.toNat))

/-- `LOAD_TABLE`: one SET_FREQ per entry, in the order written (R124). -/
def loadTable (entries : List (SymField × ArgField)) : List Instr := entries.map (fun e => .setFreq e.1 e.2)

/-- `READ_STATUS` (R124). -/
def readStatus : Instr := .readReg (regNumber .status)

end Sys2Proof.Machine
end

