-- ==== Sys2Proof/Tests/Slice0.lean ====
section
/-! SUPPORT. Tests on fixed values, taken from the spec (`30_encoding.md` R126 and `95_test_vectors.md`, by the number of
the vector), and for every statement with hypotheses a witness that meets them. -/

namespace Sys2Proof.Tests

open Sys2Proof.Machine

/-! ## States to test on -/

/-- The state a command leaves, or the same state where it does not end. -/
def ran (i : Instr) (s : State) : State :=
  match exec i s with
  | .next t => t
  | .fault _ => s
  | .refused _ => s

/-- The state after commands from reset. -/
def after (c : Config) (is : List Instr) : State := is.foldl (fun s i => ran i s) (State.resetWith c)

/-- The response to a command. -/
def reply (i : Instr) (s : State) : Option ResponseWord := (ran i s).response

/-- BUILD_INIT and all merges of a table of four symbols. -/
def merged (s : State) : State := [Instr.buildInit, .buildStep, .buildStep, .buildStep].foldl (fun s i => ran i s) s

/-- The state with a list of host moves to come and no response waiting. -/
def facing (moves : List HostMove) (s : State) : State := { s with host := moves, response := none }

/-- The state a step leaves, or the same state where it stops. -/
def stepped (s : State) : State :=
  match step s with
  | .next t => t
  | .fault _ => s
  | .refused _ => s

/-- "abracadabra" in the default configuration, set as a table in the order of first occurrence (V-FRQ-1). -/
def abraTable : List Instr :=
  [.setFreq 0x61#16 5#32, .setFreq 0x62#16 2#32, .setFreq 0x72#16 2#32, .setFreq 0x63#16 1#32, .setFreq 0x64#16 1#32]

/-- The table of V-FRQ-1. -/
def abra : State := after Config.standard abraTable

/-- The heap of V-PQ-2. -/
def abraInit : State := after Config.standard (abraTable ++ [.buildInit])

/-- The tree of V-TB-1 and its ROM. -/
def abraBuilt : State := after Config.standard (abraTable ++ [.build])

/-- A small configuration: four symbols, FMAX = 15. -/
def small : Config := { symW := 2, freqW := 4, lmax := 3 }

/-- The small configuration with room for codes of one digit only. -/
def short : Config := { symW := 2, freqW := 4, lmax := 1 }

/-- The counts of V-TB-6, on the symbols 0 to 3. -/
def fourTable : List Instr := [.setFreq 0#16 1#32, .setFreq 1#16 1#32, .setFreq 2#16 2#32, .setFreq 3#16 4#32]

/-- Two symbols with counts 2 and 1. -/
def loaded : State := after small [.addSymbol 1#16, .addSymbol 1#16, .addSymbol 2#16]

/-- A table with TOTAL = FMAX = 1. -/
def full : State := after { symW := 2, freqW := 1, lmax := 3 } [.addSymbol 1#16]

/-- All four symbols, in LOAD. -/
def four : State := after small fourTable

/-- All four symbols, with the queue full. -/
def mid : State := after small (fourTable ++ [.buildInit])

/-- Two items left in the queue. -/
def two : State := after small (fourTable ++ [.buildInit, .buildStep, .buildStep])

/-- One item left in the queue. -/
def one : State := after small (fourTable ++ [.buildInit, .buildStep, .buildStep, .buildStep])

/-- The tree of four symbols and its ROM. -/
def built : State := after small (fourTable ++ [.build])

/-- The empty table, in MERGING. -/
def emptyMerging : State := after small [.buildInit]

/-- The empty table, built. -/
def emptyBuilt : State := after small [.build]

/-- One symbol, built. -/
def single : State := after small [.addSymbol 1#16, .build]

/-- Four symbols where codes have at most one digit, before the build. -/
def tooMany : State := after short fourTable

/-- The same, with one item left in the queue. -/
def tooManyOne : State := merged tooMany

/-- The small configuration with room for codes of two digits. -/
def flat : Config := { symW := 2, freqW := 4, lmax := 2 }

/-- Four equal counts: more than LMAX + 1 symbols, and a tree no deeper than LMAX. -/
def even : State := after flat [.setFreq 0#16 1#32, .setFreq 1#16 1#32, .setFreq 2#16 1#32, .setFreq 3#16 1#32]

/-- The same, with one item left in the queue. -/
def evenOne : State := merged even

/-- What READ_CODE gives: the length's response and the chunks. -/
def readCodeReply (sym : SymField) (s : State) : Option (Data × List Data) :=
  match readCodePseudo sym s with
  | .ok (d, chunks, _) => some (d, chunks)
  | .error _ => none

/-! ## Well-formedness: one ill-formed command per check -/

theorem test_wf_symbol : WellFormed small (.addSymbol 4#16) = false := by decide
theorem test_wf_count : WellFormed small (.setFreq 3#16 16#32) = false := by decide
theorem test_wf_register : WellFormed small (.readReg 9#32) = false := by decide
theorem test_wf_chunk : WellFormed small (.readCodeBits 3#16 1#32) = false := by decide
theorem test_wf_setFreq_symbol : WellFormed small (.setFreq 4#16 15#32) = false := by decide
theorem test_wf_largest : WellFormed small (.setFreq 3#16 15#32) = true := by decide

/-! ## Decoding: the examples of R126, a word for each opcode, and the errors of V-CTL-2 -/

theorem test_decode_nop : decode 0x0000000000000000#64 = .ok .nop := by decide
theorem test_decode_clear : decode 0x0100000000000000#64 = .ok .clear := by decide
theorem test_decode_readReg : decode 0x0200000000000005#64 = .ok (.readReg 5#32) := by decide
theorem test_decode_addSymbol : decode 0x1000006100000000#64 = .ok (.addSymbol 0x61#16) := by decide
theorem test_decode_setFreq : decode 0x1100006100000005#64 = .ok (.setFreq 0x61#16 5#32) := by decide
theorem test_decode_readFreq : decode 0x1200007200000000#64 = .ok (.readFreq 0x72#16) := by decide
theorem test_decode_readOrder : decode 0x1300000000000002#64 = .ok (.readOrder 2#32) := by decide
theorem test_decode_readHeap : decode 0x2000000000000000#64 = .ok (.readHeap 0#32) := by decide
theorem test_decode_buildInit : decode 0x3000000000000000#64 = .ok .buildInit := by decide
theorem test_decode_buildStep : decode 0x3100000000000000#64 = .ok .buildStep := by decide
theorem test_decode_build : decode 0x3200000000000000#64 = .ok .build := by decide
theorem test_decode_readNodeF : decode 0x3300000000000008#64 = .ok (.readNodeF 8#32) := by decide
theorem test_decode_readNodeL : decode 0x3400000000000008#64 = .ok (.readNodeL 8#32) := by decide
theorem test_decode_readCodeLen : decode 0x4000006200000000#64 = .ok (.readCodeLen 0x62#16) := by decide
theorem test_decode_readCodeBits : decode 0x4100006200000000#64 = .ok (.readCodeBits 0x62#16 0#32) := by decide
theorem test_decode_illegal : decode 0x05FFFFFFFFFFFFFF#64 = .error .illegalOpcode := by decide
theorem test_decode_rsv : decode 0x0201000000000000#64 = .error .reservedBits := by decide
theorem test_decode_sym : decode 0x0200000100000000#64 = .error .reservedBits := by decide
theorem test_decode_arg : decode 0x3000000000000001#64 = .error .reservedBits := by decide

/-- R83: the bytes of SET_FREQ 'a', 5, least significant first. -/
theorem test_decode_bytes :
    decodeBytes [0x05#8, 0x00#8, 0x00#8, 0x00#8, 0x61#8, 0x00#8, 0x00#8, 0x11#8] =
      .ok (.setFreq 0x61#16 5#32, []) := by decide

theorem test_table_word : decodeTableWord 64 0x1100006100000005 = some (.setFreq 0x61#16 5#32) := by decide

theorem test_fetch_word :
    (stepped (State.reset.withFetchWord 64 0x1000006100000000)).response = some 0x0000000000000001#64 := by decide

/-! ## Assembler notation (R123 to R125), with the words of R126 -/

theorem test_assemble_setFreq : assembleLine "SET_FREQ 'a', 5 ; count" = some (.setFreq 0x61#16 5#32) := by decide
theorem test_assemble_readReg : assembleLine "READ_REG ROOT" = some (.readReg 5#32) := by decide
theorem test_assemble_hex : assembleLine "READ_REG 0xFFFFFFFF" = some (.readReg 0xFFFFFFFF#32) := by decide

/-- The model's choices: white space around a comma is free (log 27), and a line with a number beyond its field (log 28) or
with a quoted character for a count (log 29) has no command. -/
theorem test_assemble_choices :
    assembleLine "SET_FREQ 'a',5" = some (.setFreq 0x61#16 5#32) ∧ assembleLine "ADD_SYMBOL 65536" = none ∧
      assembleLine "SET_FREQ 'a', 'b'" = none := by decide

/-- READ_CODE (R124) with V-TB-1's ROM: one chunk for 'b' "110", none for a symbol without a code. -/
theorem test_readCode :
    readCodeReply 0x62#16 (facing [] abraBuilt) = some (0x10003#56, [3#56]) ∧
      readCodeReply 0x7A#16 (facing [] abraBuilt) = some (0#56, []) := by decide

/-! ## Each command on a vector of the spec -/

/-- V-CTL-1: a failed word, then STATUS. -/
theorem test_nop_and_record :
    reply .nop (stepped (facing [.command 0x0000000000000001#64] State.reset)) = some 0#64 ∧
      reply (.readReg 0#32) (stepped (facing [.command 0x0000000000000001#64] State.reset)) = some 0x400#64 := by decide

/-- V-CTL-5. -/
theorem test_clear : reply .clear abraBuilt = some 0#64 ∧ (ran .clear abraBuilt) = { State.reset with response := some 0#64 } := by
  decide

/-- V-CTL-3. -/
theorem test_readReg_param : reply (.readReg 7#32) State.reset = some 0x0000000000FF2008#64 := by decide

/-- V-TB-1. -/
theorem test_readReg_root : reply (.readReg 5#32) abraBuilt = some 0x0000000080000008#64 := by decide

/-- V-CTL-4: the largest symbol of SYM_W = 4, and the first beyond it. -/
theorem test_addSymbol_range :
    reply (.addSymbol 0xF#16) (State.resetWith { symW := 4, freqW := 4, lmax := 15 }) = some 1#64 ∧
      reply (.addSymbol 0x10#16) (State.resetWith { symW := 4, freqW := 4, lmax := 15 }) =
        some 0x0600000000000000#64 := by decide

/-- V-FRQ-4: TOTAL = FMAX = 1. -/
theorem test_addSymbol_overflow : reply (.addSymbol 1#16) full = some 0x0900000000000000#64 := by decide

/-- V-FRQ-2: 'b' removed, the others keep their order. -/
theorem test_setFreq_remove :
    reply (.setFreq 0x62#16 0#32) abra = some 2#64 ∧
      orderList (ran (.setFreq 0x62#16 0#32) abra) = [0x61, 0x72, 0x63, 0x64] := by decide

/-- V-FRQ-3: ARG_RANGE at FMAX + 1. -/
theorem test_setFreq_argRange : reply (.setFreq 0#16 16#32) (State.resetWith small) = some 0x0700000000000000#64 := by
  decide

/-- V-FRQ-1. -/
theorem test_readFreq : reply (.readFreq 0x61#16) abra = some 5#64 ∧ reply (.readFreq 0x7A#16) abra = some 0#64 := by
  decide

/-- V-FRQ-1. -/
theorem test_readOrder :
    reply (.readOrder 4#32) abra = some 0x64#64 ∧ reply (.readOrder 5#32) abra = some 0x0800000000000000#64 := by decide

/-- V-PQ-2: HEAP [3, 4, 2, 0, 1]. -/
theorem test_readHeap :
    reply (.readHeap 1#32) abraInit = some 4#64 ∧ reply (.readHeap 3#32) abraInit = some 0#64 ∧
      reply (.readHeap 5#32) abraInit = some 0x0800000000000000#64 := by decide

/-- V-PQ-1, V-PQ-2. -/
theorem test_buildInit : reply .buildInit abra = some 5#64 ∧ heapItems (ran .buildInit abra) = [3, 4, 2, 0, 1] := by
  decide

/-- V-PQ-3, V-TB-1: the first merge. -/
theorem test_buildStep :
    reply .buildStep abraInit = some 5#64 ∧ heapItems (ran .buildStep abraInit) = [1, 5, 2, 0] := by decide

/-- V-PQ-4 and V-PQ-6, on the symbols 0 to 3: equal keys do not move, so the second Dequeue returns node 3. -/
theorem test_equal_keys :
    childOn (ran .buildStep (ran .buildInit even)) 4 true = some 3 ∧
      heapItem (ran .buildStep (ran .buildInit even)) 0 = 2 ∧
      heapItems (after small [.setFreq 0#16 1#32, .setFreq 1#16 2#32, .setFreq 2#16 2#32, .setFreq 3#16 2#32, .buildInit,
        .buildStep]) = [2, 1, 4] := by decide

/-- V-TB-3: finalize with no symbol. -/
theorem test_buildStep_empty : reply .buildStep emptyMerging = some 0x0080000000000000#64 := by decide

/-- V-TB-2. -/
theorem test_build : reply .build (ran .buildStep abraInit) = some 0x00C0000000000008#64 := by decide

/-- V-TB-6: CODE_TOO_LONG keeps the merges. -/
theorem test_build_tooLong :
    reply .build tooMany = some 0x0A00000000000000#64 ∧ (ran .build tooMany).nodeCount = 7 ∧
      heapItems (ran .build tooMany) = [6] ∧ reply (.readReg 0#32) (ran .build tooMany) = some 0x320A01#64 := by decide

/-- V-TB-1. -/
theorem test_readNodeF :
    reply (.readNodeF 0#32) abraBuilt = some 5#64 ∧ reply (.readNodeF 8#32) abraBuilt = some 0x000000010000000B#64 := by
  decide

/-- V-TB-1. -/
theorem test_readNodeL :
    reply (.readNodeL 4#32) abraBuilt = some 0x64#64 ∧
      reply (.readNodeL 5#32) abraBuilt = some 0x0080000003000004#64 := by decide

/-- V-TB-1's ROM: 'c' "1110", and no code for 'z'. -/
theorem test_readCodeLen :
    reply (.readCodeLen 0x63#16) abraBuilt = some 0x0000000000010004#64 ∧
      reply (.readCodeLen 0x7A#16) abraBuilt = some 0#64 := by decide

/-- V-TB-1's ROM: 'b' "110" has BITS 0x3, with the first digit at bit 0. -/
theorem test_readCodeBits :
    reply (.readCodeBits 0x62#16 0#32) abraBuilt = some 3#64 ∧
      reply (.readCodeBits 0x62#16 8#32) abraBuilt = some 0x0800000000000000#64 := by decide

/-! ## Witnesses: states and operands that meet the hypotheses of each statement -/

theorem inv_loaded : Inv loaded := by decide
theorem inv_full : Inv full := by decide
theorem inv_four : Inv four := by decide
theorem inv_mid : Inv mid := by decide
theorem inv_two : Inv two := by decide
theorem inv_one : Inv one := by decide
theorem inv_built : Inv built := by decide
theorem inv_emptyMerging : Inv emptyMerging := by decide
theorem inv_emptyBuilt : Inv emptyBuilt := by decide
theorem inv_single : Inv single := by decide
theorem inv_tooMany : Inv tooMany := by decide
theorem inv_tooManyOne : Inv tooManyOne := by decide
theorem inv_even : Inv even := by decide
theorem inv_evenOne : Inv evenOne := by decide
theorem inv_reset : Inv (State.resetWith small) := by decide

theorem witness_TransportLeastSignificantFirst :
    (0 < 8 ∧ 7 < 8) ∧ ([] : List Byte).length < 8 ∧ ([1#8, 2#8, 3#8, 4#8, 5#8, 6#8, 7#8] : List Byte).length < 8 := by
  decide

/-- `READ_CODE_BITS 'b', 0` offered to a ready block. -/
theorem witness_StepRunsDecodedCommand :
    (facing [.command 0x4100006200000000#64] abraBuilt).config.legal = true ∧
      (facing [.command 0x4100006200000000#64] abraBuilt).response = none ∧
      (facing [.command 0x4100006200000000#64] abraBuilt).host = .command 0x4100006200000000#64 :: [] ∧
      decode 0x4100006200000000#64 = .ok (.readCodeBits 0x62#16 0#32) := by decide

/-- The first opcode beyond the control commands, and the last of all. -/
theorem witness_UnassignedOpcodeIsIllegal :
    (facing [.command 0x03FFFFFFFFFFFFFF#64] built).config.legal = true ∧
      (facing [.command 0x03FFFFFFFFFFFFFF#64] built).response = none ∧
      (opcodeOfByte (opcField 0x03FFFFFFFFFFFFFF#64)).isNone = true ∧
      (opcodeOfByte (opcField 0xFF00000000000000#64)).isNone = true ∧
      opcField 0x03FFFFFFFFFFFFFF#64 ∉ [0x00#8, 0x01#8, 0x02#8, 0x10#8, 0x11#8, 0x12#8, 0x13#8, 0x20#8, 0x30#8, 0x31#8,
        0x32#8, 0x33#8, 0x34#8, 0x40#8, 0x41#8] := by decide

/-- One word for each of the three fields: RSV, SYM and ARG. -/
theorem witness_ReservedBitsRaise :
    (facing [.command 0x1001006100000000#64] built).config.legal = true ∧
      (facing [.command 0x1001006100000000#64] built).response = none ∧
      BitVec.extractLsb' 48 8 0x1001006100000000#64 ≠ 0#8 ∧
      (opcField 0x0200000100000000#64 = 0x02#8 ∧ BitVec.extractLsb' 32 16 0x0200000100000000#64 ≠ 0#16) ∧
      (opcField 0x3000000000000001#64 = 0x30#8 ∧ BitVec.extractLsb' 0 32 0x3000000000000001#64 ≠ 0#32) ∧
      (0x02#8 : Byte) ∉ [0x10#8, 0x11#8, 0x12#8, 0x40#8, 0x41#8] ∧
      (0x30#8 : Byte) ∉ [0x02#8, 0x11#8, 0x13#8, 0x20#8, 0x33#8, 0x34#8, 0x41#8] ∧
      (0x30#8 : Byte) ∈ [0x00#8, 0x01#8, 0x02#8, 0x10#8, 0x11#8, 0x12#8, 0x13#8, 0x20#8, 0x30#8, 0x31#8, 0x32#8, 0x33#8,
        0x34#8, 0x40#8, 0x41#8] := by decide

theorem witness_ResponseTransferAndIdle :
    built.config.legal = true ∧ built.response.isSome = true ∧ built.host = [] ∧ (State.resetWith small).response = none ∧
      ({ built with host := [.command 0#64] } : State).host = .command 0#64 :: [] ∧
      ({ built with host := [.takeResponse] } : State).host = .takeResponse :: [] ∧
      (facing [.takeResponse] built).response = none := by decide

theorem witness_ResetGivesResetState :
    ({ built with host := [.reset] } : State).config.legal = true ∧
      ({ built with host := [.reset] } : State).host = .reset :: [] := by decide

/-- Both ends of the ranges of R6, and a value just outside each. -/
theorem witness_IllegalConfigurationRefused :
    Config.legal { symW := 1, freqW := 1, lmax := 1 } = true ∧
      Config.legal { symW := 16, freqW := 32, lmax := 65535 } = true ∧
      Config.legal { symW := 0, freqW := 1, lmax := 1 } = false ∧
      Config.legal { symW := 17, freqW := 1, lmax := 1 } = false ∧
      Config.legal { symW := 1, freqW := 0, lmax := 1 } = false ∧
      Config.legal { symW := 1, freqW := 33, lmax := 1 } = false ∧
      Config.legal { symW := 1, freqW := 1, lmax := 0 } = false ∧
      (State.resetWith { symW := 1, freqW := 1, lmax := 65536 }).config.legal = false := by decide

theorem witness_NopAndClearEffects : built.config.legal = true ∧ exec .nop built = .next (ran .nop built) :=
  ⟨by decide, rfl⟩

theorem witness_StatusRegisterLayout : built.config.legal = true ∧ statusData built = 2#56 := by decide

theorem witness_CountAndRootRegisters : Inv built ∧ built.root = 6 ∧ built.rootValid = true := ⟨inv_built, by decide⟩

theorem witness_ParamRegisterIsConstant :
    built.config.legal = true ∧
      step (facing [.command 0#64] built) = .next (stepped (facing [.command 0#64] built)) := ⟨by decide, rfl⟩

theorem witness_IdentRegisterIsConstant : built.config.legal = true := by decide

/-- The first register number outside the map. -/
theorem witness_RegisterNumberOutsideMap : built.config.legal = true ∧ 9 ≤ (9#32 : ArgField).toNat := by decide

/-- A symbol already present, and the largest symbol, absent before. -/
theorem witness_AddSymbolCounts :
    Inv loaded ∧ loaded.phase = .load ∧ (1#16 : SymField).toNat < loaded.config.dMax ∧
      (3#16 : SymField).toNat < loaded.config.dMax ∧ loaded.total < loaded.config.fmax ∧
      0 < freqRead loaded 1 ∧ freqRead loaded 3 = 0 := ⟨inv_loaded, by decide⟩

/-- The last count that fits: TOTAL = FMAX − 1. -/
theorem witness_AddSymbolCounts_last :
    Inv (after small [.setFreq 1#16 14#32]) ∧
      (after small [.setFreq 1#16 14#32]).total + 1 = (after small [.setFreq 1#16 14#32]).config.fmax := by decide

theorem witness_TableOverflowRaises_add :
    full.config.legal = true ∧ full.phase = .load ∧ (1#16 : SymField).toNat < full.config.dMax ∧
      full.total = full.config.fmax := by decide

/-- A new total of FMAX + 1. -/
theorem witness_TableOverflowRaises_set :
    Inv loaded ∧ loaded.phase = .load ∧ (3#16 : SymField).toNat < loaded.config.dMax ∧
      (13#32 : ArgField).toNat ≤ loaded.config.fmax ∧
      loaded.total - freqRead loaded 3 + (13#32 : ArgField).toNat = loaded.config.fmax + 1 := ⟨inv_loaded, by decide⟩

/-- A count of FMAX + 1. -/
theorem witness_TableOverflowRaises_arg :
    loaded.config.legal = true ∧ loaded.phase = .load ∧ (1#16 : SymField).toNat < loaded.config.dMax ∧
      (16#32 : ArgField).toNat = loaded.config.fmax + 1 := by decide

/-- The three cases of ORDER: appended (with the new total FMAX), removed, and kept. -/
theorem witness_SetFreqSets :
    Inv loaded ∧ loaded.phase = .load ∧
      ((3#16 : SymField).toNat < loaded.config.dMax ∧ freqRead loaded 3 = 0 ∧
        loaded.total - freqRead loaded 3 + (12#32 : ArgField).toNat = loaded.config.fmax) ∧
      ((1#16 : SymField).toNat < loaded.config.dMax ∧ 0 < freqRead loaded 1 ∧
        loaded.total - freqRead loaded 1 + (0#32 : ArgField).toNat ≤ loaded.config.fmax) ∧
      loaded.total - freqRead loaded 1 + (14#32 : ArgField).toNat = loaded.config.fmax := ⟨inv_loaded, by decide⟩

theorem witness_SetFreqAndClearIdempotent :
    Inv loaded ∧ loaded.phase = .load ∧ (3#16 : SymField).toNat < loaded.config.dMax ∧
      (2#32 : ArgField).toNat ≤ loaded.config.fmax ∧
      loaded.total - freqRead loaded (3#16 : SymField).toNat + (2#32 : ArgField).toNat ≤ loaded.config.fmax ∧
      exec (.setFreq 3#16 2#32) loaded = .next (ran (.setFreq 3#16 2#32) loaded) ∧
      exec .clear loaded = .next (ran .clear loaded) :=
  ⟨inv_loaded, by decide, by decide, by decide, by decide, rfl, rfl⟩

theorem witness_ReadFreqReturnsCount : Inv built ∧ (3#16 : SymField).toNat + 1 = built.config.dMax :=
  ⟨inv_built, by decide⟩

/-- The last position, and the first beyond it. -/
theorem witness_ReadOrderReturnsSymbol :
    Inv loaded ∧ (1#32 : ArgField).toNat + 1 = loaded.distinct ∧ ¬ (2#32 : ArgField).toNat < loaded.distinct :=
  ⟨inv_loaded, by decide⟩

/-- A block that was built and then cleared. -/
theorem witness_LoadingAnInputCountsIt :
    Inv (facing [] (ran .clear built)) ∧ (facing [] (ran .clear built)).phase = .load ∧
      (facing [] (ran .clear built)).distinct = 0 ∧ (facing [] (ran .clear built)).response = none ∧
      (∀ x ∈ ([3#16, 1#16, 3#16] : List SymField), x.toNat < (facing [] (ran .clear built)).config.dMax) ∧
      ([3#16, 1#16, 3#16] : List SymField).length ≤ (facing [] (ran .clear built)).config.fmax :=
  ⟨by decide, by decide, by decide, by decide, by simp; decide, by decide⟩

/-- Room for exactly one item more. -/
theorem witness_EnqueueKeepsHeap :
    cellsDense (ran .buildStep mid).heap (ran .buildStep mid).heapCount ∧ HeapOrdered (ran .buildStep mid) ∧
      (∀ x ∈ heapItems (ran .buildStep mid), x < (ran .buildStep mid).config.nodeMax ∧
        (cellsGet (ran .buildStep mid).node x).isSome = true) ∧
      (ran .buildStep mid).heapCount + 1 = (ran .buildStep mid).config.heapMax ∧
      0 < (ran .buildStep mid).config.nodeMax ∧ (cellsGet (ran .buildStep mid).node 0).isSome = true := by decide

/-- A full queue, a queue of one item, and an empty one. -/
theorem witness_DequeueRemovesMinimum :
    (cellsDense mid.heap mid.heapCount ∧ HeapOrdered mid ∧
      (∀ x ∈ heapItems mid, x < mid.config.nodeMax ∧ (cellsGet mid.node x).isSome = true) ∧ 0 < mid.heapCount ∧
      mid.heapCount = mid.config.heapMax) ∧
    (cellsDense one.heap one.heapCount ∧ HeapOrdered one ∧
      (∀ x ∈ heapItems one, x < one.config.nodeMax ∧ (cellsGet one.node x).isSome = true) ∧ one.heapCount = 1 ∧
      one.heapCount ≤ one.config.heapMax) ∧
    emptyMerging.heapCount = 0 := by decide

/-- The root position, the last one, and the first beyond it. -/
theorem witness_ReadHeapReturnsItem :
    Inv mid ∧ (0#32 : ArgField).toNat < mid.heapCount ∧ (3#32 : ArgField).toNat + 1 = mid.heapCount ∧
      ¬ (4#32 : ArgField).toNat < mid.heapCount := ⟨inv_mid, by decide⟩

theorem witness_BuildInitCreatesLeaves :
    (Inv loaded ∧ loaded.phase = .load ∧ loaded.distinct = 2) ∧
      (Inv (State.resetWith small) ∧ (State.resetWith small).phase = .load ∧ (State.resetWith small).distinct = 0) :=
  ⟨⟨inv_loaded, by decide⟩, inv_reset, by decide⟩

/-- A full queue, and the last merge. -/
theorem witness_BuildStepMerges :
    (Inv mid ∧ mid.phase = .merging ∧ 1 < mid.heapCount) ∧ (Inv two ∧ two.phase = .merging ∧ two.heapCount = 2) :=
  ⟨⟨inv_mid, by decide⟩, inv_two, by decide⟩

theorem witness_BuildStepFinalizes_empty :
    Inv emptyMerging ∧ emptyMerging.phase = .merging ∧ emptyMerging.heapCount = 0 := ⟨inv_emptyMerging, by decide⟩

/-- The leaf of symbol 0 has the path "110", longer than one digit. -/
theorem leafDeeper_tooManyOne : LeafDeeper tooManyOne 6 1 := ⟨[true, true, false], 0, 0, by decide, by decide, by decide⟩

theorem not_leafDeeper_one : ¬ LeafDeeper one 6 3 := by
  rw [(Inv.treeOk inv_one (by decide)).leafDeeper_iff (by decide)]; decide

/-- LMAX is the depth itself. -/
theorem not_leafDeeper_evenOne : ¬ LeafDeeper evenOne 6 2 := by
  rw [(Inv.treeOk inv_evenOne (by decide)).leafDeeper_iff (by decide)]; decide

theorem witness_BuildStepFinalizes_tooLong :
    Inv tooManyOne ∧ tooManyOne.phase = .merging ∧ tooManyOne.heapCount = 1 ∧
      LeafDeeper tooManyOne (heapItem tooManyOne 0) tooManyOne.config.lmax :=
  ⟨inv_tooManyOne, by decide, by decide, leafDeeper_tooManyOne⟩

theorem witness_BuildStepFinalizes_root :
    Inv one ∧ one.phase = .merging ∧ one.heapCount = 1 ∧ ¬ LeafDeeper one (heapItem one 0) one.config.lmax :=
  ⟨inv_one, by decide, by decide, not_leafDeeper_one⟩

/-- From LOAD with LMAX + 1 symbols, from MERGING, and with no symbol. -/
theorem witness_BuildCompletes :
    (Inv four ∧ four.phase ≠ .built ∧ four.distinct = four.config.lmax + 1) ∧
      (Inv two ∧ two.phase = .merging ∧ two.distinct ≤ two.config.lmax + 1) ∧
      (Inv emptyMerging ∧ emptyMerging.phase ≠ .built ∧ emptyMerging.distinct = 0) :=
  ⟨⟨inv_four, by decide⟩, ⟨inv_two, by decide⟩, inv_emptyMerging, by decide⟩

theorem merges_even : execAll (mergeSteps even) even = .next evenOne := rfl

theorem merges_tooMany : execAll (mergeSteps tooMany) tooMany = .next tooManyOne := rfl

/-- More than LMAX + 1 symbols, and a tree no deeper than LMAX. -/
theorem witness_BuildCompletes_depth :
    Inv even ∧ even.phase ≠ .built ∧ even.config.lmax + 1 < even.distinct ∧
      execAll (mergeSteps even) even = .next evenOne ∧ ¬ LeafDeeper evenOne (2 * even.distinct - 2) even.config.lmax := by
  refine ⟨inv_even, by decide, by decide, merges_even, ?_⟩
  have h : 2 * even.distinct - 2 = 6 ∧ even.config.lmax = 2 := by decide
  rw [h.1, h.2]; exact not_leafDeeper_evenOne

/-- A tree that is too deep. -/
theorem witness_BuildCompletes_tooLong :
    Inv tooMany ∧ tooMany.phase ≠ .built ∧ execAll (mergeSteps tooMany) tooMany = .next tooManyOne ∧
      LeafDeeper tooManyOne (2 * tooMany.distinct - 2) tooMany.config.lmax := by
  refine ⟨inv_tooMany, by decide, merges_tooMany, ?_⟩
  have h : 2 * tooMany.distinct - 2 = 6 ∧ tooMany.config.lmax = 1 := by decide
  rw [h.1, h.2]; exact leafDeeper_tooManyOne

theorem witness_CodeTooLongKeepsMerges :
    Inv tooMany ∧ exec .build tooMany = .next (ran .build tooMany) ∧
      (ran .build tooMany).response = some (0x0A#8 ++ 0#56) ∧
      (∃ u, exec .buildStep (ran .build tooMany) = .next u) :=
  ⟨inv_tooMany, rfl, by decide, ran .buildStep (ran .build tooMany), rfl⟩

/-- No BUILD_STEP, the most BUILD_STEPs, and a table of LMAX + 1 symbols. -/
theorem witness_BuildIsInitAndSteps :
    Inv four ∧ four.phase = .load ∧ 0 < max four.distinct 1 ∧ 3 + 1 = max four.distinct 1 ∧
      four.distinct = four.config.lmax + 1 := ⟨inv_four, by decide⟩

theorem witness_NodeFrequencies :
    (Inv two ∧ 5 + 1 = two.nodeCount) ∧ (Inv built ∧ built.phase = .built ∧ 0 < built.distinct) :=
  ⟨⟨inv_two, by decide⟩, inv_built, by decide⟩

theorem witness_NodeRecordsNeverChange :
    Inv mid ∧ Instr.buildStep ≠ .clear ∧ exec .buildStep mid = .next (ran .buildStep mid) ∧ 3 < mid.nodeCount :=
  ⟨inv_mid, by decide, rfl, by decide⟩

/-- The last leaf, the first internal node, the last node, and the first index beyond. -/
theorem witness_ReadNodeFrequency :
    Inv built ∧ (3#32 : ArgField).toNat + 1 = built.distinct ∧ (4#32 : ArgField).toNat = built.distinct ∧
      (6#32 : ArgField).toNat + 1 = built.nodeCount ∧ ¬ (7#32 : ArgField).toNat < built.nodeCount :=
  ⟨inv_built, by decide⟩

/-- The last leaf, the first internal node, the last node, and the first index beyond. -/
theorem witness_ReadNodeLinks :
    Inv two ∧ (3#32 : ArgField).toNat < two.distinct ∧
      (¬ (4#32 : ArgField).toNat < two.distinct ∧ (4#32 : ArgField).toNat < two.nodeCount) ∧
      (5#32 : ArgField).toNat + 1 = two.nodeCount ∧ ¬ (6#32 : ArgField).toNat < two.nodeCount :=
  ⟨inv_two, by decide⟩

theorem witness_HistoryDecidesNothing :
    Instr.buildStep ≠ .readReg 0#32 ∧ exec .buildStep two = .next (ran .buildStep two) ∧
      ({ two with errCode := 5#8, errOpc := 0x10#8, position := 9 } : State) ≠ two := ⟨by decide, rfl, by decide⟩

theorem witness_ReadCodeLength :
    Inv built ∧ built.phase = .built ∧ (3#16 : SymField).toNat + 1 = built.config.dMax := ⟨inv_built, by decide⟩

/-- The last chunk, and the first beyond it. -/
theorem witness_ReadCodeChunk :
    built.config.legal = true ∧ built.phase = .built ∧ (0#16 : SymField).toNat < built.config.dMax ∧
      (0#32 : ArgField).toNat + 1 = built.config.nchunk ∧ ¬ (1#32 : ArgField).toNat < built.config.nchunk := by decide

theorem witness_CodesArePrefixFree :
    Inv built ∧ built.phase = .built ∧ (romRead built 0).valid = true ∧ (romRead built 1).valid = true ∧ 0 ≠ 1 :=
  ⟨inv_built, by decide⟩

theorem witness_SingleSymbolCode : Inv single ∧ single.phase = .built ∧ single.distinct = 1 := ⟨inv_single, by decide⟩

/-- With symbols (one of frequency 0 among them) and without. -/
theorem witness_RomCoversTheTable :
    (Inv (ran .build loaded) ∧ (ran .build loaded).phase = .built ∧ 0 < (ran .build loaded).distinct ∧
      freqRead (ran .build loaded) 0 = 0) ∧
      (Inv emptyBuilt ∧ emptyBuilt.phase = .built ∧ emptyBuilt.distinct = 0) :=
  ⟨by decide, inv_emptyBuilt, by decide⟩

theorem witness_CodeIsPathToLeaf :
    Inv built ∧ built.phase = .built ∧ (romRead built 0).valid = true ∧ codeOf built 0 = [true, true, false] :=
  ⟨inv_built, by decide⟩

theorem witness_KraftEquality : Inv built ∧ built.phase = .built ∧ 0 < built.distinct := ⟨inv_built, by decide⟩

theorem witness_EncodedLengthIsInternalSum : Inv built ∧ built.phase = .built := ⟨inv_built, by decide⟩

theorem witness_LengthsFollowFrequencies :
    Inv built ∧ built.phase = .built ∧ (romRead built 3).valid = true ∧ (romRead built 0).valid = true ∧
      freqRead built 0 < freqRead built 3 := ⟨inv_built, by decide⟩

theorem witness_BuiltStateIsReadOnly :
    built.phase = .built ∧ Instr.build ≠ .clear ∧ exec .build built = .next (ran .build built) :=
  ⟨by decide, by decide, rfl⟩

/-- A read that fails, a BUILD that fails, and CLEAR and a read that succeed. -/
theorem witness_ErrorRecordRule :
    (exec (.readReg 9#32) built = .next (ran (.readReg 9#32) built) ∧
      reply (.readReg 9#32) built = some 0x0800000000000000#64) ∧
      (exec .build tooMany = .next (ran .build tooMany) ∧ reply .build tooMany = some 0x0A00000000000000#64) ∧
      (exec .clear built = .next (ran .clear built) ∧ reply .clear built = some 0#64) ∧
      (exec .nop built = .next (ran .nop built) ∧ reply .nop built = some 0#64) :=
  ⟨⟨rfl, by decide⟩, ⟨rfl, by decide⟩, ⟨rfl, by decide⟩, rfl, by decide⟩

theorem witness_PhaseAdmission :
    built.config.legal = true ∧ built.phase ∉ admittedIn (.addSymbol 1#16) ∧ built.phase ∈ admittedIn (.readCodeLen 1#16) ∧
      exec (.readCodeLen 1#16) built = .next (ran (.readCodeLen 1#16) built) :=
  ⟨by decide, by decide, by decide, rfl⟩

theorem witness_SymbolOutOfRange :
    loaded.config.legal = true ∧ loaded.phase ∈ admittedIn (.addSymbol 4#16) ∧
      symbolOperand (.addSymbol 4#16) = some 4#16 ∧ (4#16 : SymField).toNat = loaded.config.dMax := by decide

theorem witness_OnlyListedErrors : exec .build tooMany = .next (ran .build tooMany) := rfl

/-- A read that succeeds, and one that fails. -/
theorem witness_ReadsHaveNoEffect :
    (isRead (.readHeap 0#32) = true ∧ exec (.readHeap 0#32) mid = .next (ran (.readHeap 0#32) mid)) ∧
      (isRead (.readHeap 4#32) = true ∧ exec (.readHeap 4#32) mid = .next (ran (.readHeap 4#32) mid) ∧
        reply (.readHeap 4#32) mid = some 0x0800000000000000#64) :=
  ⟨⟨by decide, rfl⟩, by decide, rfl, by decide⟩

/-- Each of the four changes of PHASE. -/
theorem witness_PhaseTransitions :
    (exec .buildInit four = .next (ran .buildInit four) ∧ (ran .buildInit four).phase ≠ four.phase) ∧
      (exec .buildStep one = .next (ran .buildStep one) ∧ (ran .buildStep one).phase ≠ one.phase) ∧
      (exec .build four = .next (ran .build four) ∧ (ran .build four).phase ≠ four.phase) ∧
      (exec .clear built = .next (ran .clear built) ∧ (ran .clear built).phase ≠ built.phase) :=
  ⟨⟨rfl, by decide⟩, ⟨rfl, by decide⟩, ⟨rfl, by decide⟩, rfl, by decide⟩

theorem witness_ResetHasInvariant : small.legal = true ∧ Config.standard.legal = true := by decide

/-- A step that executes BUILD_STEP. -/
theorem witness_StepKeepsInvariant :
    Inv (facing [.command 0x3100000000000000#64] two) ∧
      step (facing [.command 0x3100000000000000#64] two) =
        .next (stepped (facing [.command 0x3100000000000000#64] two)) := ⟨by decide, rfl⟩

theorem witness_StepKeepsArraysCanonical :
    ArraysCanonical (facing [.command 0x3100000000000000#64] two) ∧
      step (facing [.command 0x3100000000000000#64] two) =
        .next (stepped (facing [.command 0x3100000000000000#64] two)) := ⟨by decide, rfl⟩

theorem witness_StepKeepsResponsesOk :
    ResponsesOk built ∧ step built = .next (stepped built) ∧ (stepped built).taken.length = 1 := ⟨by decide, rfl, by decide⟩

theorem witness_NoStepStops : Inv two := inv_two

theorem witness_OneResponsePerWord :
    Inv (facing [.command 0xFFFFFFFFFFFFFFFF#64] two) ∧ (facing [.command 0xFFFFFFFFFFFFFFFF#64] two).response = none ∧
      (facing [.command 0xFFFFFFFFFFFFFFFF#64] two).host = .command 0xFFFFFFFFFFFFFFFF#64 :: [] := by decide

/-- A block that holds another table, built, and its last response taken. -/
theorem witness_HostRoundTrip :
    Inv (facing [] built) ∧ (facing [] built).response = none ∧
      (∀ x ∈ ([3#16, 1#16, 3#16] : List SymField), x.toNat < (facing [] built).config.dMax) ∧
      ([3#16, 1#16, 3#16] : List SymField).length ≤ (facing [] built).config.fmax ∧
      (facing [] built).config.dMax = (facing [] built).config.lmax + 1 ∧
      (∃ x ∈ ([3#16, 1#16, 3#16] : List SymField), ∃ y ∈ ([3#16, 1#16, 3#16] : List SymField), x ≠ y) :=
  ⟨by decide, by decide, by simp; decide, by decide, by decide, 3#16, by simp, 1#16, by simp, by decide⟩

end Sys2Proof.Tests
end

