-- ==== Sys2Proof/Proofs/Scope.lean ====
section
/-! PROOFS. The legal ranges of the configuration and what the machine does outside them (`00_scope.md` R6, R8). -/

namespace Sys2Proof.Machine

theorem legal_iff_bounds {c : Config} :
    c.legal = true ↔
      (1 ≤ c.symW ∧ c.symW ≤ 16) ∧ (1 ≤ c.freqW ∧ c.freqW ≤ 32) ∧ (1 ≤ c.lmax ∧ c.lmax ≤ 65535) := by
  refine ⟨legal_bounds, fun ⟨hsym, hfreq, hlmax⟩ => ?_⟩
  simp [Config.legal, hsym, hfreq, hlmax]

theorem step_refused {s : State} (hl : s.config.legal = false) : step s = .refused .illegalConfiguration :=
  if_pos hl

/-- Every command runs through `runCommand`, whose first check is the configuration. -/
theorem exec_refused {s : State} (i : Instr) (hl : s.config.legal = false) :
    exec i s = .refused .illegalConfiguration := by
  rw [exec_eq]; exact runCommand_refused hl

/-- Settles O10: the check of the configuration comes first, in a step and in every command. -/
theorem illegalConfigurationRefused : Obligations.IllegalConfigurationRefused :=
  ⟨fun _ => legal_iff_bounds, fun _ hl => ⟨step_refused hl, fun i => exec_refused i hl⟩⟩

end Sys2Proof.Machine
end

/-! PROOFS. The architectural state (`10_state.md`): what a command's rule leaves unchanged, the registers as READ_REG
gives them, the admission of commands, and the invariant, which every step keeps. -/

namespace Sys2Proof.Machine

/-! ## What a step can do -/

/-- A step is a reset, the transfer of a response, or the run of an accepted command word (R351, R360, R361). -/
theorem step_next {s t : State} (h : step s = .next t) :
    (∃ rest, t = resetBlock { s with host := rest }) ∨ (∃ rest, t = transferResponse { s with host := rest }) ∨
      ∃ w rest, runWord w (acceptCommand rest s) = .next t := by
  unfold step at h
  split_ifs at h
  unfold portStep at h
  split at h
  · cases h; exact .inl ⟨_, rfl⟩
  · cases h; exact .inr (.inl ⟨_, rfl⟩)
  · split_ifs at h
    · exact .inr (.inr ⟨_, _, h⟩)
    · cases h; exact .inr (.inl ⟨s.host, rfl⟩)
  · cases h; exact .inr (.inl ⟨s.host, rfl⟩)

/-- A command word raises the error of its decoding or runs as a command (R118). -/
theorem runWord_next {w : CommandWord} {s t : State} (h : runWord w s = .next t) :
    (∃ e, t = raise (opcField w) (decodeErrorStatus e) s) ∨ ∃ i, exec i s = .next t := by
  unfold runWord at h
  split at h
  · cases h; exact .inl ⟨_, rfl⟩
  · exact .inr ⟨_, h⟩

/-! ## What a command's rule leaves unchanged, in any state -/

/-- Every written node record stays as it is, and none is taken away (R39, R41). -/
def RecordsKept (s t : State) : Prop :=
  s.nodeCount ≤ t.nodeCount ∧ ∀ k < s.nodeCount, cellsGet t.node k = cellsGet s.node k

theorem RecordsKept.of_eq {s t : State} (hn : t.node = s.node) (hc : t.nodeCount = s.nodeCount) : RecordsKept s t :=
  ⟨hc.ge, fun _ _ => by rw [hn]⟩

theorem RecordsKept.trans {s t u : State} (h : RecordsKept s t) (h' : RecordsKept t u) : RecordsKept s u :=
  ⟨h.1.trans h'.1, fun k hk => (h'.2 k (hk.trans_le h.1)).trans (h.2 k hk)⟩

/-- A merge writes the record after the last one (R247). -/
theorem merge_recordsKept {n : Nat} {s t : State} (h : merge s = .ok (n, t)) : RecordsKept s t := by
  obtain ⟨-, -, ht, -⟩ := merge_frame h
  refine ⟨by rw [ht]; exact Nat.le_succ _, fun k hk => ?_⟩
  obtain ⟨⟨x, s1⟩, h1, h⟩ := bind_eq_ok.1 h
  obtain ⟨⟨y, s2⟩, h2, h⟩ := bind_eq_ok.1 h
  obtain ⟨kx, -, h⟩ := bind_eq_ok.1 h
  obtain ⟨ky, -, h⟩ := bind_eq_ok.1 h
  obtain ⟨s3, h3, h⟩ := bind_eq_ok.1 h
  obtain ⟨s4, h4, h⟩ := bind_eq_ok.1 h
  cases h
  have e2 : s2.node = s.node ∧ s2.nodeCount = s.nodeCount := by
    rw [(dequeue_frame h2).2, (dequeue_frame h1).2]; exact ⟨rfl, rfl⟩
  rw [enqueue_frame h4, (nodeWrite_frame h3).2]
  simp only [e2]
  exact cellsGet_set_other _ _ hk.ne

theorem mergeAll_recordsKept : ∀ (fuel : Nat) {s t : State}, mergeAll fuel s = .ok t → RecordsKept s t := by
  intro fuel
  induction fuel with
  | zero => intro s t h; cases h; exact .of_eq rfl rfl
  | succ fuel ih =>
    intro s t h
    unfold mergeAll at h
    split_ifs at h
    · obtain ⟨⟨n, u⟩, hm, h⟩ := bind_eq_ok.1 h
      exact (merge_recordsKept hm).trans (ih h)
    · cases h; exact .of_eq rfl rfl

/-- BUILD_INIT's rule responds after its body (R246). -/
theorem buildInitRule_ok {s t : State} {a : Answer} (h : buildInitRule s = .ok (a, t)) :
    (∃ d, a = .respond d) ∧ buildInitBody s = .ok t := by
  obtain ⟨u, hu, hb⟩ := bind_eq_ok.1 h
  cases hb
  exact ⟨⟨_, rfl⟩, hu⟩

/-- What the rule of a command other than CLEAR leaves of a state, and the phases it leads to (R31, R39). -/
structure RuleKeeps (i : Instr) (s t : State) : Prop where
  config : t.config = s.config
  phase : t.phase = s.phase ∨ (i = .buildInit ∧ t.phase = .merging) ∨ (i = .buildStep ∧ t.phase = .built) ∨
    (i = .build ∧ (t.phase = .built ∨ s.phase = .load ∧ t.phase = .merging))
  records : RecordsKept s t ∨ i = .buildInit ∨ (i = .build ∧ s.phase = .load)

theorem RuleKeeps.of_eq {i : Instr} {s t : State} (hc : t.config = s.config) (hp : t.phase = s.phase)
    (hn : t.node = s.node) (hk : t.nodeCount = s.nodeCount) : RuleKeeps i s t :=
  ⟨hc, .inl hp, .inl (.of_eq hn hk)⟩

/-- The finalize step writes no record and leads to BUILT, if it changes PHASE at all (R248). -/
theorem finalize_frame {s t : State} {a : Answer} (h : finalize s = .ok (a, t)) :
    t.config = s.config ∧ (t.phase = s.phase ∨ t.phase = .built) ∧ RecordsKept s t := by
  rcases finalize_ok h with ⟨-, rfl, -⟩ | ⟨-, ht, -⟩
  · exact ⟨rfl, .inl rfl, .of_eq rfl rfl⟩
  · exact ⟨by rw [ht], .inr (by rw [ht]), .of_eq (by rw [ht]) (by rw [ht])⟩

theorem buildStepRule_keeps {s t : State} {a : Answer} (h : buildStepRule s = .ok (a, t)) :
    RuleKeeps .buildStep s t := by
  rcases buildStepRule_ok h with ⟨-, n, hm, -⟩ | ⟨-, hf⟩
  · obtain ⟨-, -, ht, -⟩ := merge_frame hm
    exact ⟨by rw [ht], .inl (by rw [ht]), .inl (merge_recordsKept hm)⟩
  · obtain ⟨hc, hp, hr⟩ := finalize_frame hf
    exact ⟨hc, hp.imp_right fun hb => .inr (.inl ⟨rfl, hb⟩), .inl hr⟩

theorem buildRule_keeps {s t : State} {a : Answer} (h : buildRule s = .ok (a, t)) : RuleKeeps .build s t := by
  obtain ⟨u, v, hu, hv, hf⟩ := buildRule_ok h
  obtain ⟨hc, hp, hr⟩ := finalize_frame hf
  obtain ⟨hvu, -⟩ := mergeAll_frame _ _ _ hv
  have hvc : v.config = u.config := by rw [hvu]
  have hvp : v.phase = u.phase := by rw [hvu]
  rw [hvc] at hc
  rw [hvp] at hp
  rcases hu with ⟨hl, hb⟩ | ⟨-, rfl⟩
  · obtain ⟨hus, -⟩ := buildInitBody_frame hb
    have huc : u.config = s.config := by rw [hus]
    have hup : u.phase = .merging := by rw [hus]
    refine ⟨hc.trans huc, .inr (.inr (.inr ⟨rfl, ?_⟩)), .inr (.inr ⟨rfl, hl⟩)⟩
    exact hp.symm.imp_right fun h => ⟨hl, h.trans hup⟩
  · exact ⟨hc, hp.imp_right fun h => .inr (.inr ⟨rfl, .inl h⟩), .inl ((mergeAll_recordsKept _ hv).trans hr)⟩

theorem ruleOf_keeps {i : Instr} {s t : State} {a : Answer} (hne : i ≠ .clear) (h : ruleOf i s = .ok (a, t)) :
    RuleKeeps i s t := by
  by_cases hi : isRead i = true
  · rw [(readRule_ok hi h).1]; exact .of_eq rfl rfl rfl rfl
  · cases i <;> simp only [isRead, not_true_eq_false] at hi <;> simp only [ruleOf] at h
    case clear => exact absurd rfl hne
    case addSymbol sym =>
      rcases addSymbolRule_ok h with ⟨-, rfl, -⟩ | ⟨-, -, ht, -⟩
      · exact .of_eq rfl rfl rfl rfl
      · exact .of_eq (by rw [ht]) (by rw [ht]) (by rw [ht]) (by rw [ht])
    case setFreq sym arg =>
      rcases setFreqRule_ok h with ⟨-, rfl, -⟩ | ⟨-, -, ht, -⟩
      · exact .of_eq rfl rfl rfl rfl
      · exact .of_eq (by rw [ht]) (by rw [ht]) (by rw [ht]) (by rw [ht])
    case buildInit =>
      obtain ⟨ht, -⟩ := buildInitBody_frame (buildInitRule_ok h).2
      exact ⟨by rw [ht], .inr (.inl ⟨rfl, by rw [ht]⟩), .inr (.inl rfl)⟩
    case buildStep => exact buildStepRule_keeps h
    case build => exact buildRule_keeps h

theorem ruleOf_config {i : Instr} {s t : State} {a : Answer} (h : ruleOf i s = .ok (a, t)) : t.config = s.config := by
  by_cases hi : i = .clear
  · subst hi; cases h; rfl
  · exact (ruleOf_keeps hi h).config

theorem finalize_raise {s t : State} {e : Status} (h : finalize s = .ok (.raise e, t)) : e = .codeTooLong := by
  rcases finalize_ok h with ⟨ha, -⟩ | ⟨⟨d, ha⟩, -⟩ <;> cases ha
  rfl

/-- The errors that a rule itself raises, after the checks of the decode stage (R313). -/
theorem ruleOf_raise {i : Instr} {s t : State} {e : Status} (h : ruleOf i s = .ok (.raise e, t)) :
    e = .indexRange ∨ e = .freqOverflow ∨ e = .codeTooLong := by
  by_cases hi : isRead i = true
  · exact .inl ((readRule_ok hi h).2 e rfl)
  · cases i <;> simp only [isRead, not_true_eq_false] at hi <;> simp only [ruleOf] at h
    case clear => cases h
    case addSymbol sym =>
      rcases addSymbolRule_ok h with ⟨ha, -⟩ | ⟨-, ⟨d, ha⟩, -⟩ <;> cases ha
      exact .inr (.inl rfl)
    case setFreq sym arg =>
      rcases setFreqRule_ok h with ⟨ha, -⟩ | ⟨-, ha, -⟩ <;> cases ha
      exact .inr (.inl rfl)
    case buildInit => obtain ⟨⟨d, ha⟩, -⟩ := buildInitRule_ok h; cases ha
    case buildStep =>
      rcases buildStepRule_ok h with ⟨-, n, -, ha⟩ | ⟨-, hf⟩
      · cases ha
      · exact .inr (.inr (finalize_raise hf))
    case build => obtain ⟨u, v, -, -, hf⟩ := buildRule_ok h; exact .inr (.inr (finalize_raise hf))

/-! ## The configuration (R6, R48) -/

theorem exec_config {i : Instr} {s t : State} (h : exec i s = .next t) : t.config = s.config := by
  rcases (exec_next_iff.1 h).2 with ⟨e, -, rfl⟩ | ⟨-, a, u, hr, rfl⟩
  · rfl
  · exact (finish_config ..).trans (ruleOf_config hr)

theorem step_config {s t : State} (h : step s = .next t) : t.config = s.config := by
  rcases step_next h with ⟨rest, rfl⟩ | ⟨rest, rfl⟩ | ⟨w, rest, hw⟩
  · rfl
  · exact transferResponse_config _
  · rcases runWord_next hw with ⟨e, rfl⟩ | ⟨i, hi⟩
    · rfl
    · exact (exec_config hi).trans (acceptCommand_config ..)

/-! ## The invariant -/

section
variable {s t : State} (hn : t.node = s.node) (hc : t.config = s.config)
include hn hc

theorem nodeRead_congr : nodeRead t = nodeRead s := by
  funext i; simp only [nodeRead, hn, hc]

theorem maxDepth_congr (fuel i : Nat) : maxDepth t fuel i = maxDepth s fuel i := by
  induction fuel generalizing i with
  | zero => rfl
  | succ fuel ih => simp only [maxDepth, nodeRead_congr hn hc, ih]

theorem walk_congr (fuel i : Nat) (path : List Bool) (rom : Cells RomEntry) :
    walk t fuel i path rom = walk s fuel i path rom := by
  induction fuel generalizing i path rom with
  | zero => rfl
  | succ fuel ih => simp only [walk, nodeRead_congr hn hc, ih, hc]

/-- The ROM of a tree depends on the node store and the configuration alone (R282). -/
theorem romOf_congr (r : Nat) : romOf t r = romOf s r := by
  simp only [romOf, maxDepth_congr hn hc, walk_congr hn hc, hc]

theorem romIsOfRoot_congr (hr : t.root = s.root) (hrom : t.rom = s.rom) (hm : t.maxLen = s.maxLen) :
    romIsOfRoot t = romIsOfRoot s := by
  simp only [romIsOfRoot, romOf_congr hn hc, hr, hrom, hm]

end

theorem Inv.errorRecord {s : State} (h : Inv s) : ErrorRecordOk s := h.2.2.2.2

/-- The invariant does not speak of the ports, and of the error record it says the code alone (R40). -/
theorem Inv.update {s : State} (h : Inv s) {code opc : Byte}
    (he : returnedCode code = true ∧ (code = 0#8 → opc = 0#8)) (resp : Option ResponseWord)
    (taken : List ResponseWord) (host : List HostMove) (pos : Nat) :
    Inv { s with errCode := code, errOpc := opc, response := resp, taken := taken, host := host, position := pos } := by
  refine ⟨h.1, h.2.1, h.2.2.1, ?_, he⟩
  rcases Inv.phase h with ⟨hp, hload⟩ | ⟨hp, hmerging⟩ | ⟨hp, hheap, hcount, hnodes, hnone, hsome⟩
  · exact Iff.mpr (phaseContents_load hp) hload
  · exact Iff.mpr (phaseContents_merging hp) hmerging
  · refine Iff.mpr (phaseContents_built hp) ⟨hheap, hcount, hnodes, hnone, fun hpos => ?_⟩
    obtain ⟨hvalid, hroot, hforest, hrom⟩ := hsome hpos
    exact ⟨hvalid, hroot, hforest, Eq.trans (b := romIsOfRoot s) (romIsOfRoot_congr rfl rfl rfl rfl rfl) hrom⟩

theorem Inv.respond {s : State} (h : Inv s) (d : Data) : Inv (respond d s) := h.update h.errorRecord _ _ _ _

theorem Inv.raise {s : State} (h : Inv s) (opc : Byte) {e : Status}
    (he : returnedCode (statusCode e) = true ∧ statusCode e ≠ 0#8) : Inv (raise opc e s) :=
  h.update ⟨he.1, fun h0 => absurd h0 he.2⟩ _ _ _ _

theorem Inv.transferResponse {s : State} (h : Inv s) (rest : List HostMove) :
    Inv (transferResponse { s with host := rest }) := by
  unfold Machine.transferResponse
  split <;> exact h.update h.errorRecord _ _ _ _

theorem Inv.acceptCommand {s : State} (h : Inv s) (rest : List HostMove) : Inv (acceptCommand rest s) :=
  h.update h.errorRecord _ _ _ _

theorem Inv.resetWith {c : Config} (hl : c.legal = true) : Inv (State.resetWith c) := by
  have h0 : freqRead (State.resetWith c) = fun _ => 0 := rfl
  refine ⟨hl, ?_, ⟨?_, rfl, ?_, ?_, Nat.zero_le _⟩, ?_, rfl, fun _ => rfl⟩
  · simp [ArraysCanonical, cellsSorted, State.resetWith]
  · simp [State.resetWith]
  · rw [show presentSymbols (State.resetWith c) = [] by simp [presentSymbols, h0]]; exact .nil
  · rw [show freqSum (State.resetWith c) = 0 by simp [freqSum, h0]]; rfl
  · exact (phaseContents_load rfl).2 ⟨rfl, rfl, rfl, rfl, rfl, rfl, rfl, rfl⟩

theorem Inv.resetBlock {s : State} (h : Inv s) : Inv (resetBlock s) :=
  (Inv.resetWith h.1).update ⟨rfl, fun _ => rfl⟩ none s.taken s.host s.position

/-- The error codes of the decode stage are codes the block returns (R312). -/
theorem admission_code {i : Instr} {s : State} {e : Status} (h : admission i s = some e) :
    returnedCode (statusCode e) = true ∧ statusCode e ≠ 0#8 := by
  unfold admission admissionError at h
  split_ifs at h <;> cases h <;> decide

theorem decodeError_code (e : DecodeError) :
    returnedCode (statusCode (decodeErrorStatus e)) = true ∧ statusCode (decodeErrorStatus e) ≠ 0#8 := by
  cases e <;> decide

/-- The state a rule leaves meets the invariant, given that its arrays are canonical. -/
theorem RuleEnd.inv {s u : State} {a : Answer} (h : Inv s) (hr : RuleEnd s a u) (hc : ArraysCanonical u) : Inv u := by
  refine ⟨hr.config ▸ h.1, hc, hr.table, hr.contents, ?_⟩
  rcases hr.errors with ⟨e1, e2⟩ | ⟨e1, e2⟩ <;> rw [ErrorRecordOk, e1, e2]
  · exact h.errorRecord
  · exact ⟨rfl, fun _ => rfl⟩

theorem exec_inv {i : Instr} {s t : State} (h : Inv s) (e : exec i s = .next t) : Inv t := by
  rcases (exec_next_iff.1 e).2 with ⟨err, ha, rfl⟩ | ⟨ha, a, u, hr, rfl⟩
  · exact h.raise _ (admission_code ha)
  · obtain ⟨a', u', hr', hend⟩ := ruleOf_spec h ha
    obtain ⟨rfl, rfl⟩ : a' = a ∧ u' = u := by simpa [hr] using hr'.symm
    have hu := hend.inv h (ruleOf_canonical h.2.1 hr)
    cases a' with
    | respond d => exact hu.respond d
    | raise err => exact hu.raise _ (hend.code err rfl)

theorem runWord_inv {w : CommandWord} {s t : State} (h : Inv s) (e : runWord w s = .next t) : Inv t := by
  rcases runWord_next e with ⟨err, rfl⟩ | ⟨i, hi⟩
  · exact h.raise _ (decodeError_code err)
  · exact exec_inv h hi

/-- Settles O55: a reset, a transferred response, a word's decode error and every command each keep the invariant. -/
theorem stepKeepsInvariant : Obligations.StepKeepsInvariant := by
  intro s t h e
  rcases step_next e with ⟨rest, rfl⟩ | ⟨rest, rfl⟩ | ⟨w, rest, hw⟩
  · exact (h.update h.errorRecord s.response s.taken rest s.position).resetBlock
  · exact h.transferResponse rest
  · exact runWord_inv (h.acceptCommand rest) hw

/-- Settles O54. -/
theorem resetHasInvariant : Obligations.ResetHasInvariant := fun _ hl => ⟨Inv.resetWith hl, rfl, rfl⟩

/-- Settles O9: the reset state lists no entry of any array. -/
theorem resetValues : Obligations.ResetValues := fun _ =>
  ⟨rfl, fun _ => rfl, rfl, rfl, rfl, rfl, rfl, rfl, rfl, rfl, fun _ => rfl, rfl, fun _ => ⟨rfl, rfl, rfl⟩, rfl⟩

/-! ## The registers (R45 to R49, R153) -/

section
variable {s : State} (hl : s.config.legal = true)
include hl

/-- READ_REG of a register of the map returns its data and changes nothing else (R153, R87). -/
theorem exec_readReg {arg : ArgField} {d : Data} (hd : registerData s arg.toNat = some d) :
    exec (.readReg arg) s = .next { s with response := some (0x00#8 ++ d) } :=
  exec_respond hl (admission_none_iff.2 ⟨rfl, nofun, nofun⟩) (by simp only [ruleOf, readRegRule, hd])

theorem exec_readReg_outside {arg : ArgField} (hd : registerData s arg.toNat = none) :
    exec (.readReg arg) s =
      .next { s with errCode := 0x08#8, errOpc := 0x02#8, response := some (0x08#8 ++ 0#56) } :=
  exec_fail (i := .readReg arg) (e := .indexRange) hl (admission_none_iff.2 ⟨rfl, nofun, nofun⟩)
    (by simp only [ruleOf, readRegRule, hd])

end

theorem registerData_none {s : State} {r : Nat} (h : 9 ≤ r) : registerData s r = none := by
  obtain ⟨k, rfl⟩ := Nat.exists_eq_add_of_le' h
  rfl

/-- A count register's data is its value, within the width (R49). -/
theorem fieldData_value {width v : Nat} (hv : v < 2 ^ width) (hw : width ≤ 56) :
    (fieldData width v).toNat = v ∧ (fieldData width v).toNat < 2 ^ width := by
  rw [fieldData_toNat hv hw]; exact ⟨rfl, hv⟩

/-- Settles O12. -/
theorem statusRegisterLayout : Obligations.StatusRegisterLayout := by
  refine ⟨fun s hl => ⟨statusData s, exec_readReg hl rfl, ?_, statusData_low s, statusData_errCode s,
    statusData_errOpc s, statusData_high s⟩, fun c => by simp [statusData, State.resetWith, phaseCode]⟩
  rw [statusData_phase]
  cases s.phase <;> rfl

/-- Settles O13: the bounds of the invariant keep each count within its field. -/
theorem countAndRootRegisters : Obligations.CountAndRootRegisters := by
  intro s h
  obtain ⟨hl, -, hdist, htot, hnodes, hheap, hroot, hmax⟩ := Inv.bounds h
  obtain ⟨⟨-, hsym⟩, ⟨-, hfreq⟩, -, hlmax⟩ := legal_bounds hl
  obtain ⟨hpos, hle⟩ := dMax_le hl
  have hpow : 2 ^ (s.config.symW + 1) = 2 * s.config.dMax := nodeW_pow s.config
  have hw : s.config.symW + 1 ≤ 56 := by omega
  exact ⟨
    ⟨_, exec_readReg hl rfl, fieldData_value (by omega) hw⟩,
    ⟨_, exec_readReg hl rfl, fieldData_value htot (by omega)⟩,
    ⟨_, exec_readReg hl rfl, fieldData_value (by rw [nodeW_pow]; omega) hw⟩,
    ⟨_, exec_readReg hl rfl, fieldData_value (by omega) hw⟩,
    ⟨_, exec_readReg hl rfl, fieldData_value (by omega) (by decide)⟩,
    ⟨_, exec_readReg hl rfl, rootData_valid .., by rw [rootData_root, toNat_ofNat_of_lt (by omega)],
      rootData_low .., rootData_high ..⟩⟩

/-- Settles O14: PARAM is laid out from the configuration, which no step changes. -/
theorem paramRegisterIsConstant : Obligations.ParamRegisterIsConstant := by
  refine ⟨fun s hl => ?_, by decide, fun _ _ => step_config⟩
  obtain ⟨⟨-, hsym⟩, ⟨-, hfreq⟩, -, hlmax⟩ := legal_bounds hl
  refine ⟨paramData s.config, exec_readReg hl rfl, ?_, ?_, ?_, paramData_high _⟩
  · rw [paramData_symW, toNat_ofNat_of_lt (by omega)]
  · rw [paramData_freqW, toNat_ofNat_of_lt (by omega)]
  · rw [paramData_lmax, toNat_ofNat_of_lt (by omega)]

/-- Settles O15. -/
theorem identRegisterIsConstant : Obligations.IdentRegisterIsConstant :=
  fun _ hl => exec_readReg (d := identData) hl rfl

/-- Settles O16. -/
theorem registerNumberOutsideMap : Obligations.RegisterNumberOutsideMap :=
  fun _ _ hl ha => exec_readReg_outside hl (registerData_none ha)

/-! ## The node records (R39, R41) -/

/-- Settles O34: only BUILD_INIT's body writes records from 0 on, and it runs in LOAD, where none is written. -/
theorem nodeRecordsNeverChange : Obligations.NodeRecordsNeverChange := by
  intro s t i h hne e
  rcases (exec_next_iff.1 e).2 with ⟨err, -, rfl⟩ | ⟨ha, a, u, hr, rfl⟩
  · exact RecordsKept.of_eq rfl rfl
  · refine RecordsKept.trans (t := u) ?_ (.of_eq (finish_node ..) (finish_nodeCount ..))
    have hload : s.phase = .load → RecordsKept s u := fun hp => by
      have h0 := (Inv.load h hp).2.1
      exact ⟨by omega, fun k hk => by omega⟩
    rcases (ruleOf_keeps hne hr).records with hk | rfl | ⟨-, hp⟩
    · exact hk
    · exact hload (by simpa [admitted, opcodeOf] using (admission_none_iff.1 ha).1)
    · exact hload hp

/-! ## PHASE (R31, R32) -/

/-- The model's admission table is that of R32. -/
theorem mem_admittedIn {i : Instr} {p : Phase} : p ∈ admittedIn i ↔ admitted (opcodeOf i) p = true := by
  cases i <;> cases p <;> simp [admittedIn, admitted, opcodeOf]

/-- PHASE is the first check of the decode stage that needs the state, and its only cause is the phase (R118, R314). -/
theorem admission_phase_iff {i : Instr} {s : State} : admission i s = some .phase ↔ s.phase ∉ admittedIn i := by
  rw [mem_admittedIn, admission, admissionError]
  split_ifs with h <;> simp [h]

theorem statusCode_eq_phase_iff {e : Status} : statusCode e = 0x05#8 ↔ e = .phase := by
  cases e <;> decide

/-- Settles O49: the phase check comes first, and no later check and no rule raises PHASE. -/
theorem phaseAdmission : Obligations.PhaseAdmission := by
  intro s i hl
  constructor
  · intro hp
    rw [show (encode i).extractLsb' 56 8 = opcodeByte (opcodeOf i) from opcField_word ..]
    exact exec_raise hl (admission_phase_iff.2 hp)
  · intro hp t r he ht
    have hraise : ∀ {b e u}, raise b e u = t → e ≠ .phase → r.extractLsb' 56 8 ≠ 0x05#8 := by
      rintro b e u rfl hne
      cases ht
      rw [show BitVec.extractLsb' 56 8 _ = statusCode e from stField_response ..]
      exact mt statusCode_eq_phase_iff.1 hne
    rcases (exec_next_iff.1 he).2 with ⟨e, ha, rfl⟩ | ⟨-, a, u, hr, rfl⟩
    · exact hraise rfl fun h => admission_phase_iff.1 (h ▸ ha) hp
    · cases a with
      | respond d =>
        cases ht
        rw [show BitVec.extractLsb' 56 8 _ = statusCode .ok from stField_response ..]
        decide
      | raise e =>
        refine hraise rfl ?_
        rcases ruleOf_raise hr with rfl | rfl | rfl <;> nofun

/-- Settles O53: each rule's phases, with the phases in which the command is admitted. -/
theorem phaseTransitions : Obligations.PhaseTransitions := by
  intro s t i he hne
  rcases (exec_next_iff.1 he).2 with ⟨e, -, rfl⟩ | ⟨ha, a, u, hr, rfl⟩
  · exact absurd rfl hne
  · rw [finish_phase] at hne ⊢
    have hadm := (admission_none_iff.1 ha).1
    by_cases hi : i = .clear
    · subst hi; cases hr
      exact .inr (.inr (.inr ⟨rfl, rfl⟩))
    · rcases (ruleOf_keeps hi hr).phase with hp | ⟨rfl, hp⟩ | ⟨rfl, hp⟩ | ⟨rfl, hp | ⟨hs, hp⟩⟩
      · exact absurd hp hne
      · exact .inl ⟨by simpa [admitted, opcodeOf] using hadm, hp, .inl rfl⟩
      · exact .inr (.inl ⟨by simpa [admitted, opcodeOf] using hadm, hp, .inl rfl⟩)
      · have hs : s.phase = .load ∨ s.phase = .merging := by simpa [admitted, opcodeOf] using hadm
        rcases hs with hs | hs
        · exact .inr (.inr (.inl ⟨hs, hp, rfl⟩))
        · exact .inr (.inl ⟨hs, hp, .inr rfl⟩)
      · exact .inl ⟨hs, hp, .inr rfl⟩

end Sys2Proof.Machine

/-! PROOFS. The memory of the block (`20_memory.md`): words on a narrower transport, the step that runs a command,
the canonical form of the arrays, and the commands that repeat without effect. -/

namespace Sys2Proof.Machine

/-! ## The canonical form of the arrays (R81, R56) -/

theorem ArraysCanonical.finish {s : State} (h : ArraysCanonical s) (opc : Byte) (a : Answer) :
    ArraysCanonical (finish opc a s) := by
  cases a <;> exact h

theorem ArraysCanonical.transferResponse {s : State} (h : ArraysCanonical s) :
    ArraysCanonical (transferResponse s) := by
  unfold Machine.transferResponse
  split <;> exact h

/-- Reset lists no entry of any array (R350). -/
theorem arraysCanonical_resetBlock (s : State) : ArraysCanonical (resetBlock s) := by
  simp [ArraysCanonical, cellsSorted]

theorem exec_canonical {i : Instr} {s t : State} (h : ArraysCanonical s) (e : exec i s = .next t) :
    ArraysCanonical t := by
  rcases (exec_next_iff.1 e).2 with ⟨err, -, rfl⟩ | ⟨-, a, u, hr, rfl⟩
  · exact h
  · exact (ruleOf_canonical h hr).finish _ a

theorem runWord_canonical {w : CommandWord} {s t : State} (h : ArraysCanonical s) (e : runWord w s = .next t) :
    ArraysCanonical t := by
  rcases runWord_next e with ⟨err, rfl⟩ | ⟨i, hi⟩
  · exact h
  · exact exec_canonical h hi

/-- Settles O56: a reset empties the arrays, the ports do not touch them, and every command keeps their form. -/
theorem stepKeepsArraysCanonical : Obligations.StepKeepsArraysCanonical := by
  intro s t h e
  rcases step_next e with ⟨rest, rfl⟩ | ⟨rest, rfl⟩ | ⟨w, rest, hw⟩
  · exact arraysCanonical_resetBlock _
  · exact ArraysCanonical.transferResponse (s := { s with host := rest }) h
  · exact runWord_canonical (s := acceptCommand rest s) h hw

/-! ## The step that runs a command (R85, R361) -/

/-- With `cmd_ready` at 1 the offered word transfers and runs (R361). -/
theorem step_command {s : State} {w : CommandWord} {rest : List HostMove} (hl : s.config.legal = true)
    (hr : s.response = none) (hh : s.host = .command w :: rest) : step s = runWord w (acceptCommand rest s) := by
  have hready : cmdReady s = true := by simp [cmdReady, hr]
  simp only [step, portStep, hl, hh, hready, Bool.true_eq_false, if_false, if_true]

theorem runWord_decoded {w : CommandWord} {i : Instr} (h : decode w = .ok i) (s : State) : runWord w s = exec i s := by
  simp only [runWord, h]

/-- Settles O4. -/
theorem stepRunsDecodedCommand : Obligations.StepRunsDecodedCommand := by
  intro s w i rest hl hr hh hd
  rw [step_command hl hr hh, runWord_decoded hd]
  rfl

/-! ## Words on a narrower transport (R83, R121) -/

theorem wordOfHalves_wordHalves (w : BitVec 64) : wordOfHalves (wordHalves w).1 (wordHalves w).2 = w := by
  simp (disch := rfl) only [wordOfHalves, wordHalves, BitVec.extractLsb'_append_extractLsb'_eq_extractLsb', field_all]

theorem wordOfBytes_wordBytes (w : BitVec 64) (rest : List Byte) :
    wordOfBytes (wordBytes w ++ rest) = some (w, rest) := by
  simp (disch := rfl) only [wordBytes, List.cons_append, List.nil_append, wordOfBytes,
    BitVec.extractLsb'_append_extractLsb'_eq_extractLsb', field_all]

theorem wordBytes_getElem? (w : BitVec 64) {k : Nat} (hk : k < 8) :
    (wordBytes w)[k]? = some (w.extractLsb' (8 * k) 8) := by
  interval_cases k <;> rfl

theorem wordOfBytes_short {bs : List Byte} (h : bs.length < 8) : wordOfBytes bs = none := by
  unfold wordOfBytes
  split
  · simp only [List.length_cons] at h; omega
  · rfl

/-- The decode stage reads a command's own word as the command (R110, R116, R117). -/
theorem decode_encode (i : Instr) : decode (encode i) = .ok i := by
  obtain ⟨hopc, hrsv, hsym, harg, hi⟩ := Laws.Layout.of_instrOf i (by cases i <;> rfl)
  have hs : usesSym (opcodeOf i) = false → symOf i = 0#16 := by cases i <;> simp [usesSym, opcodeOf, symOf]
  have ha : usesArg (opcodeOf i) = false → argOf i = 0#32 := by cases i <;> simp [usesArg, opcodeOf, argOf]
  simp only [decode, hopc, opcodeOfByte_opcodeByte, hrsv, hsym, harg, hi]
  rw [if_neg (by simp), if_neg (fun h => h.2 (hs h.1)), if_neg (fun h => h.2 (ha h.1))]

theorem decodeBytes_encode (i : Instr) (rest : List Byte) :
    decodeBytes (wordBytes (encode i) ++ rest) = .ok (i, rest) := by
  simp only [decodeBytes, wordOfBytes_wordBytes, decode_encode]

/-- Settles O3. -/
theorem transportLeastSignificantFirst : Obligations.TransportLeastSignificantFirst :=
  ⟨fun w _ => wordBytes_getElem? w, fun w => ⟨rfl, wordOfHalves_wordHalves w⟩, decodeBytes_encode,
    fun _ hlen => by simp only [decodeBytes, wordOfBytes_short hlen]⟩

/-! ## Commands that repeat without effect (R87) -/

/-- Writing an entry's own value to an array in canonical form changes nothing. -/
theorem cellsPut_own {α : Type} [DecidableEq α] {zero : α} {c : Cells α} {i : Nat} (hc : cellsSorted c)
    (hz : ∀ e ∈ c, e.2 ≠ zero) : cellsPut zero c i (cellsAt zero c i) = c := by
  refine cells_ext (cellsSorted_put _ _ hc) hc fun k => ?_
  unfold cellsPut cellsAt
  cases hg : cellsGet c i with
  | none =>
    rw [Option.getD_none, if_pos rfl, cellsGet_erase]
    split_ifs with hk
    · rw [hk, hg]
    · rfl
  | some v =>
    rw [Option.getD_some, if_neg (hz _ (cellsGet_mem hg)), cellsGet_set]
    split_ifs with hk
    · rw [hk, hg]
    · rfl

/-- SET_FREQ with the symbol's own count as its operand changes nothing (R183). -/
theorem setFreqRule_own {s : State} {sym : SymField} {arg : ArgField} (hs : cellsSorted s.freq)
    (hz : ∀ e ∈ s.freq, e.2 ≠ 0) (htot : s.total ≤ s.config.fmax) (hf : freqRead s sym.toNat = arg.toNat) :
    setFreqRule sym arg s = .ok (.respond (fieldData s.config.freqW (freqRead s sym.toNat)), s) := by
  have hnew : newTotal s sym.toNat arg.toNat = s.total := by unfold newTotal; omega
  have hput : cellsPut 0 s.freq sym.toNat arg.toNat = s.freq := by rw [← hf]; exact cellsPut_own hs hz
  have happend : ¬(freqRead s sym.toNat = 0 ∧ 0 < arg.toNat) := by omega
  have hremove : ¬(0 < freqRead s sym.toNat ∧ arg.toNat = 0) := by omega
  simp only [setFreqRule, hnew, if_neg (Nat.not_lt.2 htot), if_neg happend, if_neg hremove, ok_bind, freqWrite, hput]

/-- A SET_FREQ that is admitted and has room in TOTAL sets the symbol's count, and PHASE stays (R183). -/
theorem setFreq_next {s t : State} {sym : SymField} {arg : ArgField} (ha : admission (.setFreq sym arg) s = none)
    (hroom : newTotal s sym.toNat arg.toNat ≤ s.config.fmax) (e : exec (.setFreq sym arg) s = .next t) :
    t.phase = s.phase ∧ freqRead t sym.toNat = arg.toNat := by
  rcases (exec_next_iff.1 e).2 with ⟨err, herr, -⟩ | ⟨-, a, u, hr, rfl⟩
  · simp [ha] at herr
  · rcases setFreqRule_ok hr with ⟨-, -, hover⟩ | ⟨-, -, hu, -⟩
    · omega
    · rw [finish_phase, freqRead, finish_freq, hu]
      exact ⟨rfl, by rw [cellsAt_put, if_pos rfl]⟩

/-- CLEAR is admitted in every phase and has no error (R32, R152). -/
theorem exec_clear {s : State} (hl : s.config.legal = true) : exec .clear s = .next (respond 0#56 (clearBlock s)) :=
  exec_run (i := .clear) hl (admission_none_iff.2 ⟨rfl, nofun, nofun⟩) rfl

/-- Settles O20: the repeated SET_FREQ writes the count that the symbol has, and CLEAR zeroes what it has zeroed. -/
theorem setFreqAndClearIdempotent : Obligations.SetFreqAndClearIdempotent := by
  constructor
  · intro s t sym arg h hp hsym harg hroom e
    obtain ⟨hphase, hfreq⟩ := setFreq_next (admission_none_iff.2 ⟨by simp [admitted, opcodeOf, hp],
      fun _ => decide_eq_true hsym, fun _ => decide_eq_true harg⟩) (by unfold newTotal; omega) e
    obtain ⟨hl, ⟨hsorted, hnonzero, -⟩, ⟨-, -, -, -, htotal⟩, -⟩ := exec_inv h e
    have hconfig := exec_config e
    exact ⟨_, exec_respond hl (admission_none_iff.2 ⟨by simp [admitted, opcodeOf, hphase, hp],
      fun _ => decide_eq_true (hconfig ▸ hsym), fun _ => decide_eq_true (hconfig ▸ harg)⟩)
      (setFreqRule_own hsorted hnonzero htotal hfreq)⟩
  · intro s t e
    have hl := (exec_next_iff.1 e).1
    rw [exec_clear hl] at e
    cases e
    exact exec_clear (s := respond 0#56 (clearBlock s)) hl

/-! ## Reads (R87, R316) -/

/-- The register map is 0x00 to 0x08, in every state (R45). -/
theorem registerData_eq_none_iff {s : State} {r : Nat} : registerData s r = none ↔ 9 ≤ r := by
  refine ⟨fun h => ?_, registerData_none⟩
  by_contra hr
  interval_cases r <;> cases h

/-- A read at an index below a bound, or INDEX_RANGE: its answer is the same with any state passed on. -/
theorem indexedRead_state {α : Type} {p : Prop} [Decidable p] {x : Except Fault α} {f : α → Data} {s : State}
    {a : Answer} (t : State)
    (h : (if p then .ok (.raise .indexRange, s) else do let v ← x; .ok (.respond (f v), s)) = Except.ok (a, s)) :
    (if p then .ok (.raise .indexRange, t) else do let v ← x; .ok (.respond (f v), t)) = Except.ok (a, t) := by
  split_ifs at h ⊢
  · cases h; rfl
  · obtain ⟨v, hv, hb⟩ := bind_eq_ok.1 h
    cases hb
    rw [hv, ok_bind]

/-- A read's rule gives its answer again in the state in which the command has ended (R87): it reads nothing that
ending a command writes, but for STATUS, which never fails. -/
theorem readRule_finish {i : Instr} {s : State} {a : Answer} (hi : isRead i = true) (h : ruleOf i s = .ok (a, s))
    (opc : Byte) : ruleOf i (finish opc a s) = .ok (a, finish opc a s) := by
  cases i <;> simp only [isRead, Bool.false_eq_true] at hi
  case nop => cases h; rfl
  case readReg arg =>
    simp only [ruleOf, readRegRule] at h ⊢
    cases hr : registerData s arg.toNat with
    | some d =>
      simp only [hr] at h
      cases h
      simp only [finish_respond, show registerData (respond d s) arg.toNat = some d from hr]
    | none =>
      simp only [hr] at h
      cases h
      rw [finish_raise, registerData_none (registerData_eq_none_iff.1 hr)]
  case readFreq sym => cases h; rfl
  case readOrder arg =>
    simp only [ruleOf, readOrderRule, orderRead, finish_config, finish_distinct, finish_order] at h ⊢
    exact indexedRead_state _ h
  case readHeap arg =>
    simp only [ruleOf, readHeapRule, heapRead, finish_config, finish_heapCount, finish_heap] at h ⊢
    exact indexedRead_state _ h
  case readNodeF arg =>
    simp only [ruleOf, readNodeFRule, nodeRead, finish_config, finish_nodeCount, finish_node] at h ⊢
    exact indexedRead_state _ h
  case readNodeL arg =>
    simp only [ruleOf, readNodeLRule, nodeRead, finish_config, finish_nodeCount, finish_node] at h ⊢
    exact indexedRead_state _ h
  case readCodeLen sym => cases h; rfl
  case readCodeBits sym arg =>
    simp only [ruleOf, readCodeBitsRule, romRead, finish_config, finish_rom] at h ⊢
    split_ifs at h ⊢ <;> cases h <;> rfl

/-- The decode stage reads PHASE and the configuration alone, which ending a command leaves (R118). -/
theorem admission_finish (i : Instr) (opc : Byte) (a : Answer) (s : State) :
    admission i (finish opc a s) = admission i s := by
  simp only [admission, admissionError, finish_phase, finish_config]

theorem finish_finish (opc : Byte) (a : Answer) (s : State) : finish opc a (finish opc a s) = finish opc a s := by
  cases a <;> rfl

/-- An error with its opcode field as the word of the command carries it (R316). -/
theorem raise_encode (i : Instr) (e : Status) (s : State) :
    raise (opcodeByte (opcodeOf i)) e s =
      { s with errCode := statusCode e, errOpc := (encode i).extractLsb' 56 8
               response := some (statusCode e ++ 0#56) } := by
  rw [show (encode i).extractLsb' 56 8 = opcodeByte (opcodeOf i) from opcField_word ..]
  rfl

/-- Settles O52: the decode stage and a read's rule find in the state they leave what they found before. -/
theorem readsHaveNoEffect : Obligations.ReadsHaveNoEffect := by
  intro s t i hi h
  obtain ⟨hl, ⟨e, ha, rfl⟩ | ⟨ha, a, u, hr, rfl⟩⟩ := exec_next_iff.1 h
  · exact ⟨.inr ⟨(admission_code ha).2, raise_encode i e s⟩,
      exec_raise hl ((admission_finish i _ (.raise e) s).trans ha)⟩
  · obtain ⟨rfl, hraise⟩ := readRule_ok hi hr
    constructor
    · cases a with
      | respond d => exact .inl ⟨d, rfl⟩
      | raise e =>
        obtain rfl := hraise e rfl
        exact .inr ⟨show statusCode .indexRange ≠ 0#8 by decide, raise_encode ..⟩
    · have hlegal : (finish (opcodeByte (opcodeOf i)) a u).config.legal = true := by rw [finish_config]; exact hl
      exact exec_next_iff.2 ⟨hlegal, .inr ⟨(admission_finish ..).trans ha, a, _, readRule_finish hi hr _,
        (finish_finish ..).symm⟩⟩

end Sys2Proof.Machine

/-! PROOFS. The command word (`30_encoding.md`): decode and encode as inverses, the words that are no command, and the
range of the symbol operand. -/

namespace Sys2Proof.Machine

/-! ## Decode and encode (R110, R116, R117) -/

theorem opcodeOf_instrOf (o : Opcode) (sym : SymField) (arg : ArgField) : opcodeOf (instrOf o sym arg) = o := by
  cases o <;> rfl

theorem symOf_instrOf (o : Opcode) (sym : SymField) (arg : ArgField) :
    symOf (instrOf o sym arg) = if usesSym o then sym else 0#16 := by
  cases o <;> rfl

theorem argOf_instrOf (o : Opcode) (sym : SymField) (arg : ArgField) :
    argOf (instrOf o sym arg) = if usesArg o then arg else 0#32 := by
  cases o <;> rfl

/-- The word of an opcode and operand fields whose unused ones are 0 (R117). -/
theorem encode_instrOf {o : Opcode} {sym : SymField} {arg : ArgField} (hs : usesSym o = false → sym = 0#16)
    (ha : usesArg o = false → arg = 0#32) : encode (instrOf o sym arg) = opcodeByte o ++ 0#8 ++ sym ++ arg := by
  have hsym : symOf (instrOf o sym arg) = sym := by
    rw [symOf_instrOf]; split_ifs with h
    · rfl
    · exact (hs (eq_false_of_ne_true h)).symm
  have harg : argOf (instrOf o sym arg) = arg := by
    rw [argOf_instrOf]; split_ifs with h
    · rfl
    · exact (ha (eq_false_of_ne_true h)).symm
  rw [encode, opcodeOf_instrOf, hsym, harg]

/-- A word that passes the decode stage has an assigned opcode, and 0 in RSV and in the fields its command does not use
(R118). -/
theorem decode_ok {w : CommandWord} {i : Instr} (h : decode w = .ok i) :
    ∃ o, opcodeOfByte (opcField w) = some o ∧ rsvField w = 0#8 ∧ (usesSym o = false → symField w = 0#16) ∧
      (usesArg o = false → argField w = 0#32) ∧ i = instrOf o (symField w) (argField w) := by
  unfold decode at h
  split at h
  · cases h
  · next o ho =>
    split_ifs at h with hrsv hsym harg
    cases h
    exact ⟨o, ho, not_not.1 hrsv, fun hu => not_not.1 fun hne => hsym ⟨hu, hne⟩,
      fun hu => not_not.1 fun hne => harg ⟨hu, hne⟩, rfl⟩

theorem encode_of_decode {w : CommandWord} {i : Instr} (h : decode w = .ok i) : encode i = w := by
  obtain ⟨o, ho, hrsv, hsym, harg, rfl⟩ := decode_ok h
  calc encode (instrOf o (symField w) (argField w))
      = opcodeByte o ++ 0#8 ++ symField w ++ argField w := encode_instrOf hsym harg
    _ = opcField w ++ rsvField w ++ symField w ++ argField w := by rw [opcodeByte_of_some ho, hrsv]
    _ = w := word_of_fields w

theorem decode_eq_ok_iff {w : CommandWord} {i : Instr} : decode w = .ok i ↔ w = encode i :=
  ⟨fun h => (encode_of_decode h).symm, fun h => h ▸ decode_encode i⟩

/-- Settles O2: the decode stage leaves no field of a word unread, so the command's fields give the word back. -/
theorem decodeInvertsEncode : Obligations.DecodeInvertsEncode := fun _ _ => decode_eq_ok_iff

/-- Settles O1: each word is the encoding of its command. -/
theorem specExampleWordsDecode : Obligations.SpecExampleWordsDecode := by
  unfold Obligations.SpecExampleWordsDecode
  simp only [decode_eq_ok_iff]
  decide

/-! ## Words that are no command (R113, R119) -/

/-- The assigned values of OPC are those of the opcode map (R116). -/
theorem opcodeOfByte_eq_none_iff {b : Byte} : opcodeOfByte b = none ↔ b ∉ allOpcodes.map opcodeByte := by
  simp [opcodeOfByte]

/-- The assigned values of OPC as natural numbers (R116). -/
def assignedValues : Finset Nat := (allOpcodes.map fun o => (opcodeByte o).toNat).toFinset

theorem opcodeOfByte_ofNat_eq_none_iff {n : Nat} (hn : n < 256) :
    opcodeOfByte (BitVec.ofNat 8 n) = none ↔ n ∉ assignedValues := by
  have hbyte (o : Opcode) : opcodeByte o = BitVec.ofNat 8 n ↔ (opcodeByte o).toNat = n := by
    rw [← BitVec.toNat_inj, BitVec.toNat_ofNat, Nat.mod_eq_of_lt hn]
  simp only [opcodeOfByte_eq_none_iff, assignedValues, List.mem_toFinset, List.mem_map, hbyte]

/-- Counting with a list of the numbers below n, or with their finite set. -/
theorem length_filter_range (n : Nat) (p : Nat → Bool) :
    ((List.range n).filter p).length = ((Finset.range n).filter (p · = true)).card := by
  simp only [Finset.card_def, Finset.filter_val, Finset.range_val, Multiset.range, Multiset.filter_coe, Multiset.coe_card,
    Bool.decide_eq_true]

/-- Of the 256 values of OPC, the fifteen opcodes take one each (R119). -/
theorem unassigned_length :
    ((List.range 256).filter fun n => (opcodeOfByte (BitVec.ofNat 8 n)).isNone).length = 241 := by
  have hsdiff : (Finset.range 256).filter (fun n => (opcodeOfByte (BitVec.ofNat 8 n)).isNone = true) =
      Finset.range 256 \ assignedValues := by
    ext n
    simp only [Finset.mem_filter, Finset.mem_sdiff, Finset.mem_range, Option.isNone_iff_eq_none]
    exact and_congr_right opcodeOfByte_ofNat_eq_none_iff
  have hsubset : assignedValues ⊆ Finset.range 256 := by decide
  have hcard : assignedValues.card = 15 := by decide
  rw [length_filter_range, hsdiff, Finset.card_sdiff_of_subset hsubset, Finset.card_range, hcard]

theorem decode_unassigned {w : CommandWord} (h : opcodeOfByte (opcField w) = none) :
    decode w = .error .illegalOpcode := by
  simp only [decode, h]

/-- RSV must be 0, and so must SYM and ARG where the command does not use them (R111 to R113). -/
theorem decode_reserved {w : CommandWord} {o : Opcode} (ho : opcodeOfByte (opcField w) = some o)
    (h : rsvField w ≠ 0#8 ∨ (usesSym o = false ∧ symField w ≠ 0#16) ∨ (usesArg o = false ∧ argField w ≠ 0#32)) :
    decode w = .error .reservedBits := by
  simp only [decode, ho]
  split_ifs with hrsv hsym harg
  · rfl
  · rfl
  · rfl
  · exact absurd h (by simp only [hrsv, hsym, harg, or_self, not_false_eq_true])

/-- An accepted word that is no command raises the error of the decode stage with the word's own opcode field, and
nothing else of the block changes (R118, R316). -/
theorem step_decodeError {s : State} {w : CommandWord} {rest : List HostMove} {e : DecodeError}
    (hl : s.config.legal = true) (hr : s.response = none) (hh : s.host = .command w :: rest)
    (hd : decode w = .error e) :
    step s = .next (raise (opcField w) (decodeErrorStatus e) (acceptCommand rest s)) := by
  rw [step_command hl hr hh]
  simp only [runWord, hd]

/-- Settles O5: the lookup of the opcode comes before every other check of the word. -/
theorem unassignedOpcodeIsIllegal : Obligations.UnassignedOpcodeIsIllegal :=
  ⟨unassigned_length, fun _ _ _ hl hr hh hopc =>
    step_decodeError hl hr hh (decode_unassigned (opcodeOfByte_eq_none_iff.2 hopc))⟩

/-- The opcodes that R117 lists with a symbol. -/
theorem usesSym_of_notMem {o : Opcode} (h : opcodeByte o ∉ [0x10#8, 0x11#8, 0x12#8, 0x40#8, 0x41#8]) :
    usesSym o = false := by
  revert h; cases o <;> decide

/-- The opcodes that R117 lists with a number. -/
theorem usesArg_of_notMem {o : Opcode}
    (h : opcodeByte o ∉ [0x02#8, 0x11#8, 0x13#8, 0x20#8, 0x33#8, 0x34#8, 0x41#8]) : usesArg o = false := by
  revert h; cases o <;> decide

/-- Settles O6: with the opcode found, each of the three fields is checked by the columns of R117. -/
theorem reservedBitsRaise : Obligations.ReservedBitsRaise := by
  intro s w rest hl hr hh hopc hbits
  obtain ⟨o, ho⟩ : ∃ o, opcodeOfByte (opcField w) = some o :=
    Option.ne_none_iff_exists'.1 fun hnone => opcodeOfByte_eq_none_iff.1 hnone hopc
  rw [← opcodeByte_of_some ho] at hbits
  exact step_decodeError hl hr hh (decode_reserved ho
    (hbits.imp_right (Or.imp (And.imp_left usesSym_of_notMem) (And.imp_left usesArg_of_notMem))))

/-! ## The range of the symbol operand (R111, R118) -/

/-- A command's symbol operand is its SYM field, where it uses one (R117). -/
theorem symbolOperand_eq_some_iff {i : Instr} {sym : SymField} :
    symbolOperand i = some sym ↔ usesSym (opcodeOf i) = true ∧ symOf i = sym := by
  cases i <;> simp [symbolOperand, usesSym, opcodeOf, symOf]

/-- SYM_RANGE is the check after PHASE (R118). -/
theorem admission_symRange {i : Instr} {s : State} (hp : s.phase ∈ admittedIn i)
    (hu : usesSym (opcodeOf i) = true) (hs : s.config.dMax ≤ (symOf i).toNat) : admission i s = some .symRange := by
  have hphase := mem_admittedIn.1 hp
  have hrange : symInRange s.config (symOf i) = false := decide_eq_false (Nat.not_lt.2 hs)
  rw [admission, admissionError, if_neg (by simp [hphase]), if_pos ⟨hu, hrange⟩]

/-- Settles O50: in an admitted phase the symbol's range is the first check that can fail, whatever ARG is. -/
theorem symbolOutOfRange : Obligations.SymbolOutOfRange := by
  intro s i sym hl hp hi hs
  obtain ⟨hu, rfl⟩ := symbolOperand_eq_some_iff.1 hi
  exact (exec_raise hl (admission_symRange hp hu hs)).trans (congrArg _ (raise_encode i .symRange s))

end Sys2Proof.Machine

namespace Sys2Proof.Machine

/-! ## NOP and CLEAR (R151, R152) -/

/-- NOP is admitted in every phase and has no error (R32, R151). -/
theorem exec_nop {s : State} (hl : s.config.legal = true) : exec .nop s = .next (respond 0#56 s) :=
  exec_run (i := .nop) hl (admission_none_iff.2 ⟨rfl, nofun, nofun⟩) rfl

/-- Settles O11: NOP's rule responds alone, and CLEAR's responds in the state that reset leaves. -/
theorem nopAndClearEffects : Obligations.NopAndClearEffects := by
  refine ⟨fun s hl => exec_nop hl, fun s hl => ?_⟩
  rw [exec_clear hl, clearBlock_eq_resetWith]
  rfl

end Sys2Proof.Machine

/-! PROOFS. The frequency-table commands (`41_frequency.md`): what each one leaves, its errors, and the table that
loading an input gives. -/

namespace Sys2Proof.Machine

/-! ## The decode stage (R32, R111, R112) -/

section
variable {s : State} {sym : SymField} {arg : ArgField}

theorem admission_addSymbol (hp : s.phase = .load) (hs : sym.toNat < s.config.dMax) :
    admission (.addSymbol sym) s = none :=
  admission_none_iff.2 ⟨by simp [admitted, opcodeOf, hp], fun _ => decide_eq_true hs, nofun⟩

theorem admission_setFreq (hp : s.phase = .load) (hs : sym.toNat < s.config.dMax) (ha : arg.toNat ≤ s.config.fmax) :
    admission (.setFreq sym arg) s = none :=
  admission_none_iff.2 ⟨by simp [admitted, opcodeOf, hp], fun _ => decide_eq_true hs, fun _ => decide_eq_true ha⟩

/-- ARG_RANGE is the last check of the decode stage (R118). -/
theorem admission_setFreq_argRange (hp : s.phase = .load) (hs : sym.toNat < s.config.dMax)
    (ha : s.config.fmax < arg.toNat) : admission (.setFreq sym arg) s = some .argRange := by
  have hphase : admitted .setFreq s.phase = true := by simp [admitted, hp]
  have hsym : symInRange s.config sym = true := decide_eq_true hs
  have harg : countInRange s.config arg = false := decide_eq_false (Nat.not_le.2 ha)
  simp only [admission, opcodeOf, symOf, argOf, admissionError, hphase, hsym, harg, Bool.true_eq_false, and_false,
    and_self, if_false, if_true]

theorem admission_readFreq (hs : sym.toNat < s.config.dMax) : admission (.readFreq sym) s = none :=
  admission_none_iff.2 ⟨rfl, fun _ => decide_eq_true hs, nofun⟩

theorem admission_readOrder : admission (.readOrder arg) s = none :=
  admission_none_iff.2 ⟨rfl, nofun, nofun⟩

/-! ## The table's fields -/

theorem freqRead_of_put {t : State} {x c : Nat} (h : t.freq = cellsPut 0 s.freq x c) (y : Nat) :
    freqRead t y = if y = x then c else freqRead s y := by
  rw [freqRead_congr (s := freqWrite s x c) h, freqRead_freqWrite]

/-- A count within FMAX is the data of its response (R35). -/
theorem freqData_toNat {n : Nat} (hl : s.config.legal = true) (hn : n ≤ s.config.fmax) :
    (fieldData s.config.freqW n).toNat = n := by
  obtain ⟨-, ⟨-, hw⟩, -⟩ := legal_bounds hl
  exact fieldData_toNat (fmax_lt hn) (by omega)

theorem FrequencyTable.total_le (h : FrequencyTable s) : s.total ≤ s.config.fmax := by
  obtain ⟨-, -, -, -, hle⟩ := h
  exact hle

theorem FrequencyTable.orderList_length (h : FrequencyTable s) : (orderList s).length = s.distinct := by
  obtain ⟨-, hdense, -⟩ := h
  exact cellsDense_length hdense

/-- The rule's total, with the subtraction last, is that of R183 (log 11). -/
theorem FrequencyTable.newTotal_eq (h : FrequencyTable s) {x : Nat} (hx : x < s.config.dMax) (c : Nat) :
    newTotal s x c = s.total - freqRead s x + c := by
  have hle := h.freq_le_total hx
  unfold newTotal; omega

end

/-! ## ADD_SYMBOL and SET_FREQ (R181 to R183) -/

/-- Settles O17: the rule's next state, with the new count read back from FREQ and within the response's field. -/
theorem addSymbolCounts : Obligations.AddSymbolCounts := by
  intro s sym h hp hs hroom
  have ht := (Inv.bounds h).table
  obtain ⟨t, hrule, hframe, horder, hdistinct, -⟩ := addSymbolRule_spec ht hs hroom
  have hfreq : t.freq = cellsPut 0 s.freq sym.toNat (freqRead s sym.toNat + 1) := by rw [hframe]
  have hcount : freqRead s sym.toNat + 1 ≤ s.config.fmax := by
    have hle := ht.freq_le_total hs
    omega
  refine ⟨t, _, exec_respond h.1 (admission_addSymbol hp hs) hrule, hfreq ▸ hframe, freqData_toNat h.1 hcount,
    fun x => ?_, horder, hdistinct⟩
  rw [freqRead_of_put hfreq]
  split_ifs with hx
  · rw [hx]
  · rfl

/-- Settles O19: the rule's next state, with its total as R183 writes it. -/
theorem setFreqSets : Obligations.SetFreqSets := by
  intro s sym arg h hp hs ha hroom
  have ht := (Inv.bounds h).table
  have htotal := ht.newTotal_eq hs arg.toNat
  obtain ⟨t, hrule, hframe, horder, hdistinct, -⟩ := setFreqRule_spec (arg := arg) ht hs (htotal ▸ hroom)
  have hfreq : t.freq = cellsPut 0 s.freq sym.toNat arg.toNat := by rw [hframe]
  have htot : t.total = newTotal s sym.toNat arg.toNat := by rw [hframe]
  exact ⟨t, _, exec_respond h.1 (admission_setFreq hp hs ha) hrule, hfreq ▸ htot ▸ hframe,
    freqData_toNat h.1 ((ht.freq_le_total hs).trans ht.total_le), freqRead_of_put hfreq, htot.trans htotal, horder,
    hdistinct⟩

/-- Settles O18: each rule's first test is that of the total, and the operand's range is checked before the rule. -/
theorem tableOverflowRaises : Obligations.TableOverflowRaises := by
  refine ⟨fun s sym hl hp hs hfull => ?_, fun s sym arg h hp hs ha hover => ?_, fun s sym arg hl hp hs ha => ?_⟩
  · have hrule : addSymbolRule sym s = .ok (.raise .freqOverflow, s) := if_pos hfull
    exact exec_fail hl (admission_addSymbol hp hs) hrule
  · have hrule : setFreqRule sym arg s = .ok (.raise .freqOverflow, s) :=
      if_pos (((Inv.bounds h).table.newTotal_eq hs arg.toNat).symm ▸ hover)
    exact exec_fail h.1 (admission_setFreq hp hs ha) hrule
  · exact exec_raise hl (admission_setFreq_argRange hp hs ha)

/-! ## READ_FREQ and READ_ORDER (R184, R185) -/

/-- Settles O21. -/
theorem readFreqReturnsCount : Obligations.ReadFreqReturnsCount := by
  intro s sym h hs
  have ht := (Inv.bounds h).table
  exact ⟨_, exec_respond h.1 (admission_readFreq hs) rfl,
    freqData_toNat h.1 ((ht.freq_le_total hs).trans ht.total_le)⟩

/-- Below DISTINCT, ORDER holds the symbol of the list at that position, and it is below D_MAX (R36). -/
theorem FrequencyTable.orderRead_eq {s : State} (h : FrequencyTable s) {k : Nat} (hk : k < s.distinct) :
    ∃ x, orderRead s k = .ok x ∧ (orderList s)[k]? = some x ∧ x < s.config.dMax := by
  have hlen : k < (orderList s).length := h.orderList_length.symm ▸ hk
  have hget : (orderList s)[k]? = some (orderList s)[k] := List.getElem?_eq_getElem hlen
  have ⟨_, hdense, _⟩ := h
  exact ⟨_, arrayRead_ok_iff.2 ⟨hk.trans_le h.distinct_le, (cellsGet_dense hdense k).trans hget⟩, hget,
    (h.mem_order.1 (List.getElem_mem hlen)).1⟩

/-- Settles O22: the rule's two branches. -/
theorem readOrderReturnsSymbol : Obligations.ReadOrderReturnsSymbol := by
  intro s arg h
  split_ifs with hk
  · obtain ⟨x, hread, hget, hx⟩ := (Inv.bounds h).table.orderRead_eq hk
    obtain ⟨⟨-, hw⟩, -⟩ := legal_bounds h.1
    have hrule : readOrderRule arg s = .ok (.respond (fieldData s.config.symW x), s) := by
      simp only [readOrderRule, if_neg (Nat.not_le.2 hk), hread, ok_bind]
    exact ⟨_, exec_respond h.1 admission_readOrder hrule, by rw [fieldData_toNat hx (by omega)]; exact hget⟩
  · have hrule : readOrderRule arg s = .ok (.raise .indexRange, s) := if_pos (Nat.not_lt.1 hk)
    exact exec_fail h.1 admission_readOrder hrule

/-! ## A command sent by the host (R360, R361) -/

/-- A host that offers a command's word and then takes its response gets the response of the command, and the block
stays as the command left it. -/
theorem transact_of_exec {s t : State} {i : Instr} {r : ResponseWord} (hl : s.config.legal = true)
    (hready : s.response = none) (e : exec i (acceptCommand (.takeResponse :: s.host) s) = .next t)
    (hhost : t.host = .takeResponse :: s.host) (hr : t.response = some r) :
    transact (encode i) s = .ok (r, { t with host := s.host, response := none, taken := t.taken ++ [r] }) := by
  have hfetch : fetchWord { s with host := .command (encode i) :: .takeResponse :: s.host } = some (encode i) := by
    simp only [fetchWord, cmdReady, hready, Option.isNone_none, if_true]
  have hcommand : step { s with host := .command (encode i) :: .takeResponse :: s.host } = .next t :=
    (step_command (s := { s with host := .command (encode i) :: _ }) hl hready rfl).trans
      ((runWord_decoded (decode_encode i) _).trans e)
  have htake : step t = .next { t with host := s.host, response := none, taken := t.taken ++ [r] } := by
    have htl : t.config.legal = true := by rw [exec_config e]; exact hl
    simp only [step, htl, Bool.true_eq_false, if_false, portStep, hhost, transferResponse, hr]
  simp only [transact, hfetch, hcommand, hr, htake]

/-- A command that completes gives the host its data (R114). -/
theorem issue_of_exec {s u : State} {i : Instr} {d : Data} (hl : s.config.legal = true) (hready : s.response = none)
    (e : exec i (acceptCommand (.takeResponse :: s.host) s) = .next { u with response := some (0x00#8 ++ d) })
    (hhost : u.host = .takeResponse :: s.host) :
    issue i s = .ok (d, { u with host := s.host, response := none, taken := u.taken ++ [0x00#8 ++ d] }) := by
  have hst : stField (0x00#8 ++ d) = statusCode .ok := stField_response _ d
  have hdata : dataField (0x00#8 ++ d) = d := dataField_response _ d
  have hsent := transact_of_exec hl hready e hhost rfl
  unfold issue
  rw [hsent]
  simp only [bind, Except.bind, hst, hdata, if_true]

/-! ## Loading an input (R186) -/

theorem firstOccurrences_concat (l : List Nat) (x : Nat) :
    firstOccurrences (l ++ [x]) =
      if x ∈ firstOccurrences l then firstOccurrences l else firstOccurrences l ++ [x] := by
  rw [firstOccurrences, List.foldl_append]; rfl

theorem mem_firstOccurrences {l : List Nat} {x : Nat} : x ∈ firstOccurrences l ↔ x ∈ l := by
  induction l using List.reverseRecOn with
  | nil => rfl
  | append_singleton l y ih =>
    rw [firstOccurrences_concat, List.mem_append, List.mem_singleton]
    split_ifs with hy
    · rw [ih]
      exact ⟨.inl, fun h => h.elim id fun hxy => ih.1 (hxy ▸ hy)⟩
    · rw [List.mem_append, ih, List.mem_singleton]

/-- A symbol that has been seen is listed already. -/
theorem firstOccurrences_concat_eq_ite_count (l : List Nat) (x : Nat) :
    firstOccurrences (l ++ [x]) = if l.count x = 0 then firstOccurrences l ++ [x] else firstOccurrences l := by
  rw [firstOccurrences_concat, ← ite_not]
  exact if_congr (by rw [List.count_eq_zero, mem_firstOccurrences]) rfl rfl

theorem count_concat_eq_ite (l : List Nat) (x y : Nat) :
    (l ++ [y]).count x = if x = y then l.count x + 1 else l.count x := by
  simp only [List.count_append, List.count_singleton', @eq_comm _ y x]
  split_ifs <;> rfl

/-- A block in LOAD, ready for a command, whose table is that of the symbols seen so far. -/
structure Loaded (s : State) (seen : List Nat) : Prop where
  inv : Inv s
  phase : s.phase = .load
  ready : s.response = none
  counts : ∀ x, freqRead s x = seen.count x
  total : s.total = seen.length
  order : orderList s = firstOccurrences seen

/-- A table with no distinct symbol counts nothing (R52). -/
theorem FrequencyTable.freqRead_eq_zero {s : State} (h : FrequencyTable s) (h0 : s.distinct = 0) (x : Nat) :
    freqRead s x = 0 := by
  have hnil : orderList s = [] := List.eq_nil_of_length_eq_zero (h.orderList_length.trans h0)
  have ⟨hrange, _⟩ := h
  by_cases hx : x < s.config.dMax
  · by_contra hne
    have hmem : x ∈ orderList s := h.mem_order.2 ⟨hx, Nat.pos_of_ne_zero hne⟩
    simp [hnil] at hmem
  · cases hg : cellsGet s.freq x with
    | none => simp only [freqRead, cellsAt, hg, Option.getD_none]
    | some v => exact absurd (hrange _ (cellsGet_mem hg)) hx

/-- A cleared block has seen nothing (R152, R350). -/
theorem Loaded.of_cleared {s : State} (h : Inv s) (hp : s.phase = .load) (h0 : s.distinct = 0)
    (hready : s.response = none) : Loaded s [] := by
  have ht := (Inv.bounds h).table
  have hnil : orderList s = [] := List.eq_nil_of_length_eq_zero (ht.orderList_length.trans h0)
  refine ⟨h, hp, hready, ht.freqRead_eq_zero h0, ?_, hnil⟩
  rw [← order_sum ht, hnil]; rfl

/-- ADD_SYMBOL counts the symbol that it brings (R181). -/
theorem Loaded.addSymbol {s : State} {seen : List Nat} (h : Loaded s seen) {sym : SymField}
    (hs : sym.toNat < s.config.dMax) (hroom : seen.length < s.config.fmax) :
    ∃ d t, issue (.addSymbol sym) s = .ok (d, t) ∧ t.config = s.config ∧ Loaded t (seen ++ [sym.toNat]) := by
  have hinv : Inv (acceptCommand (.takeResponse :: s.host) s) := h.inv.acceptCommand _
  obtain ⟨u, d, e, hframe, -, hcounts, horder, -⟩ :=
    addSymbolCounts _ sym hinv h.phase hs (h.total.trans_lt hroom)
  have hconfig : u.config = s.config := by rw [hframe]; rfl
  have hphase : u.phase = s.phase := by rw [hframe]; rfl
  have hhost : u.host = .takeResponse :: s.host := by rw [hframe]; rfl
  have htotal : u.total = s.total + 1 := by rw [hframe]; rfl
  have hu := exec_inv hinv e
  refine ⟨d, _, issue_of_exec h.inv.1 h.ready e hhost, hconfig, ?_⟩
  exact {
    inv := hu.update hu.errorRecord _ _ _ _
    phase := hphase.trans h.phase
    ready := rfl
    counts := fun x => by rw [count_concat_eq_ite, ← h.counts]; exact hcounts x
    total := by rw [List.length_append, ← h.total]; exact htotal
    order := by rw [firstOccurrences_concat_eq_ite_count, ← h.counts, ← h.order]; exact horder }

/-- Loading the rest of an input goes on from the symbols seen so far (R186). -/
theorem Loaded.issueAll {s : State} {seen : List Nat} {input : List SymField} (h : Loaded s seen)
    (hs : ∀ x ∈ input, x.toNat < s.config.dMax) (hroom : seen.length + input.length ≤ s.config.fmax) :
    ∃ t, issueAll (input.map Instr.addSymbol) s = .ok t ∧ Loaded t (seen ++ input.map BitVec.toNat) := by
  induction input generalizing s seen with
  | nil => exact ⟨s, rfl, by simpa using h⟩
  | cons sym rest ih =>
    rw [List.length_cons] at hroom
    obtain ⟨d, t, e, hconfig, ht⟩ := h.addSymbol (hs sym List.mem_cons_self) (by omega)
    obtain ⟨u, hrest, hu⟩ := ih ht (fun x hx => hconfig ▸ hs x (List.mem_cons_of_mem _ hx))
      (by rw [hconfig, List.length_append, List.length_singleton]; omega)
    refine ⟨u, ?_, by simpa using hu⟩
    simp only [List.map_cons, Machine.issueAll, e, bind, Except.bind, hrest]

/-- Settles O23, by induction on the input: after each command the table is that of the symbols sent so far. -/
theorem loadingAnInputCountsIt : Obligations.LoadingAnInputCountsIt := by
  intro s input h hp h0 hready hs hlen
  obtain ⟨t, e, ht⟩ := (Loaded.of_cleared h hp h0 hready).issueAll hs (by simpa using hlen)
  exact ⟨t, e, ht.counts, by simpa using ht.total, ht.order, (Inv.bounds ht.inv).table.orderList_length.symm⟩

end Sys2Proof.Machine

/-! PROOFS. The priority queue (`42_priority_queue.md`): Enqueue and Dequeue on a heap of written nodes, and READ_HEAP. -/

namespace Sys2Proof.Machine

/-! ## Enqueue and Dequeue (R212, R213) -/

/-- A written node in range has a key (R211). -/
theorem nodeKey_of_written {s : State} {x : Nat} (hx : x < s.config.nodeMax) (hw : (cellsGet s.node x).isSome = true) :
    nodeKey s x = .ok (nodeFreqAt s x) := by
  obtain ⟨r, hr⟩ := Option.isSome_iff_exists.1 hw
  exact nodeKey_of_get hx hr

/-- An ordered array of written nodes is a queue (R42, R211). -/
theorem IsQueue.of_written {s : State} (hd : cellsDense s.heap s.heapCount) (ho : HeapOrdered s)
    (hw : ∀ x ∈ heapItems s, x < s.config.nodeMax ∧ (cellsGet s.node x).isSome = true) : IsQueue s where
  dense := hd
  keys x hx := nodeKey_of_written (hw x hx).1 (hw x hx).2
  ordered := ho

/-- Settles O24: sift-up gives the items and the order, and its path gives the layout. -/
theorem enqueueKeepsHeap : Obligations.EnqueueKeepsHeap := by
  intro s n hd ho hw hroom hn hwn
  have hq : IsQueue s := .of_written hd ho hw
  have hkey := nodeKey_of_written hn hwn
  obtain ⟨h', e, hperm, hq'⟩ := enqueue_spec hq hroom hkey
  exact ⟨_, e, rfl, hperm, hq'.dense, hq'.ordered, enqueue_path hq hroom hkey e⟩

/-- Settles O25: sift-down gives the items and the order, and its path gives the layout. -/
theorem dequeueRemovesMinimum : Obligations.DequeueRemovesMinimum := by
  refine ⟨fun s hd ho hw hpos hsize => ?_, fun s h0 => dequeue_empty h0⟩
  have hq : IsQueue s := .of_written hd ho hw
  obtain ⟨_, h', e, rfl, hmin, hperm, hq'⟩ := dequeue_spec hq hpos hsize
  exact ⟨_, e, rfl, hmin, hperm, hq'.dense, hq'.ordered, dequeue_path hq hsize e⟩

/-! ## READ_HEAP (R218) -/

theorem admission_readHeap {s : State} {arg : ArgField} : admission (.readHeap arg) s = none :=
  admission_none_iff.2 ⟨rfl, nofun, nofun⟩

/-- Below HEAP_COUNT a read of HEAP ends with the item at that position (R42). -/
theorem MergingPhase.heapRead_eq {s : State} (h : MergingPhase s) (ht : FrequencyTable s) {k : Nat}
    (hk : k < s.heapCount) : heapRead s k = .ok (heapItem s k) ∧ cellsGet s.heap k = some (heapItem s k) := by
  have hq := h.isQueue ht
  obtain ⟨-, hsize, -⟩ := h.counts ht
  have hget : cellsGet s.heap k = some (heapItem s k) := by
    rw [heapItem_eq hq.dense]; exact cellsGet_itemAt hq.dense hk
  exact ⟨arrayRead_ok_iff.2 ⟨hk.trans_le hsize, hget⟩, hget⟩

/-- An item of the queue is a node index, within NODE_W bits (R42, R39). -/
theorem MergingPhase.heapItem_lt {s : State} (h : MergingPhase s) (ht : FrequencyTable s) {k : Nat}
    (hk : k < s.heapCount) : heapItem s k < 2 ^ s.config.nodeW := by
  have hq := h.isQueue ht
  have hmem : heapItem s k ∈ heapItems s := by
    rw [heapItem_eq hq.dense]; exact itemAt_mem ((heapItems_length hq.dense).symm ▸ hk)
  have hnode := h.item_lt hmem
  have hmax := (h.treeOk ht).size
  rw [nodeW_pow]
  unfold Config.nodeMax at hmax
  omega

/-- Settles O26: only in MERGING does the queue hold an item, and there position 0 is what Dequeue returns. -/
theorem readHeapReturnsItem : Obligations.ReadHeapReturnsItem := by
  intro s arg h
  split_ifs with hk
  · have ht := (Inv.bounds h).table
    have hm : MergingPhase s := Inv.merging h (Inv.merging_of_item h (Nat.zero_lt_of_lt hk))
    obtain ⟨hread, hget⟩ := hm.heapRead_eq ht hk
    obtain ⟨⟨-, hw⟩, -⟩ := legal_bounds h.1
    have hdata : (fieldData s.config.nodeW (heapItem s arg.toNat)).toNat = heapItem s arg.toNat :=
      fieldData_toNat (hm.heapItem_lt ht hk) (by unfold Config.nodeW; omega)
    have hrule : readHeapRule arg s = .ok (.respond (fieldData s.config.nodeW (heapItem s arg.toNat)), s) := by
      simp only [readHeapRule, if_neg (Nat.not_le.2 hk), hread, ok_bind]
    refine ⟨_, exec_respond h.1 admission_readHeap hrule, by rw [hdata]; exact hget, fun h0 => ?_⟩
    obtain ⟨-, hsize, -⟩ := hm.counts ht
    obtain ⟨_, _, e, rfl, -⟩ := dequeue_spec (hm.isQueue ht) (Nat.zero_lt_of_lt hk) hsize
    rw [hdata, h0]
    exact ⟨_, e⟩
  · have hrule : readHeapRule arg s = .ok (.raise .indexRange, s) := if_pos (Nat.not_lt.1 hk)
    exact exec_fail h.1 admission_readHeap hrule

end Sys2Proof.Machine

/-! PROOFS. What no command reads (`43_tree_builder.md` R261): the rules of the commands do the same in a state with
another error record, other responses and another host. -/

namespace Sys2Proof.Machine

/-! ## The history of a state decides nothing (R261) -/

/-- A state with the error record, the responses and the host of another. -/
def withHistory (h s : State) : State :=
  { s with errCode := h.errCode, errOpc := h.errOpc, response := h.response, taken := h.taken, host := h.host,
           position := h.position }

theorem romOf_withHistory (h s : State) (r : Nat) : romOf (withHistory h s) r = romOf s r :=
  romOf_congr (s := s) (t := withHistory h s) rfl rfl r

theorem nodeWrite_withHistory (h s : State) (i : Nat) (n : NodeRecord) :
    nodeWrite (withHistory h s) i n = withHistory h <$> nodeWrite s i n := by
  simp only [nodeWrite, map_bind]; rfl

theorem enqueue_withHistory (h s : State) (n : Nat) :
    enqueue n (withHistory h s) = withHistory h <$> enqueue n s := by
  simp only [enqueue, map_bind]; rfl

theorem dequeue_withHistory (h s : State) :
    dequeue (withHistory h s) = Prod.map id (withHistory h) <$> dequeue s := by
  simp only [dequeue, apply_ite (Functor.map _), map_bind]; rfl

theorem initLeaves_withHistory (h : State) : ∀ (n k : Nat) (s : State),
    initLeaves n k (withHistory h s) = withHistory h <$> initLeaves n k s := by
  intro n
  induction n with
  | zero => intro k s; rfl
  | succ n ih =>
    intro k s
    simp only [initLeaves, map_bind, nodeWrite_withHistory, enqueue_withHistory, bind_map_left, ih]
    rfl

theorem buildInitBody_withHistory (h s : State) :
    buildInitBody (withHistory h s) = withHistory h <$> buildInitBody s := by
  have e := initLeaves_withHistory h s.distinct 0 s
  unfold buildInitBody
  rw [show (withHistory h s).distinct = s.distinct from rfl, e]
  simp only [map_bind, bind_map_left]; rfl

theorem merge_withHistory (h s : State) : merge (withHistory h s) = Prod.map id (withHistory h) <$> merge s := by
  have hkey (v : State) : nodeKey (withHistory h v) = nodeKey v := nodeKey_congr rfl rfl
  have henqueue (n k : Nat) (v : State) : enqueue n { withHistory h v with nodeCount := k } =
      withHistory h <$> enqueue n { v with nodeCount := k } := enqueue_withHistory h { v with nodeCount := k } n
  simp only [merge, dequeue_withHistory, nodeWrite_withHistory, map_bind, bind_map_left, Prod.map_snd, hkey,
    henqueue]
  rfl

theorem mergeAll_withHistory (h : State) : ∀ (fuel : Nat) (s : State),
    mergeAll fuel (withHistory h s) = withHistory h <$> mergeAll fuel s := by
  intro fuel
  induction fuel with
  | zero => intro s; rfl
  | succ fuel ih =>
    intro s
    simp only [mergeAll, merge_withHistory, apply_ite (Functor.map _), map_bind, bind_map_left, Prod.map_snd, ih]
    rfl

theorem finalize_withHistory (h s : State) :
    finalize (withHistory h s) = Prod.map id (withHistory h) <$> finalize s := by
  have hheap : heapRead (withHistory h s) = heapRead s := rfl
  unfold finalize
  by_cases hc : queueCount s = 1
  · rw [if_pos hc, if_pos (show queueCount (withHistory h s) = 1 from hc)]
    simp only [hheap, romOf_withHistory, map_bind]
    refine bind_congr fun r => bind_congr fun result => ?_
    cases result with
    | none => rfl
    | some p => simp only [dequeue_withHistory, map_bind, bind_map_left]; rfl
  · rw [if_neg hc, if_neg (show ¬ queueCount (withHistory h s) = 1 from hc)]; rfl

theorem buildInitRule_withHistory (h s : State) :
    buildInitRule (withHistory h s) = Prod.map id (withHistory h) <$> buildInitRule s := by
  simp only [buildInitRule, buildInitBody_withHistory, map_bind, bind_map_left]; rfl

theorem buildStepRule_withHistory (h s : State) :
    buildStepRule (withHistory h s) = Prod.map id (withHistory h) <$> buildStepRule s := by
  simp only [buildStepRule, merge_withHistory, finalize_withHistory, apply_ite (Functor.map _), map_bind,
    bind_map_left]
  rfl

theorem buildRule_withHistory (h s : State) :
    buildRule (withHistory h s) = Prod.map id (withHistory h) <$> buildRule s := by
  have hmerge (v : State) : mergeAll (queueCount (withHistory h v)) (withHistory h v) =
      withHistory h <$> mergeAll (queueCount v) v := mergeAll_withHistory h _ v
  unfold buildRule
  by_cases hp : s.phase = .load
  · rw [if_pos hp, if_pos (show (withHistory h s).phase = .load from hp)]
    simp only [buildInitBody_withHistory, hmerge, finalize_withHistory, map_bind, bind_map_left]
  · rw [if_neg hp, if_neg (show ¬ (withHistory h s).phase = .load from hp)]
    simp only [ok_bind, hmerge, finalize_withHistory, map_bind, bind_map_left]

theorem orderAppend_withHistory (h s : State) (sym : Nat) :
    orderAppend sym (withHistory h s) = withHistory h <$> orderAppend sym s := by
  simp only [orderAppend, map_bind]; rfl

theorem orderRemove_withHistory (h s : State) (sym : Nat) :
    orderRemove sym (withHistory h s) = withHistory h <$> orderRemove sym s := by
  simp only [orderRemove, map_bind]; rfl

theorem addSymbolRule_withHistory (h s : State) (sym : SymField) :
    addSymbolRule sym (withHistory h s) = Prod.map id (withHistory h) <$> addSymbolRule sym s := by
  simp only [addSymbolRule, apply_ite (Functor.map _), map_bind]
  refine if_congr Iff.rfl rfl ?_
  by_cases h0 : freqRead s sym.toNat = 0
  · rw [if_pos h0, if_pos (show freqRead (withHistory h s) sym.toNat = 0 from h0), orderAppend_withHistory,
      bind_map_left]
    rfl
  · rw [if_neg h0, if_neg (show ¬ freqRead (withHistory h s) sym.toNat = 0 from h0)]; rfl

theorem setFreqRule_withHistory (h s : State) (sym : SymField) (arg : ArgField) :
    setFreqRule sym arg (withHistory h s) = Prod.map id (withHistory h) <$> setFreqRule sym arg s := by
  simp only [setFreqRule, orderAppend_withHistory, orderRemove_withHistory, apply_ite (Functor.map _), map_bind]
  refine if_congr Iff.rfl rfl ?_
  have hread : freqRead (withHistory h s) = freqRead s := rfl
  rw [hread]
  split_ifs
  · rw [bind_map_left]; rfl
  · rw [bind_map_left]; rfl
  · rfl

theorem registerData_withHistory (h s : State) {r : Nat} (hr : r ≠ 0) :
    registerData (withHistory h s) r = registerData s r := by
  unfold registerData
  split
  · exact absurd rfl hr
  all_goals rfl

/-- No rule reads the history of the state, but for CLEAR's, which writes it, and READ_REG STATUS's (R261). -/
theorem ruleOf_withHistory (h s : State) {i : Instr} (hclear : i ≠ .clear) (hstatus : i ≠ .readReg 0#32) :
    ruleOf i (withHistory h s) = Prod.map id (withHistory h) <$> ruleOf i s := by
  cases i with
  | nop => rfl
  | clear => exact absurd rfl hclear
  | readReg arg =>
    have harg : arg.toNat ≠ 0 := fun h0 => hstatus (congrArg _ (BitVec.eq_of_toNat_eq h0))
    simp only [ruleOf, readRegRule, registerData_withHistory h s harg]
    cases registerData s arg.toNat <;> rfl
  | addSymbol sym => exact addSymbolRule_withHistory h s sym
  | setFreq sym arg => exact setFreqRule_withHistory h s sym arg
  | readFreq sym => rfl
  | readOrder arg => simp only [ruleOf, readOrderRule, apply_ite (Functor.map _), map_bind]; rfl
  | readHeap arg => simp only [ruleOf, readHeapRule, apply_ite (Functor.map _), map_bind]; rfl
  | buildInit => exact buildInitRule_withHistory h s
  | buildStep => exact buildStepRule_withHistory h s
  | build => exact buildRule_withHistory h s
  | readNodeF arg => simp only [ruleOf, readNodeFRule, apply_ite (Functor.map _), map_bind]; rfl
  | readNodeL arg => simp only [ruleOf, readNodeLRule, apply_ite (Functor.map _), map_bind]; rfl
  | readCodeLen sym => rfl
  | readCodeBits sym arg => simp only [ruleOf, readCodeBitsRule, apply_ite (Functor.map _)]; rfl

/-- Settles O37: the decode stage and a command's rule do the same with another history, and CLEAR writes the error
record alone of it. -/
theorem historyDecidesNothing : Obligations.HistoryDecidesNothing := by
  intro s t u i hstatus hu he
  obtain ⟨h, rfl⟩ : ∃ h, u = withHistory h s := ⟨u, hu⟩
  obtain ⟨hl, ⟨e, ha, rfl⟩ | ⟨ha, a, w, hr, rfl⟩⟩ := exec_next_iff.1 he
  · exact ⟨_, exec_raise (s := withHistory h s) hl ha, rfl, rfl⟩
  · by_cases hclear : i = .clear
    · subst hclear; cases hr
      exact ⟨_, exec_run (s := withHistory h s) hl ha rfl, rfl, rfl⟩
    · have hr' : ruleOf i (withHistory h s) = .ok (a, withHistory h w) := by
        rw [ruleOf_withHistory h s hclear hstatus, hr]; rfl
      refine ⟨_, exec_run (s := withHistory h s) hl ha hr', ?_, ?_⟩ <;> cases a <;> rfl

end Sys2Proof.Machine

/-! PROOFS. The node store (`43_tree_builder.md` R253, R254, R262, R263): the frequencies of the nodes, and the
reads. -/

namespace Sys2Proof.Machine

/-! ## The frequencies of the nodes (R253, R254) -/

/-- Settles O33: the node store is a forest of trees, whose roots' frequencies sum to TOTAL. -/
theorem nodeFrequencies : Obligations.NodeFrequencies := by
  intro s h
  have ht := (Inv.bounds h).table
  constructor
  · intro i hi
    have htree := Inv.treeOk h (Nat.zero_lt_of_lt hi)
    obtain ⟨roots, -, -, hperm, hsum, -⟩ := Inv.forest h (Nat.zero_lt_of_lt hi)
    refine ⟨hsum ▸ htree.freq_le_roots hperm i hi, ht.total_le, ?_⟩
    rcases htree.cases hi with ⟨sym, hleaf, -⟩ | ⟨l, r, hnode, -, hl, hr⟩
    · exact .inl ⟨sym, hleaf⟩
    · exact .inr ⟨l, r, hl, hr, hnode⟩
  · intro hp hd
    obtain ⟨-, -, -, -, hbuilt⟩ := Inv.built h hp
    obtain ⟨-, -, ⟨-, -, -, hsum, -⟩, -⟩ := hbuilt hd
    simpa using hsum

/-! ## READ_NODE_F and READ_NODE_L (R262, R263) -/

section
variable {s : State} {arg : ArgField}

theorem admission_readNodeF : admission (.readNodeF arg) s = none := admission_none_iff.2 ⟨rfl, nofun, nofun⟩

theorem admission_readNodeL : admission (.readNodeL arg) s = none := admission_none_iff.2 ⟨rfl, nofun, nofun⟩

theorem exec_readNodeF (hl : s.config.legal = true) (hi : arg.toNat < s.nodeCount) {n : NodeRecord}
    (hn : nodeRead s arg.toNat = .ok n) :
    exec (.readNodeF arg) s = .next { s with response := some (0x00#8 ++ nodeFreqData n) } :=
  exec_respond hl admission_readNodeF
    (by simp only [ruleOf, readNodeFRule, if_neg (Nat.not_le.2 hi), hn, ok_bind])

theorem exec_readNodeL (hl : s.config.legal = true) (hi : arg.toNat < s.nodeCount) {n : NodeRecord}
    (hn : nodeRead s arg.toNat = .ok n) :
    exec (.readNodeL arg) s = .next { s with response := some (0x00#8 ++ nodeLinkData n) } :=
  exec_respond hl admission_readNodeL
    (by simp only [ruleOf, readNodeLRule, if_neg (Nat.not_le.2 hi), hn, ok_bind])

end

/-- A written node's tag is 1 from DISTINCT on (R39, R245). -/
theorem TreeOk.nodeTag_eq {s : State} (h : TreeOk s) {i : Nat} (hi : i < s.nodeCount) {n : NodeRecord}
    (hn : cellsGet s.node i = some n) : nodeTag n = decide (s.distinct ≤ i) := by
  rcases h.cases hi with ⟨sym, hleaf, hd, -⟩ | ⟨l, r, hnode, hd, -⟩
  · obtain rfl := Option.some.inj (hn.symm.trans hleaf)
    exact (decide_eq_false (Nat.not_le.2 hd)).symm
  · obtain rfl := Option.some.inj (hn.symm.trans hnode)
    exact (decide_eq_true hd).symm

theorem TreeOk.get {s : State} (h : TreeOk s) {i : Nat} (hi : i < s.nodeCount) : ∃ n, cellsGet s.node i = some n := by
  rcases h.cases hi with ⟨sym, hleaf, -⟩ | ⟨l, r, hnode, -⟩
  · exact ⟨_, hleaf⟩
  · exact ⟨_, hnode⟩

/-- A written node's frequency fits the 32 bits of READ_NODE_F's result (R253, R262). -/
theorem Inv.nodeFreqAt_lt {s : State} (h : Inv s) {i : Nat} (hi : i < s.nodeCount) : nodeFreqAt s i < 2 ^ 32 := by
  have b := Inv.bounds h
  obtain ⟨hle, -⟩ := (nodeFrequencies s h).1 i hi
  obtain ⟨-, ⟨-, hw⟩, -⟩ := legal_bounds b.legal
  exact (hle.trans_lt b.total).trans_le (two_pow_le hw)

/-- A node index is below 2^17 (R7, R251). -/
theorem Inv.nodeCount_le {s : State} (h : Inv s) : s.nodeCount ≤ 2 ^ 17 := by
  have b := Inv.bounds h
  have := b.distinct
  have := b.nodes
  have := (dMax_le b.legal).2
  omega

/-- Settles O35: the record at i, with its tag as R245 places it and its frequency within the field. -/
theorem readNodeFrequency : Obligations.ReadNodeFrequency := by
  intro s arg h
  split_ifs with hi
  · have htree := Inv.treeOk h (Nat.zero_lt_of_lt hi)
    obtain ⟨n, hn⟩ := htree.get hi
    refine ⟨_, exec_readNodeF h.1 hi (htree.read hi hn), ?_, ?_, nodeFreqData_high n⟩
    · rw [nodeFreqData_tag, htree.nodeTag_eq hi hn]
    · rw [nodeFreqData_freq, ← nodeFreqAt_of_get hn, toNat_ofNat_of_lt (Inv.nodeFreqAt_lt h hi)]
  · exact exec_fail h.1 admission_readNodeF (if_pos (Nat.not_lt.1 hi))

/-- Settles O36: a leaf's symbol is within 16 bits, and a child's index, below its node's, within 24. -/
theorem readNodeLinks : Obligations.ReadNodeLinks := by
  intro s arg h
  split_ifs with hi hleaf
  · have htree := Inv.treeOk h (Nat.zero_lt_of_lt hi)
    rcases htree.cases hi with ⟨sym, hn, -, hsym⟩ | ⟨l, r, -, hd, -⟩
    · have hdata : (nodeLinkData (.leaf (freqRead s sym) sym)).toNat = sym :=
        nodeLinkData_leaf_toNat ((htree.sym_lt hsym (i := arg.toNat)).trans_le (dMax_le h.1).2)
      refine ⟨_, exec_readNodeL h.1 hi (htree.read hi hn), ?_, ?_, (nodeLinkData_leaf _ _).2.1⟩
      · rw [hdata]; exact hsym
      · rw [hdata]; simp [isLeafOf, hn]
    · omega
  · have htree := Inv.treeOk h (Nat.zero_lt_of_lt hi)
    rcases htree.cases hi with ⟨sym, -, hd, -⟩ | ⟨l, r, hn, -, hl, hr⟩
    · omega
    · have hcount := Inv.nodeCount_le h
      obtain ⟨hleft, hright, hhigh, -⟩ := nodeLinkData_internal (nodeFreqAt s l + nodeFreqAt s r) l r
      refine ⟨_, exec_readNodeL h.1 hi (htree.read hi hn), hhigh, ?_, ?_⟩
      · rw [hleft, toNat_ofNat_of_lt (by omega)]; simp [childOn, hn]
      · rw [hright, toNat_ofNat_of_lt (by omega)]; simp [childOn, hn]
  · exact exec_fail h.1 admission_readNodeL (if_pos (Nat.not_lt.1 hi))

end Sys2Proof.Machine

/-! PROOFS. BUILD_INIT and BUILD_STEP (`43_tree_builder.md` R246 to R249): the leaves, the merge, and the finalize
step of no item, of a tree that is too deep, and of one that the ROM can hold. -/

namespace Sys2Proof.Machine

/-! ## The decode stage (R32) -/

section
variable {s : State}

theorem admission_buildInit (hp : s.phase = .load) : admission .buildInit s = none :=
  admission_none_iff.2 ⟨by simp [admitted, opcodeOf, hp], nofun, nofun⟩

theorem admission_buildStep (hp : s.phase = .merging) : admission .buildStep s = none :=
  admission_none_iff.2 ⟨by simp [admitted, opcodeOf, hp], nofun, nofun⟩

theorem admission_build (hp : s.phase ≠ .built) : admission .build s = none :=
  admission_none_iff.2 ⟨by cases hs : s.phase <;> simp_all [admitted, opcodeOf], nofun, nofun⟩

end

/-! ## BUILD_INIT (R246) -/

/-- With as many items as nodes the queue holds every node (R256). -/
theorem MergingPhase.items_perm {s : State} (h : MergingPhase s) (hc : s.heapCount = s.nodeCount) :
    (heapItems s).Perm (List.range s.nodeCount) := by
  obtain ⟨hdense, -, ⟨-, -, hperm, -⟩, -⟩ := h
  have hlen := hperm.length_eq
  rw [List.length_append, heapItems_length hdense, hc, List.length_range] at hlen
  rwa [List.length_eq_zero_iff.1 (by omega : (List.flatMap nodeChildren (cellsValues s.node)).length = 0),
    List.append_nil] at hperm

/-- Settles O27: the body's leaves, each with its place in ORDER, and their queue. -/
theorem buildInitCreatesLeaves : Obligations.BuildInitCreatesLeaves := by
  intro s h hp
  have b := Inv.bounds h
  obtain ⟨t, e, ht, hleaf, ⟨f, hf0, hfd, hf⟩, hm⟩ := buildInitBody_spec b.table (Inv.load h hp)
  have hrule : buildInitRule s = .ok (.respond (fieldData s.config.nodeW s.distinct), t) := by
    simp only [buildInitRule, e, ok_bind]; rfl
  have hnode : t.nodeCount = s.distinct := by rw [ht]
  have hheap : t.heapCount = s.distinct := by rw [ht]
  obtain ⟨⟨-, hw⟩, -⟩ := legal_bounds b.legal
  have hd := b.distinct
  have hpos := (dMax_le b.legal).1
  refine ⟨t, _, exec_respond h.1 (admission_buildInit hp) hrule, ht,
    fieldData_toNat (by rw [nodeW_pow]; omega) (by unfold Config.nodeW; omega),
    fun k hk => ⟨_, cellsGet_itemAt b.table.2.1 hk, hleaf k hk⟩, ?_, hm.2.1, f, hf0, hfd,
    fun k hk => (hf k (Nat.zero_le k) hk).2⟩
  rw [← hnode]
  exact hm.items_perm (hheap.trans hnode.symm)

/-! ## BUILD_STEP (R247 to R249) -/

/-- Settles O28: the merge of the phase's queue, with the new node's index within the response's field. -/
theorem buildStepMerges : Obligations.BuildStepMerges := by
  intro s h hp h1
  have ht := (Inv.bounds h).table
  have hm := Inv.merging h hp
  obtain ⟨x, y, rest, h', e, hx, hperm, hmin, hmin2, hperm', hlayout, hm'⟩ := hm.merge ht h1
  obtain ⟨⟨-, hw⟩, -⟩ := legal_bounds h.1
  have hroom := (hm.counts ht).2.2.2 h1
  unfold Config.nodeMax at hroom
  exact ⟨_, _, x, y, rest, exec_respond h.1 (admission_buildStep hp) (buildStepRule_merge h1 e), rfl,
    fieldData_toNat (by rw [nodeW_pow]; omega) (by unfold Config.nodeW; omega), hx, hperm, hmin, hmin2,
    cellsGet_set_same .., fun k hk => cellsGet_set_other _ _ hk, hperm', hm'.2.1, hlayout⟩

/-- A store with no record has no leaf. -/
theorem not_leafDeeper_of_empty {s : State} (h : s.node = []) (r n : Nat) : ¬ LeafDeeper s r n := by
  rintro ⟨p, i, x, -, hleaf, -⟩
  simp [isLeafOf, h, cellsGet] at hleaf

section
variable {s : State} (hm : MergingPhase s) (ht : FrequencyTable s)
include hm ht

theorem MergingPhase.heapItem_root (h1 : s.heapCount = 1) : heapItem s 0 = 2 * s.distinct - 2 := by
  obtain ⟨-, -, hheap, -⟩ := hm.last ht h1
  simp [heapItem, cellsAt, hheap, cellsGet]

theorem MergingPhase.leafDeeper_root (h1 : s.heapCount = 1) (n : Nat) :
    LeafDeeper s (2 * s.distinct - 2) n ↔ n < deepest (leavesOf s (2 * s.distinct - 2)) := by
  obtain ⟨hd, hcount, -, -⟩ := hm.last ht h1
  exact (hm.treeOk ht).leafDeeper_iff (by omega)

/-- The finalize step of no item (R248, R258). -/
theorem MergingPhase.finalize_empty (h0 : s.heapCount = 0) :
    Machine.finalize s = .ok (.respond (finalizeData false 0), { s with phase := .built }) := by
  rcases hm.finalize ht (by omega) with ⟨-, -, e, -⟩ | ⟨-, h1, -⟩ | ⟨-, h1, -⟩
  · exact e
  all_goals omega

/-- The finalize step of a tree that is too deep (R283). -/
theorem MergingPhase.finalize_deep (h1 : s.heapCount = 1)
    (hdeep : LeafDeeper s (2 * s.distinct - 2) s.config.lmax) : Machine.finalize s = .ok (.raise .codeTooLong, s) := by
  rw [hm.leafDeeper_root ht h1] at hdeep
  rcases hm.finalize ht h1.le with ⟨-, h0, -⟩ | ⟨-, -, -, e⟩ | ⟨-, -, hle, -⟩
  · omega
  · exact e
  · omega

/-- The finalize step of a tree that the ROM can hold (R248, R282). -/
theorem MergingPhase.finalize_root (h1 : s.heapCount = 1)
    (hnot : ¬ LeafDeeper s (2 * s.distinct - 2) s.config.lmax) :
    ∃ rom maxLen, romOf s (2 * s.distinct - 2) = .ok (some (rom, maxLen)) ∧
      Machine.finalize s = .ok (.respond (finalizeData true (2 * s.distinct - 2)), { s with
        phase := .built, heap := [], heapCount := 0, root := 2 * s.distinct - 2, rootValid := true, rom := rom
        maxLen := maxLen }) := by
  obtain ⟨hd, hcount, -, hleaves⟩ := hm.last ht h1
  rw [hm.leafDeeper_root ht h1] at hnot
  have hrom := (hm.treeOk ht).romOf_eq (show 2 * s.distinct - 2 < s.nodeCount by omega)
    (hleaves.nodup_iff.2 (orderList_nodup ht))
  rw [if_neg hnot] at hrom
  rcases hm.finalize ht h1.le with ⟨-, h0, -⟩ | ⟨-, -, hlt, -⟩ | ⟨-, -, -, t, e, rfl, -⟩
  · omega
  · exact absurd hlt hnot
  · exact ⟨_, _, hrom, e⟩

end

/-- The index of ROOT fits its 24 bits in a response (R7, R248). -/
theorem root_lt {s : State} (h : Inv s) : 2 * s.distinct - 2 < 2 ^ 24 := by
  have b := Inv.bounds h
  have := b.distinct
  have := (dMax_le b.legal).2
  omega

theorem finalizeData_top (v : Bool) (r : Nat) : (finalizeData v r).extractLsb' 54 2 = 1#1 ++ BitVec.ofBool v := by
  unfold finalizeData; rw [field_high (j := 30) _ _ (by decide), field_high (j := 0) _ _ (by decide), field_all]

/-- Settles O29: BUILD_STEP is the finalize step here, whose one item is the root of the whole tree. -/
theorem buildStepFinalizes : Obligations.BuildStepFinalizes := by
  refine ⟨fun s h hp h0 => ?_, fun s h hp h1 hdeep => ?_, fun s h hp h1 hnot => ?_⟩
  · have e := (Inv.merging h hp).finalize_empty (Inv.bounds h).table h0
    exact exec_respond h.1 (admission_buildStep hp) ((buildStepRule_finalize (by omega)).trans e)
  · have hm := Inv.merging h hp
    rw [hm.heapItem_root (Inv.bounds h).table h1] at hdeep
    have e := hm.finalize_deep (Inv.bounds h).table h1 hdeep
    exact exec_fail h.1 (admission_buildStep hp) ((buildStepRule_finalize h1.le).trans e)
  · have hm := Inv.merging h hp
    rw [hm.heapItem_root (Inv.bounds h).table h1] at hnot ⊢
    obtain ⟨rom, maxLen, hrom, e⟩ := hm.finalize_root (Inv.bounds h).table h1 hnot
    refine ⟨rom, maxLen, _, hrom, exec_respond h.1 (admission_buildStep hp)
      ((buildStepRule_finalize h1.le).trans e), finalizeData_top .., finalizeData_zero .., ?_⟩
    rw [finalizeData_root, toNat_ofNat_of_lt (root_lt h)]

end Sys2Proof.Machine

/-! PROOFS. BUILD (`43_tree_builder.md` R250, R259, R260): the single steps that do its merges leave a state from which
BUILD does what it did before them, and there it is the finalize step. -/

namespace Sys2Proof.Machine

/-! ## Commands in sequence (R90) -/

theorem execAll_cons {i : Instr} {s t : State} (h : exec i s = .next t) (is : List Instr) :
    execAll (i :: is) s = execAll is t := by
  simp only [execAll, h]

theorem execAll_singleton (i : Instr) (s : State) : execAll [i] s = exec i s := by
  simp only [execAll]; cases exec i s <;> rfl

theorem execAll_append {is : List Instr} {s t : State} (h : execAll is s = .next t) (js : List Instr) :
    execAll (is ++ js) s = execAll js t := by
  induction is generalizing s with
  | nil => cases h; rfl
  | cons i is ih =>
    cases he : exec i s with
    | next u => rw [execAll_cons he] at h; rw [List.cons_append, execAll_cons he]; exact ih h
    | fault f => simp only [execAll, he] at h; cases h
    | refused r => simp only [execAll, he] at h; cases h

/-! ## BUILD after a single step (R260), in any state -/

theorem buildRule_load {s : State} (hp : s.phase = .load) :
    buildRule s = buildInitBody s >>= fun t => mergeAll (queueCount t) t >>= finalize := by
  simp only [buildRule, if_pos hp]

theorem buildRule_merging {s : State} (hp : s.phase ≠ .load) :
    buildRule s = mergeAll (queueCount s) s >>= finalize := by
  simp only [buildRule, if_neg hp, ok_bind]

theorem exec_build_congr {s u : State} (hc : u.config = s.config) (hs : s.phase ≠ .built) (hu : u.phase ≠ .built)
    (hr : buildRule u = buildRule s) : exec .build u = exec .build s := by
  have has : admissionError .build 0#16 0#32 s = none := admission_build hs
  have hau : admissionError .build 0#16 0#32 u = none := admission_build hu
  unfold exec execBuild runCommand
  rw [hc, has, hau, hr]

/-- A response that waits decides nothing of what BUILD does (R261). -/
theorem exec_build_respond (d : Data) (s : State) : exec .build (respond d s) = exec .build s := by
  have hother : buildRule (respond d s) = Prod.map id (withHistory (respond d s)) <$> buildRule s :=
    buildRule_withHistory (respond d s) s
  have hown : buildRule s = Prod.map id (withHistory s) <$> buildRule s := buildRule_withHistory s s
  unfold exec execBuild runCommand
  rw [hother]
  cases hr : buildRule s with
  | error f => rfl
  | ok p =>
    obtain ⟨a, u⟩ := p
    have hu : u = withHistory s u := by rw [hr] at hown; exact congrArg Prod.snd (Except.ok.inj hown)
    rw [hu]
    cases a <;> rfl

/-- BUILD does BUILD_INIT's work first. -/
theorem exec_build_of_buildInit {s t : State} (hp : s.phase = .load) (h : exec .buildInit s = .next t) :
    exec .build t = exec .build s := by
  obtain ⟨-, ⟨e, ha, -⟩ | ⟨-, a, u, hr, rfl⟩⟩ := exec_next_iff.1 h
  · rw [admission_buildInit hp] at ha; cases ha
  · obtain ⟨⟨d, rfl⟩, hu⟩ := buildInitRule_ok hr
    have hframe := (buildInitBody_frame hu).1
    have hphase : u.phase = .merging := by rw [hframe]
    rw [finish_respond, exec_build_respond]
    refine exec_build_congr (by rw [hframe]) (by rw [hp]; decide) (by rw [hphase]; decide) ?_
    rw [buildRule_load hp, hu, buildRule_merging (by rw [hphase]; decide), ok_bind]

/-- BUILD does the merges first, one at a time. -/
theorem exec_build_of_merge {s t : State} (hp : s.phase = .merging) (h1 : 1 < s.heapCount)
    (h : exec .buildStep s = .next t) : exec .build t = exec .build s := by
  obtain ⟨-, ⟨e, ha, -⟩ | ⟨-, a, u, hr, rfl⟩⟩ := exec_next_iff.1 h
  · rw [admission_buildStep hp] at ha; cases ha
  · rcases buildStepRule_ok hr with ⟨-, n, hu, rfl⟩ | ⟨hle, -⟩
    · obtain ⟨-, -, hframe, -⟩ := merge_frame hu
      have hphase : u.phase = .merging := by rw [hframe]; exact hp
      obtain ⟨k, hk⟩ : ∃ k, s.heapCount = k + 1 := ⟨s.heapCount - 1, by omega⟩
      have huk : u.heapCount = k := by rw [hframe]; simp only [hk]; omega
      rw [finish_respond, exec_build_respond]
      refine exec_build_congr (by rw [hframe]) (by rw [hp]; decide) (by rw [hphase]; decide) ?_
      have hmerges : mergeAll (queueCount s) s = mergeAll (queueCount u) u := by
        rw [show queueCount s = k + 1 from hk, show queueCount u = k from huk, mergeAll,
          if_pos (show 1 < queueCount s from h1), hu]
        rfl
      rw [buildRule_merging (by rw [hphase]; decide), buildRule_merging (by rw [hp]; decide), hmerges]
    · omega

/-- With at most one item and after LOAD, BUILD is the finalize step (R250). -/
theorem buildRule_finalize {s : State} (hp : s.phase ≠ .load) (h1 : s.heapCount ≤ 1) : buildRule s = finalize s := by
  have hmerges : mergeAll (queueCount s) s = .ok s := by
    cases hq : queueCount s with
    | zero => rfl
    | succ n => rw [mergeAll, if_neg (show ¬ 1 < queueCount s from Nat.not_lt.2 h1)]
  rw [buildRule_merging hp, hmerges, ok_bind]

/-! ## The single steps that do the merges (R247, R249) -/

/-- A state of MERGING that BUILD_INIT and merges lead to from another, with so many items left in the queue: BUILD
does from it what it did before, and nothing but PHASE, the tree, the queue and the response has changed. -/
structure MergedTo (s t : State) (items : Nat) : Prop where
  inv : Inv t
  phase : t.phase = .merging
  items : t.heapCount = items
  build : exec .build t = exec .build s
  frame : t = { s with phase := .merging, node := t.node, nodeCount := t.nodeCount, heap := t.heap,
                       heapCount := t.heapCount, response := t.response }

theorem MergedTo.refl {s : State} (h : Inv s) (hp : s.phase = .merging) : MergedTo s s s.heapCount :=
  ⟨h, hp, rfl, rfl, by rw [← hp]⟩

theorem MergedTo.trans {s t u : State} {m n : Nat} (h : MergedTo s t m) (h' : MergedTo t u n) : MergedTo s u n :=
  ⟨h'.inv, h'.phase, h'.items, h'.build.trans h.build, by rw [h'.frame, h.frame]⟩

/-- BUILD_INIT in LOAD leaves as many items as symbols (R246). -/
theorem Inv.buildInit {s : State} (h : Inv s) (hp : s.phase = .load) :
    ∃ t, exec .buildInit s = .next t ∧ MergedTo s t s.distinct := by
  obtain ⟨t, d, e, ht, -⟩ := buildInitCreatesLeaves s h hp
  exact ⟨_, e, exec_inv h e, by rw [ht], by rw [ht], exec_build_of_buildInit hp e, by rw [ht]⟩

/-- BUILD_STEP with more than one item leaves one item fewer (R247). -/
theorem Inv.buildStep {s : State} (h : Inv s) (hp : s.phase = .merging) (h1 : 1 < s.heapCount) :
    ∃ t, exec .buildStep s = .next t ∧ MergedTo s t (s.heapCount - 1) := by
  obtain ⟨t, d, x, y, rest, e, ht, -⟩ := buildStepMerges s h hp h1
  exact ⟨_, e, exec_inv h e, by rw [ht]; exact hp, by rw [ht], exec_build_of_merge hp h1 e, by rw [ht, ← hp]⟩

/-- BUILD_STEPs while more than one item is left. -/
theorem Inv.buildSteps {s : State} {j : Nat} (h : Inv s) (hp : s.phase = .merging) (hj : j < max s.heapCount 1) :
    ∃ t, execAll (List.replicate j .buildStep) s = .next t ∧ MergedTo s t (s.heapCount - j) := by
  induction j generalizing s with
  | zero => exact ⟨s, rfl, .refl h hp⟩
  | succ j ih =>
    obtain ⟨t, e, ht⟩ := h.buildStep hp (by omega)
    have hitems := ht.items
    obtain ⟨u, e', hu⟩ := ih ht.inv ht.phase (by omega)
    refine ⟨u, by rw [List.replicate_succ, execAll_cons e, e'], ?_⟩
    rw [hitems, Nat.sub_sub, Nat.add_comm 1 j] at hu
    exact ht.trans hu

/-- BUILD_INIT and BUILD_STEPs while more than one item is left. -/
theorem Inv.buildInitSteps {s : State} {j : Nat} (h : Inv s) (hp : s.phase = .load) (hj : j < max s.distinct 1) :
    ∃ t, execAll (.buildInit :: List.replicate j .buildStep) s = .next t ∧ MergedTo s t (s.distinct - j) := by
  obtain ⟨t, e, ht⟩ := h.buildInit hp
  have hitems := ht.items
  obtain ⟨u, e', hu⟩ := ht.inv.buildSteps ht.phase (j := j) (by omega)
  rw [hitems] at hu
  exact ⟨u, by rw [execAll_cons e, e'], ht.trans hu⟩

/-- The single steps that do a state's merges leave at most one item (R260). -/
theorem Inv.mergeSteps {s : State} (h : Inv s) (hp : s.phase ≠ .built) :
    ∃ u n, execAll (mergeSteps s) s = .next u ∧ MergedTo s u n ∧ n ≤ 1 := by
  unfold Machine.mergeSteps
  cases hs : s.phase with
  | load =>
    obtain ⟨u, e, hu⟩ := h.buildInitSteps hs (j := s.distinct - 1) (by omega)
    exact ⟨u, _, e, hu, by omega⟩
  | merging =>
    obtain ⟨u, e, hu⟩ := h.buildSteps hs (j := s.heapCount - 1) (by omega)
    exact ⟨u, _, e, hu, by omega⟩
  | built => exact absurd hs hp

/-! ## The finalize step after the merges (R248, R255, R283) -/

theorem cellsDense_zero {α : Type} {c : Cells α} (h : cellsDense c 0) : c = [] := List.map_eq_nil_iff.1 h

/-- In MERGING the queue is empty only without a symbol (R251, R258). -/
theorem MergingPhase.empty {s : State} (hm : MergingPhase s) (h0 : s.heapCount = 0) :
    s.distinct = 0 ∧ s.node = [] ∧ s.heap = [] ∧ NoResult s := by
  obtain ⟨hheap, -, ⟨hnode, -⟩, hcounts, hle, -, hno⟩ := hm
  rw [h0] at hheap
  rw [show s.nodeCount = 0 by omega] at hnode
  exact ⟨by omega, cellsDense_zero hnode, cellsDense_zero hheap, hno⟩

/-- After the last merge every node of the tree is written (R251, R255). -/
theorem MergingPhase.nodeCount_merged {s : State} (hm : MergingPhase s) (h1 : s.heapCount ≤ 1) :
    s.nodeCount = 2 * s.distinct - 1 := by
  obtain ⟨-, -, -, hcounts, hle, -⟩ := hm
  omega

/-- A queue of at most one item holds that item, if some leaf lies deep in the store. -/
theorem MergingPhase.one_of_deep {s : State} (hm : MergingPhase s) (h1 : s.heapCount ≤ 1) {r n : Nat}
    (hdeep : LeafDeeper s r n) : s.heapCount = 1 := by
  by_contra hne
  obtain ⟨-, hnode, -⟩ := hm.empty (by omega)
  exact not_leafDeeper_of_empty hnode r n hdeep

section
variable {s : State} (hm : MergingPhase s) (ht : FrequencyTable s) (h1 : s.heapCount ≤ 1)
include hm ht h1

/-- A tree over at most n + 1 symbols is no deeper than n (R252). -/
theorem MergingPhase.not_deep {n : Nat} (hle : s.distinct ≤ n + 1) : ¬ LeafDeeper s (2 * s.distinct - 2) n := by
  intro hdeep
  have hone := hm.one_of_deep h1 hdeep
  rw [hm.leafDeeper_root ht hone] at hdeep
  obtain ⟨hd, hcount, -, hleaves⟩ := hm.last ht hone
  have hdepth := (hm.treeOk ht).deepest_lt (2 * s.distinct - 2) (by omega)
  have hlen := hleaves.length_eq
  rw [List.length_map, ht.orderList_length] at hlen
  omega

/-- The finalize step of a tree that is not too deep, with or without a symbol (R248, R255, R258). -/
theorem MergingPhase.finalize_done (hnot : ¬ LeafDeeper s (2 * s.distinct - 2) s.config.lmax) :
    ∃ rom maxLen, Machine.finalize s = .ok (.respond (finalizeData (decide (0 < s.distinct)) (2 * s.distinct - 2)),
      { s with phase := .built, heap := [], heapCount := 0, root := 2 * s.distinct - 2
               rootValid := decide (0 < s.distinct), rom := rom, maxLen := maxLen }) := by
  rcases Nat.le_one_iff_eq_zero_or_eq_one.1 h1 with h0 | hone
  · obtain ⟨hd, -, hheap, hroot, hvalid, hrom, hmax⟩ := hm.empty h0
    exact ⟨s.rom, s.maxLen, by rw [hm.finalize_empty ht h0]; simp [hd, h0, hheap, hroot, hvalid]⟩
  · obtain ⟨hd, -⟩ := hm.last ht hone
    obtain ⟨rom, maxLen, -, e⟩ := hm.finalize_root ht hone hnot
    exact ⟨rom, maxLen, by rw [e, decide_eq_true hd]⟩

end

section
variable {s : State} (h : Inv s) (hp : s.phase = .merging) (h1 : s.heapCount ≤ 1)
include h hp h1

theorem exec_build_deep (hdeep : LeafDeeper s (2 * s.distinct - 2) s.config.lmax) :
    exec .build s =
      .next { s with errCode := 0x0A#8, errOpc := 0x32#8, response := some (0x0A#8 ++ 0#56) } := by
  have hm := Inv.merging h hp
  have e := hm.finalize_deep (Inv.bounds h).table (hm.one_of_deep h1 hdeep) hdeep
  exact exec_fail h.1 (admission_build (by rw [hp]; decide))
    ((buildRule_finalize (by rw [hp]; decide) h1).trans e)

theorem exec_buildStep_deep (hdeep : LeafDeeper s (2 * s.distinct - 2) s.config.lmax) :
    exec .buildStep s =
      .next { s with errCode := 0x0A#8, errOpc := 0x31#8, response := some (0x0A#8 ++ 0#56) } := by
  have hm := Inv.merging h hp
  have e := hm.finalize_deep (Inv.bounds h).table (hm.one_of_deep h1 hdeep) hdeep
  exact exec_fail h.1 (admission_buildStep hp) ((buildStepRule_finalize h1).trans e)

/-- After the merges BUILD and BUILD_STEP end the build alike, if the tree is not too deep (R248 to R250). -/
theorem exec_build_done (hnot : ¬ LeafDeeper s (2 * s.distinct - 2) s.config.lmax) :
    ∃ rom maxLen, ∀ i ∈ [Instr.build, .buildStep], exec i s = .next { s with
      phase := .built, heap := [], heapCount := 0, root := 2 * s.distinct - 2
      rootValid := decide (0 < s.distinct), rom := rom, maxLen := maxLen
      response := some (0x00#8 ++ finalizeData (decide (0 < s.distinct)) (2 * s.distinct - 2)) } := by
  obtain ⟨rom, maxLen, e⟩ := (Inv.merging h hp).finalize_done (Inv.bounds h).table h1 hnot
  have hbuild := exec_respond h.1 (admission_build (by rw [hp]; decide))
    ((buildRule_finalize (by rw [hp]; decide) h1).trans e)
  have hstep := exec_respond h.1 (admission_buildStep hp) ((buildStepRule_finalize h1).trans e)
  exact ⟨rom, maxLen, by simp [hbuild, hstep]⟩

end

/-! ## BUILD (R250, R259, R260) -/

/-- Settles O30: BUILD does what it does after the single steps, where it is the finalize step. -/
theorem buildCompletes : Obligations.BuildCompletes := by
  intro s h hp
  obtain ⟨u, n, hsteps, hu, hn⟩ := h.mergeSteps hp
  have h1 : u.heapCount ≤ 1 := hu.items.trans_le hn
  have hm := Inv.merging hu.inv hu.phase
  have hd : u.distinct = s.distinct := by rw [hu.frame]
  have hcfg : u.config = s.config := by rw [hu.frame]
  have hnodes := hm.nodeCount_merged h1
  rw [hd] at hnodes
  refine ⟨u, hsteps, hnodes, fun hle => ?_, fun hnot => ?_, fun hdeep => ?_⟩
  · rw [← hd] at hle ⊢
    exact hm.not_deep (Inv.bounds hu.inv).table h1 hle
  · obtain ⟨rom, maxLen, e⟩ := exec_build_done hu.inv hu.phase h1 (by rw [hd, hcfg]; exact hnot)
    have hbuild := hu.build.symm.trans (e .build (by simp))
    rw [hd, hu.frame, hnodes] at hbuild
    have hinv := exec_inv h hbuild
    have hown := hinv.update hinv.errorRecord s.response s.taken s.host s.position
    have hroot := root_lt h
    refine ⟨{ s with phase := .built, node := u.node, nodeCount := 2 * s.distinct - 1, heap := [], heapCount := 0
                     root := 2 * s.distinct - 2, rootValid := decide (0 < s.distinct), rom := rom, maxLen := maxLen },
      _, hbuild, rfl, Inv.built hown rfl, (nodeFrequencies _ hown).2 rfl, finalizeData_done .., finalizeData_valid ..,
      finalizeData_zero .., ?_⟩
    rw [finalizeData_root, toNat_ofNat_of_lt hroot]
  · rw [← hu.build]
    exact exec_build_deep hu.inv hu.phase h1 (by rw [hd, hcfg]; exact hdeep)

/-- Settles O32: each single step leaves what BUILD does unchanged, and after the last merge BUILD_STEP is the finalize
step too. -/
theorem buildIsInitAndSteps : Obligations.BuildIsInitAndSteps := by
  refine ⟨fun s j h hp hj => ?_, fun s h hp hle => ?_⟩
  · obtain ⟨t, e, ht⟩ := h.buildInitSteps hp hj
    exact ⟨by rw [execAll_append e, execAll_singleton, ht.build], t, e, ht.phase⟩
  · obtain ⟨k, hk⟩ : ∃ k, max s.distinct 1 = k + 1 := ⟨max s.distinct 1 - 1, by omega⟩
    obtain ⟨t, e, ht⟩ := h.buildInitSteps hp (j := k) (by omega)
    have h1 : t.heapCount ≤ 1 := by rw [ht.items]; omega
    have hd : t.distinct = s.distinct := by rw [ht.frame]
    have hcfg : t.config = s.config := by rw [ht.frame]
    obtain ⟨rom, maxLen, edone⟩ := exec_build_done ht.inv ht.phase h1
      ((Inv.merging ht.inv ht.phase).not_deep (Inv.bounds ht.inv).table h1 (by rw [hd, hcfg]; exact hle))
    rw [hk, List.replicate_succ', ← List.cons_append, execAll_append e, execAll_singleton, ← ht.build,
      edone .build (by simp), edone .buildStep (by simp)]

/-- Only BUILD and BUILD_STEP can leave MERGING without CLEAR (R31). -/
theorem exec_phase_merging {i : Instr} {s t : State} (hp : s.phase = .merging) (hclear : i ≠ .clear)
    (hstep : i ≠ .buildStep) (hbuild : i ≠ .build) (h : exec i s = .next t) : t.phase = .merging := by
  by_contra hne
  rcases phaseTransitions s t i h (by rw [hp]; exact hne) with ⟨hs, -⟩ | ⟨-, -, rfl | rfl⟩ | ⟨hs, -⟩ | ⟨-, rfl⟩
  · rw [hp] at hs; cases hs
  · exact hstep rfl
  · exact hbuild rfl
  · rw [hp] at hs; cases hs
  · exact hclear rfl

/-- Where a string of digits leads depends on the node store alone (R289). -/
theorem nodeOn_congr {s t : State} (hn : t.node = s.node) (p : List Bool) : nodeOn t p = nodeOn s p := by
  induction p with
  | nil => rfl
  | cons b p ih => funext i; simp only [nodeOn, childOn, hn, ih]

theorem leafDeeper_congr {s t : State} (hn : t.node = s.node) (r n : Nat) : LeafDeeper t r n ↔ LeafDeeper s r n := by
  simp only [LeafDeeper, nodeOn_congr hn, isLeafOf, hn]

/-- A response word gives its status code back (R114). -/
theorem status_of_response {b c : Byte} {d e : Data} (h : some (b ++ d) = some (c ++ e)) : b = c := by
  have hst : stField (responseWord b d) = stField (responseWord c e) := congrArg stField (Option.some.inj h)
  rwa [stField_response, stField_response] at hst

/-- BUILD answers CODE_TOO_LONG only where the merges lead to a tree that is too deep, which they leave (R259, R283). -/
theorem Inv.build_deep {s t : State} (h : Inv s) (he : exec .build s = .next t)
    (hresp : t.response = some (0x0A#8 ++ 0#56)) :
    ∃ u n, MergedTo s u n ∧ u.heapCount = 1 ∧ LeafDeeper u (2 * u.distinct - 2) u.config.lmax ∧
      t = { u with errCode := 0x0A#8, errOpc := 0x32#8, response := some (0x0A#8 ++ 0#56) } := by
  have hp : s.phase ≠ .built := by
    intro hp
    have hadm : admission .build s = some .phase := admission_phase_iff.2 (by rw [hp]; decide)
    cases he.symm.trans (exec_raise h.1 hadm)
    exact absurd (status_of_response hresp) (by decide)
  obtain ⟨u, n, -, hu, hn⟩ := h.mergeSteps hp
  have h1 : u.heapCount ≤ 1 := hu.items.trans_le hn
  rw [← hu.build] at he
  by_cases hdeep : LeafDeeper u (2 * u.distinct - 2) u.config.lmax
  · rw [exec_build_deep hu.inv hu.phase h1 hdeep] at he
    cases he
    exact ⟨u, n, hu, (Inv.merging hu.inv hu.phase).one_of_deep h1 hdeep, hdeep, rfl⟩
  · obtain ⟨rom, maxLen, e⟩ := exec_build_done hu.inv hu.phase h1 hdeep
    rw [e .build (by simp)] at he
    cases he
    exact absurd (status_of_response hresp) (by decide)

/-- Settles O31: BUILD answers CODE_TOO_LONG after the merges alone, and they leave one tree, still too deep. -/
theorem codeTooLongKeepsMerges : Obligations.CodeTooLongKeepsMerges := by
  intro s t h he hresp
  obtain ⟨u, n, hu, h1, hdeep, ht⟩ := h.build_deep he hresp
  have hm := Inv.merging hu.inv hu.phase
  have hnodes := hm.nodeCount_merged h1.le
  obtain ⟨-, -, -, -, -, -, hroot, hvalid, hrom, hmax⟩ := hm
  have hd : u.distinct = s.distinct := by rw [hu.frame]
  rw [hd] at hnodes
  have hinv : Inv t := exec_inv h he
  have hphase : t.phase = .merging := by rw [ht]; exact hu.phase
  have hcount : t.heapCount ≤ 1 := by rw [ht]; exact h1.le
  have hdeep' : LeafDeeper t (2 * t.distinct - 2) t.config.lmax := by
    rw [leafDeeper_congr (s := u) (by rw [ht])]; rw [ht]; exact hdeep
  have hbuild := exec_build_deep hinv hphase hcount hdeep'
  have hstep := exec_buildStep_deep hinv hphase hcount hdeep'
  have herr : t.errCode = 0x0A#8 := by rw [ht]
  have hopc : t.errOpc = 0x32#8 := by rw [ht]
  refine ⟨⟨?_, by rw [ht]; exact hroot, by rw [ht]; exact hvalid, by rw [ht]; exact hrom, by rw [ht]; exact hmax⟩,
    ?_, ?_, fun i v hclear hv => ?_⟩
  · rw [ht, ← hnodes, ← h1, hu.frame]
  · rw [hbuild, ← hresp, ← herr, ← hopc]
  · rw [hstep, ← hresp, ← herr]
  · by_cases hib : i = .build
    · subst hib; cases hbuild.symm.trans hv; exact hphase
    · by_cases his : i = .buildStep
      · subst his; cases hstep.symm.trans hv; exact hphase
      · exact exec_phase_merging hphase hclear his hib hv

end Sys2Proof.Machine

/-! PROOFS. The code-table ROM (`44_code_rom.md`): the leaves under ROOT and the ROM entries of their symbols, the laws
of the codes, the two reads, and what stays in BUILT. -/

namespace Sys2Proof.Machine

/-! ## The table's symbols -/

/-- ORDER lists the symbols with a count, whatever their value: beyond D_MAX no symbol has one (R35, R52). -/
theorem FrequencyTable.mem_order_iff_pos {s : State} (h : FrequencyTable s) {x : Nat} :
    x ∈ orderList s ↔ 0 < freqRead s x := by
  rw [h.mem_order, and_iff_right_iff_imp]
  intro hpos
  have ⟨hrange, _⟩ := h
  cases hg : cellsGet s.freq x with
  | none => simp [freqRead, cellsAt, hg] at hpos
  | some v => exact hrange _ (cellsGet_mem hg)

/-- A sum over all symbols is one over those with a count, if the others add nothing. -/
theorem sum_presentSymbols {s : State} {f : Nat → Nat} (h0 : ∀ x, freqRead s x = 0 → f x = 0) :
    ((presentSymbols s).map f).sum = ((List.range s.config.dMax).map f).sum := by
  unfold presentSymbols
  induction List.range s.config.dMax with
  | nil => rfl
  | cons x l ih =>
    by_cases hx : 0 < freqRead s x
    · simp [hx, ih]
    · simp [hx, ih, h0 x (Nat.eq_zero_of_not_pos hx)]

/-! ## The digits of an entry (R281) -/

@[simp] theorem codeOf_length (s : State) (x : Nat) : (codeOf s x).length = (romRead s x).len := by simp [codeOf]

theorem codeOf_of_entry {s : State} {x : Nat} {p : List Bool} (h : romRead s x = codeEntry p) : codeOf s x = p := by
  rw [codeOf, h, digits_codeEntry]

theorem codeEntry_testBit_of_le {p : List Bool} {k : Nat} (h : (codeEntry p).len ≤ k) :
    (codeEntry p).bits.testBit k = false := by
  have hk : p.length ≤ k := h
  simp [codeEntry, codeBits_testBit, hk]

/-- Some leaf is the deepest. -/
theorem exists_deepest {l : List (Nat × List Bool)} (h : l ≠ []) : ∃ e ∈ l, e.2.length = deepest l := by
  by_contra hne
  push Not at hne
  obtain ⟨e, he⟩ := List.exists_mem_of_ne_nil l h
  have hlt : ∀ e ∈ l, e.2.length < deepest l := fun e he => lt_of_le_of_ne (le_deepest he) (hne e he)
  have hle : deepest l ≤ deepest l - 1 := deepest_le_iff.2 fun e he => Nat.le_sub_one_of_lt (hlt e he)
  have := hlt e he
  omega

/-- A leaf's frequency is its symbol's count (R245, R254). -/
theorem TreeOk.freq_of_isLeafOf {s : State} (h : TreeOk s) {i x : Nat} (hi : i < s.nodeCount)
    (hl : isLeafOf s i x = true) : nodeFreqAt s i = freqRead s x := by
  rcases h.cases hi with ⟨sym, hn, -⟩ | ⟨l, r, hn, -⟩
  · obtain rfl : sym = x := by simpa [isLeafOf, hn] using hl
    exact TreeOk.leaf_freq hn
  · simp [isLeafOf, hn] at hl

/-- A node is the leaf of one symbol. -/
theorem isLeafOf_unique {s : State} {i x y : Nat} (hx : isLeafOf s i x = true) (hy : isLeafOf s i y = true) :
    x = y := by
  unfold isLeafOf at hx hy
  split at hx
  · next hn => simp only [hn, beq_iff_eq] at hx hy; exact hx.symm.trans hy
  · cases hx
  · cases hx

/-! ## The tree and the ROM of a BUILT state (R255, R256, R282) -/

/-- What the invariant says of a BUILT state with a symbol: one tree under ROOT, made by greedy merges, whose leaves are
the table's symbols, each with its path as its code. -/
structure CodeTree (s : State) : Prop where
  tree : TreeOk s
  root : s.root < s.nodeCount
  nodes : ([s.root] ++ (cellsValues s.node).flatMap nodeChildren).Perm (List.range s.nodeCount)
  greedy : GreedyOrder s [s.root]
  symbols : ((leavesOf s s.root).map Prod.fst).Perm (orderList s)
  count : (leavesOf s s.root).length = s.distinct
  entry : ∀ e ∈ leavesOf s s.root, romRead s e.1 = codeEntry e.2
  maxLen : s.maxLen = deepest (leavesOf s s.root)

theorem Inv.codeTree {s : State} (h : Inv s) (hp : s.phase = .built) (hd : 0 < s.distinct) : CodeTree s := by
  have ht := (Inv.bounds h).table
  have hb := Inv.built h hp
  obtain ⟨hsymbols, hrom, hmax, -⟩ := hb.rom ht hd
  obtain ⟨-, hroot, ⟨-, -, hnodes, -, hgreedy⟩, -⟩ := hb.2.2.2.2 hd
  have hcount := hb.2.2.1
  have hlen := hsymbols.length_eq
  rw [List.length_map, ht.orderList_length] at hlen
  refine ⟨hb.treeOk ht hd, by omega, hnodes, hgreedy, hsymbols, hlen, fun e he => ?_, hmax⟩
  have hget := recordLeaves_get (path := []) (rom := []) (hsymbols.nodup_iff.2 (orderList_nodup ht)) he
  simp only [romRead, cellsAt, hrom, hget, List.nil_append, Option.getD_some]

section
variable {s : State} (h : CodeTree s)
include h

/-- A leaf's entry leads to it: its digits are its path (R289). -/
theorem CodeTree.reached {e : Nat × List Bool} (he : e ∈ leavesOf s s.root) :
    ∃ i, nodeOn s (codeOf s e.1) s.root = some i ∧ isLeafOf s i e.1 = true := by
  rw [codeOf_of_entry (h.entry e he)]
  exact (h.tree.mem_leavesOf s.root h.root e.1 e.2).1 he

/-- MAX_LEN is less than DISTINCT (R252). -/
theorem CodeTree.maxLen_lt : s.maxLen < s.distinct := by
  have := h.tree.deepest_lt s.root h.root
  rw [h.maxLen, ← h.count]
  omega

/-- A sum over the table's symbols and their entries is one over the leaves and their paths. -/
theorem CodeTree.sum_symbols (ht : FrequencyTable s) (f : Nat → RomEntry → Nat) :
    ((presentSymbols s).map fun x => f x (romRead s x)).sum =
      ((leavesOf s s.root).map fun e => f e.1 (codeEntry e.2)).sum := by
  obtain ⟨-, -, hperm, -⟩ := ht
  rw [← ((h.symbols.trans hperm).map _).sum_eq, List.map_map]
  exact congrArg List.sum (List.map_congr_left fun e he => by rw [Function.comp_apply, h.entry e he])

end

section
variable {s : State} (h : Inv s) (hp : s.phase = .built)
include h hp

/-- A symbol of the table labels a leaf under ROOT, and its entry is that of the leaf's path (R282, R286). -/
theorem Inv.leaf_of_pos {x : Nat} (hx : 0 < freqRead s x) :
    CodeTree s ∧ ∃ p, (x, p) ∈ leavesOf s s.root ∧ romRead s x = codeEntry p := by
  have ht := (Inv.bounds h).table
  have hmem := ht.mem_order_iff_pos.2 hx
  have hd : 0 < s.distinct := ht.orderList_length ▸ List.length_pos_of_mem hmem
  exact ⟨h.codeTree hp hd, (Inv.built h hp).entry ht hmem⟩

/-- A symbol without a count has no code (R286). -/
theorem Inv.romRead_of_zero {x : Nat} (hx : freqRead s x = 0) : romRead s x = RomEntry.zero := by
  have ht := (Inv.bounds h).table
  exact (Inv.built h hp).no_entry ht (mt ht.mem_order_iff_pos.1 (by omega))

theorem Inv.romRead_valid (x : Nat) : (romRead s x).valid = decide (0 < freqRead s x) := by
  rcases Nat.eq_zero_or_pos (freqRead s x) with h0 | hpos
  · rw [h.romRead_of_zero hp h0, h0]; rfl
  · obtain ⟨-, p, -, he⟩ := h.leaf_of_pos hp hpos
    rw [he, decide_eq_true hpos]; rfl

theorem Inv.codedSymbols_eq : codedSymbols s = presentSymbols s := by
  simp only [codedSymbols, presentSymbols, h.romRead_valid hp]

/-- A symbol with a code has a leaf, to which its code leads (R289). -/
theorem Inv.code_reaches {x : Nat} (hx : (romRead s x).valid = true) :
    CodeTree s ∧ ∃ i, nodeOn s (codeOf s x) s.root = some i ∧ isLeafOf s i x = true := by
  rw [h.romRead_valid hp, decide_eq_true_eq] at hx
  obtain ⟨htree, p, hmem, -⟩ := h.leaf_of_pos hp hx
  exact ⟨htree, htree.reached hmem⟩

/-- No code is longer than MAX_LEN (R44). -/
theorem Inv.romRead_len_le (x : Nat) : (romRead s x).len ≤ s.maxLen := by
  rcases Nat.eq_zero_or_pos (freqRead s x) with h0 | hpos
  · rw [h.romRead_of_zero hp h0]; exact Nat.zero_le _
  · obtain ⟨htree, p, hmem, he⟩ := h.leaf_of_pos hp hpos
    rw [he, htree.maxLen]; exact le_deepest hmem

/-- The digits from CODE_LEN on are 0 (R281). -/
theorem Inv.romRead_testBit (x k : Nat) (hk : (romRead s x).len ≤ k) : (romRead s x).bits.testBit k = false := by
  rcases Nat.eq_zero_or_pos (freqRead s x) with h0 | hpos
  · rw [h.romRead_of_zero hp h0]; exact Nat.zero_testBit k
  · obtain ⟨-, p, -, he⟩ := h.leaf_of_pos hp hpos
    rw [he] at hk ⊢; exact codeEntry_testBit_of_le hk

theorem Inv.maxLen_le_distinct : s.maxLen ≤ s.distinct - 1 := by
  rcases Nat.eq_zero_or_pos s.distinct with h0 | hd
  · obtain ⟨-, -, -, hnone, -⟩ := Inv.built h hp
    obtain ⟨-, -, -, -, hmax⟩ := hnone h0
    omega
  · exact Nat.le_sub_one_of_lt (h.codeTree hp hd).maxLen_lt

end

/-! ## The laws of the codes (R284 to R286, R289 to R292) -/

/-- Settles O40: from the leaf that a code leads to no digit leads on, so that a longer code cannot pass through it. -/
theorem codesArePrefixFree : Obligations.CodesArePrefixFree := by
  rintro s x y h hp hx hy hne ⟨q, hq⟩
  obtain ⟨-, i, hi, hix⟩ := h.code_reaches hp hx
  obtain ⟨-, j, hj, hjy⟩ := h.code_reaches hp hy
  rw [← hq, nodeOn_append, hi, Option.bind_some] at hj
  obtain rfl := leaf_end hix hj
  obtain rfl := Option.some.inj hj
  exact hne (isLeafOf_unique hix hjy)

/-- Settles O46: greedy merges put a leaf of larger frequency no deeper. -/
theorem lengthsFollowFrequencies : Obligations.LengthsFollowFrequencies := by
  intro s x y h hp hx hy hlt
  obtain ⟨htree, i, hi, hix⟩ := h.code_reaches hp hx
  obtain ⟨-, j, hj, hjy⟩ := h.code_reaches hp hy
  have hfi := htree.tree.freq_of_isLeafOf (htree.tree.nodeOn_lt _ _ _ htree.root hi) hix
  have hfj := htree.tree.freq_of_isLeafOf (htree.tree.nodeOn_lt _ _ _ htree.root hj) hjy
  simpa using htree.tree.depth_order htree.greedy htree.nodes _ _ j i hj hi (by omega)

/-- Settles O41: a tree of one leaf is its root, and the path to it is empty. -/
theorem singleSymbolCode : Obligations.SingleSymbolCode := by
  intro s h hp h1
  have ht := (Inv.bounds h).table
  have hmax := h.maxLen_le_distinct hp
  obtain ⟨x, hx⟩ := List.length_eq_one_iff.1 (ht.orderList_length.trans h1)
  obtain ⟨-, p, -, he⟩ := h.leaf_of_pos hp (ht.mem_order_iff_pos.1 (hx ▸ List.mem_singleton_self x))
  have hlen := h.romRead_len_le hp x
  rw [he] at hlen
  obtain rfl : p = [] := List.length_eq_zero_iff.1 (show (codeEntry p).len = 0 by omega)
  exact ⟨x, hx, he, by omega⟩

/-- Settles O42: an entry is that of a leaf's path, where the symbol has a count, or all 0. -/
theorem romCoversTheTable : Obligations.RomCoversTheTable := by
  intro s h hp
  have hmax := h.maxLen_le_distinct hp
  refine ⟨h.romRead_valid hp, fun _ => h.romRead_of_zero hp, h.romRead_testBit hp, h.romRead_len_le hp,
    (Inv.bounds h).maxLen, hmax, fun hd => ?_, fun h0 => by omega⟩
  have htree := h.codeTree hp hd
  obtain ⟨e, he, hlen⟩ := exists_deepest (htree.tree.leavesOf_ne_nil s.root htree.root)
  exact ⟨e.1, by rw [htree.entry e he]; rfl, by rw [htree.entry e he, htree.maxLen]; exact hlen⟩

/-- Settles O43: the code is the path to the leaf, and no other string of digits leads there. -/
theorem codeIsPathToLeaf : Obligations.CodeIsPathToLeaf := by
  intro s x h hp hx
  obtain ⟨htree, i, hi, hix⟩ := h.code_reaches hp hx
  exact ⟨i, hi, hix, fun p _ hne hpi => hne (htree.tree.path_unique htree.nodes _ _ i hpi hi)⟩

/-- Settles O44: Kraft's sum of the tree under ROOT, taken over the symbols of its leaves. -/
theorem kraftEquality : Obligations.KraftEquality := by
  intro s h hp hd
  have htree := h.codeTree hp hd
  rw [h.codedSymbols_eq hp, htree.sum_symbols (Inv.bounds h).table fun _ e => 2 ^ (s.maxLen - e.len)]
  exact htree.tree.kraft s.root htree.root s.maxLen htree.maxLen.ge

/-- Settles O45: both sums are the cost of ROOT, or of no node where the table is empty. -/
theorem encodedLengthIsInternalSum : Obligations.EncodedLengthIsInternalSum := by
  intro s h hp
  have ht := (Inv.bounds h).table
  rw [← sum_presentSymbols (s := s) fun x h0 => by rw [h0, Nat.zero_mul]]
  rcases Nat.eq_zero_or_pos s.distinct with h0 | hd
  · obtain ⟨-, -, hcount, -⟩ := Inv.built h hp
    have hnil : presentSymbols s = [] := List.eq_nil_of_length_eq_zero (ht.distinct_eq.symm.trans h0)
    simp [hnil, hcount, h0]
  · have htree := h.codeTree hp hd
    rw [htree.sum_symbols ht fun x e => freqRead s x * e.len, ← htree.tree.roots_cost htree.nodes]
    simp [cost, codeEntry]

/-! ## READ_CODE_LEN and READ_CODE_BITS (R287, R288) -/

section
variable {s : State} {sym : SymField} {arg : ArgField} (hp : s.phase = .built) (hs : sym.toNat < s.config.dMax)
include hp hs

theorem admission_readCodeLen : admission (.readCodeLen sym) s = none :=
  admission_none_iff.2 ⟨by simp [admitted, opcodeOf, hp], fun _ => decide_eq_true hs, nofun⟩

theorem admission_readCodeBits : admission (.readCodeBits sym arg) s = none :=
  admission_none_iff.2 ⟨by simp [admitted, opcodeOf, hp], fun _ => decide_eq_true hs, nofun⟩

end

/-- Settles O38: a code's length is at most LMAX, within the 16 bits of its field. -/
theorem readCodeLength : Obligations.ReadCodeLength := by
  intro s sym h hp hs
  obtain ⟨-, -, -, hlmax⟩ := legal_bounds h.1
  have hlen := (h.romRead_len_le hp sym.toNat).trans (Inv.bounds h).maxLen
  refine ⟨_, exec_respond h.1 (admission_readCodeLen hp hs) rfl, codeLenData_valid _, ?_, codeLenData_high _⟩
  rw [codeLenData_len, toNat_ofNat_of_lt (by omega)]

/-- Settles O39: a chunk below NCHUNK has its digits in place, and any other is out of range. -/
theorem readCodeChunk : Obligations.ReadCodeChunk := by
  intro s sym arg hl hp hs
  split_ifs with hk
  · exact ⟨_, exec_respond hl (admission_readCodeBits hp hs) (if_neg (Nat.not_le.2 hk)), codeChunkData_bit _ _ _⟩
  · exact exec_fail (i := .readCodeBits sym arg) hl (admission_readCodeBits hp hs) (if_pos (Nat.not_lt.1 hk))

/-! ## What stays in BUILT (R280, R89) -/

/-- The commands admitted in BUILT are CLEAR and the reads (R32). -/
theorem isRead_of_admitted_built {i : Instr} (h : admitted (opcodeOf i) .built = true) (hne : i ≠ .clear) :
    isRead i = true := by
  cases i <;> simp_all [admitted, opcodeOf, isRead]

/-- Ending a command writes the error record and the response alone (R316). -/
theorem finish_frame (opc : Byte) (a : Answer) (s : State) :
    finish opc a s = { s with errCode := (finish opc a s).errCode, errOpc := (finish opc a s).errOpc
                              response := (finish opc a s).response } := by
  cases a <;> rfl

/-- Settles O47: a command but CLEAR fails in the decode stage or is a read, whose rule changes nothing. -/
theorem builtStateIsReadOnly : Obligations.BuiltStateIsReadOnly := by
  intro s t i hp hne h
  rcases (exec_next_iff.1 h).2 with ⟨e, -, rfl⟩ | ⟨ha, a, u, hr, rfl⟩
  · rfl
  · have hadm := (admission_none_iff.1 ha).1
    rw [hp] at hadm
    obtain ⟨rfl, -⟩ := readRule_ok (isRead_of_admitted_built hadm hne) hr
    exact finish_frame _ a u

end Sys2Proof.Machine

/-! PROOFS. The errors (`60_exceptions.md`): how a command ends, which errors it can end with, and what it leaves of the
error record and of the responses. -/

namespace Sys2Proof.Machine

/-! ## The errors of a command (R313) -/

/-- The listed errors are codes the block returns, and none of them is OK (R312). -/
theorem possibleErrors_code {i : Instr} {b : Byte} (h : b ∈ possibleErrors i) : returnedCode b = true ∧ b ≠ 0#8 := by
  have hcodes : possibleErrors i ⊆ [0x05#8, 0x06#8, 0x07#8, 0x08#8, 0x09#8, 0x0A#8] := by
    cases i <;> simp [possibleErrors]
  have hall : ∀ b ∈ [0x05#8, 0x06#8, 0x07#8, 0x08#8, 0x09#8, 0x0A#8], returnedCode b = true ∧ b ≠ 0#8 := by decide
  exact hall b (hcodes h)

/-- Each check of the decode stage fails only for a command that lists its error (R32, R111, R112). -/
theorem admission_listed {i : Instr} {s : State} {e : Status} (h : admission i s = some e) :
    statusCode e ∈ possibleErrors i := by
  unfold admission admissionError at h
  split_ifs at h with hphase hsym harg <;> cases h
  · revert hphase; cases i <;> simp [admitted, opcodeOf, possibleErrors, statusCode]
  · obtain ⟨huses, -⟩ := hsym
    revert huses; cases i <;> simp [usesSym, opcodeOf, possibleErrors, statusCode]
  · obtain ⟨hopc, -⟩ := harg
    revert hopc; cases i <;> simp [opcodeOf, possibleErrors, statusCode]

/-! ## What a rule has written when it raises (R316, R259) -/

/-- A state that differs from another in PHASE, the node store and the queue alone (R259). -/
def OnlyMerged (s t : State) : Prop :=
  t = { s with phase := t.phase, node := t.node, nodeCount := t.nodeCount, heap := t.heap, heapCount := t.heapCount }

theorem finalize_raise_same {s t : State} {e : Status} (h : finalize s = .ok (.raise e, t)) : t = s := by
  rcases finalize_ok h with ⟨-, ht, -⟩ | ⟨⟨d, ha⟩, -⟩
  · exact ht
  · cases ha

/-- Before its finalize step BUILD writes PHASE, the node store and the queue alone (R250). -/
theorem buildRule_raise {s t : State} {e : Status} (h : buildRule s = .ok (.raise e, t)) : OnlyMerged s t := by
  obtain ⟨u, v, hu, hv, hf⟩ := buildRule_ok h
  obtain rfl := finalize_raise_same hf
  obtain ⟨hmerge, -⟩ := mergeAll_frame _ _ _ hv
  rcases hu with ⟨-, hinit⟩ | ⟨-, rfl⟩
  · rw [OnlyMerged, hmerge, (buildInitBody_frame hinit).1]
  · rw [OnlyMerged, hmerge]

/-- A rule raises errors listed for its command, and nothing but BUILD's has then written anything (R313, R316). -/
theorem ruleOf_raise_listed {i : Instr} {s t : State} {e : Status} (h : ruleOf i s = .ok (.raise e, t)) :
    statusCode e ∈ possibleErrors i ∧ (i ≠ .build → t = s) := by
  have hread (hi : isRead i = true) : e = .indexRange ∧ t = s :=
    ⟨(readRule_ok hi h).2 e rfl, (readRule_ok hi h).1⟩
  cases i
  case nop | clear | readFreq | readCodeLen => cases h
  case readReg | readOrder | readHeap | readNodeF | readNodeL | readCodeBits =>
    obtain ⟨rfl, rfl⟩ := hread rfl
    exact ⟨by simp [possibleErrors, statusCode], fun _ => rfl⟩
  case addSymbol sym =>
    rcases addSymbolRule_ok h with ⟨ha, rfl, -⟩ | ⟨-, ⟨d, ha⟩, -⟩ <;> cases ha
    exact ⟨by simp [possibleErrors, statusCode], fun _ => rfl⟩
  case setFreq sym arg =>
    rcases setFreqRule_ok h with ⟨ha, rfl, -⟩ | ⟨-, ha, -⟩ <;> cases ha
    exact ⟨by simp [possibleErrors, statusCode], fun _ => rfl⟩
  case buildInit => obtain ⟨⟨d, ha⟩, -⟩ := buildInitRule_ok h; cases ha
  case buildStep =>
    rcases buildStepRule_ok h with ⟨-, n, -, ha⟩ | ⟨-, hf⟩
    · cases ha
    · obtain rfl := finalize_raise hf
      exact ⟨by simp [possibleErrors, statusCode], fun _ => finalize_raise_same hf⟩
  case build =>
    obtain ⟨u, v, -, -, hf⟩ := buildRule_ok h
    obtain rfl := finalize_raise hf
    exact ⟨by simp [possibleErrors, statusCode], fun hne => absurd rfl hne⟩

/-! ## How a command ends (R11, R316) -/

/-- A command ends with an error listed for it, before which only BUILD may have written, or with the data of its
rule. -/
theorem exec_ends {i : Instr} {s t : State} (h : exec i s = .next t) :
    (∃ e u, statusCode e ∈ possibleErrors i ∧ (i ≠ .build → u = s) ∧ OnlyMerged s u ∧
      t = raise (opcodeByte (opcodeOf i)) e u) ∨
    ∃ d u, ruleOf i s = .ok (.respond d, u) ∧ t = respond d u := by
  obtain ⟨-, ⟨e, ha, ht⟩ | ⟨-, a, u, hr, ht⟩⟩ := exec_next_iff.1 h
  · exact .inl ⟨e, s, admission_listed ha, fun _ => rfl, rfl, ht⟩
  · cases a with
    | respond d => exact .inr ⟨d, u, hr, ht⟩
    | raise e =>
      obtain ⟨hlisted, hsame⟩ := ruleOf_raise_listed hr
      refine .inl ⟨e, u, hlisted, hsame, ?_, ht⟩
      by_cases hi : i = .build
      · subst hi; exact buildRule_raise hr
      · rw [hsame hi]; rfl

/-- Settles O51: an error listed for the command, or OK with the data of its rule. -/
theorem onlyListedErrors : Obligations.OnlyListedErrors := by
  intro s t i h
  rcases exec_ends h with ⟨e, u, hlisted, -, -, rfl⟩ | ⟨d, u, -, rfl⟩
  · refine ⟨_, rfl, ?_⟩
    rw [show BitVec.extractLsb' 56 8 _ = statusCode e from stField_response ..]
    exact List.mem_cons_of_mem _ hlisted
  · refine ⟨_, rfl, ?_⟩
    rw [show BitVec.extractLsb' 56 8 _ = statusCode .ok from stField_response ..]
    exact List.mem_cons_self

/-! ## The error record (R40) -/

/-- No rule but CLEAR's writes the error record, the responses or the host's moves: it does the same with any of
them (R261), so also with the ones it has. -/
theorem ruleOf_history {i : Instr} {s t : State} {a : Answer} (hclear : i ≠ .clear) (h : ruleOf i s = .ok (a, t)) :
    t = withHistory s t := by
  by_cases hstatus : i = .readReg 0#32
  · subst hstatus
    rw [(readRule_ok rfl h).1]
    rfl
  · have e : ruleOf i s = Prod.map id (withHistory s) <$> ruleOf i s := ruleOf_withHistory s s hclear hstatus
    rw [h] at e
    exact congrArg Prod.snd (Except.ok.inj e)

theorem ruleOf_errorRecord {i : Instr} {s t : State} {a : Answer} (hclear : i ≠ .clear)
    (h : ruleOf i s = .ok (a, t)) : t.errCode = s.errCode ∧ t.errOpc = s.errOpc := by
  rw [ruleOf_history hclear h]; exact ⟨rfl, rfl⟩

/-- Settles O48: a failing command ends in the shared `raise`, and a successful one in `respond`, which leaves the error
record as the rule does. -/
theorem errorRecordRule : Obligations.ErrorRecordRule := by
  constructor
  · intro s t i r h hresp hst
    rcases exec_ends h with ⟨e, u, -, hsame, hmerged, rfl⟩ | ⟨d, u, -, rfl⟩
    · cases hresp
      refine ⟨dataField_response .., (stField_response ..).symm, (opcField_word ..).symm, fun hne => ?_, fun _ => ?_⟩
      · rw [hsame hne]; rfl
      · rw [hmerged]; rfl
    · cases hresp
      exact absurd (stField_response ..) hst
  · intro s t i r h hresp hst
    rcases exec_ends h with ⟨e, u, hlisted, -, -, rfl⟩ | ⟨d, u, hr, rfl⟩
    · cases hresp
      exact absurd ((stField_response ..).symm.trans hst) (possibleErrors_code hlisted).2
    · constructor
      · intro hclear
        rw [respond_errCode, respond_errOpc]
        exact ruleOf_errorRecord hclear hr
      · rintro rfl
        cases hr
        exact ⟨rfl, rfl⟩

/-! ## The responses (R312, R115) -/

theorem responseOk_ok (d : Data) : responseOk (responseWord (statusCode .ok) d) = true := by
  rw [responseOk, stField_response]; rfl

theorem responseOk_error {b : Byte} (h : returnedCode b = true) : responseOk (responseWord b 0#56) = true := by
  rw [responseOk, stField_response, dataField_response, h]; simp

theorem ResponsesOk.respond {s : State} (h : s.taken.all responseOk = true) (d : Data) : ResponsesOk (respond d s) :=
  ⟨responseOk_ok d, h⟩

theorem ResponsesOk.raise {s : State} (h : s.taken.all responseOk = true) (opc : Byte) {e : Status}
    (he : returnedCode (statusCode e) = true) : ResponsesOk (raise opc e s) :=
  ⟨responseOk_error he, h⟩

/-- A waiting response that is taken is one of the responses taken (R360). -/
theorem ResponsesOk.transferResponse {s : State} (h : ResponsesOk s) : ResponsesOk (transferResponse s) := by
  obtain ⟨hwaiting, htaken⟩ := h
  refine ⟨by rw [transferResponse_response]; rfl, ?_⟩
  rw [transferResponse_taken, List.all_append, htaken]
  cases hr : s.response with
  | none => rfl
  | some r => rw [hr] at hwaiting; simpa using hwaiting

/-- No rule takes a response (R360). -/
theorem ruleOf_taken {i : Instr} {s t : State} {a : Answer} (h : ruleOf i s = .ok (a, t)) : t.taken = s.taken := by
  by_cases hclear : i = .clear
  · subst hclear; cases h; rfl
  · rw [ruleOf_history hclear h]; rfl

theorem exec_responsesOk {i : Instr} {s t : State} (h : s.taken.all responseOk = true) (e : exec i s = .next t) :
    ResponsesOk t := by
  rcases exec_ends e with ⟨err, u, hlisted, -, hmerged, rfl⟩ | ⟨d, u, hr, rfl⟩
  · have htaken : u.taken = s.taken := by rw [hmerged]
    exact .raise (htaken ▸ h) _ (possibleErrors_code hlisted).1
  · exact .respond (ruleOf_taken hr ▸ h) d

/-- Settles O57: a reset drops the waiting response, the host takes it, or a word's decode error or a command answers
with one the block gives. -/
theorem stepKeepsResponsesOk : Obligations.StepKeepsResponsesOk := by
  intro s t h e
  rcases step_next e with ⟨rest, rfl⟩ | ⟨rest, rfl⟩ | ⟨w, rest, hw⟩
  · exact ⟨rfl, h.2⟩
  · exact ResponsesOk.transferResponse (s := { s with host := rest }) h
  · rcases runWord_next hw with ⟨err, rfl⟩ | ⟨i, hi⟩
    · exact .raise (s := acceptCommand rest s) h.2 _ (decodeError_code err).1
    · exact exec_responsesOk (s := acceptCommand rest s) h.2 hi

end Sys2Proof.Machine

/-! PROOFS. Reset and the ports (`70_reset_and_hazards.md`): what each move of the host does, and that no step stops:
every accepted word gets one response. -/

namespace Sys2Proof.Machine

/-! ## The moves of the host (R351, R353, R360, R361) -/

section
variable {s : State} {rest : List HostMove} (hl : s.config.legal = true)
include hl

theorem step_reset (hh : s.host = .reset :: rest) : step s = .next (resetBlock { s with host := rest }) := by
  simp only [step, hl, Bool.true_eq_false, if_false, portStep, hh]

theorem step_takeResponse (hh : s.host = .takeResponse :: rest) :
    step s = .next (transferResponse { s with host := rest }) := by
  simp only [step, hl, Bool.true_eq_false, if_false, portStep, hh]

/-- A host with no move left takes the waiting response, if there is one (R369). -/
theorem step_noMove (hh : s.host = []) : step s = .next (transferResponse s) := by
  simp only [step, hl, Bool.true_eq_false, if_false, portStep, hh]

/-- With `cmd_ready` at 0 the offered word stays and the response transfers (R361, R362). -/
theorem step_command_waiting {w : CommandWord} {r : ResponseWord} (hr : s.response = some r)
    (hh : s.host = .command w :: rest) : step s = .next (transferResponse s) := by
  have hbusy : cmdReady s = false := by simp [cmdReady, hr]
  simp only [step, hl, Bool.true_eq_false, if_false, portStep, hh, hbusy, Bool.false_eq_true]

end

theorem transferResponse_some {s : State} {r : ResponseWord} (h : s.response = some r) :
    transferResponse s = { s with response := none, taken := s.taken ++ [r] } := by
  simp only [transferResponse, h]

theorem transferResponse_none {s : State} (h : s.response = none) : transferResponse s = s := by
  simp only [transferResponse, h]

/-- Settles O7: each move transfers the waiting response, if there is one. -/
theorem responseTransferAndIdle : Obligations.ResponseTransferAndIdle := by
  refine ⟨fun s w r rest hl hr hh => ?_, fun s r rest hl hr hh => ?_, fun s rest hl hr hh => ?_,
    fun s r hl hr hh => ?_, fun s hl hr hh => ?_⟩
  · rw [step_command_waiting hl hr hh, transferResponse_some hr]
  · rw [step_takeResponse hl hh, transferResponse_some (s := { s with host := rest }) hr]
  · rw [step_takeResponse hl hh, transferResponse_none (s := { s with host := rest }) hr]
  · rw [step_noMove hl hh, transferResponse_some hr]
  · rw [step_noMove hl hh, transferResponse_none hr]

/-- Settles O8. -/
theorem resetGivesResetState : Obligations.ResetGivesResetState := fun _ _ hl hh => step_reset hl hh

/-! ## Every word gets one response (R361, R365) -/

/-- A command has ended: one response waits, and the responses taken and the host's moves are as before it. -/
structure Answered (s t : State) : Prop where
  waiting : ∃ r, t.response = some r
  taken : t.taken = s.taken
  host : t.host = s.host
  position : t.position = s.position

theorem Answered.raise (s : State) (opc : Byte) (e : Status) : Answered s (raise opc e s) := ⟨⟨_, rfl⟩, rfl, rfl, rfl⟩

/-- A rule that ends in the invariant has left the ports alone, and its answer is the response (R11). -/
theorem RuleEnd.answered {s u : State} {a : Answer} (h : RuleEnd s a u) (opc : Byte) :
    Answered s (Machine.finish opc a u) := by
  cases a <;> exact ⟨⟨_, rfl⟩, h.taken, h.host, h.position⟩

/-- In the invariant a command is refused by the decode stage with an error or its rule ends (R118, R365). -/
theorem Inv.exec_answered {s : State} (h : Inv s) (i : Instr) : ∃ t, exec i s = .next t ∧ Answered s t := by
  cases ha : admission i s with
  | some e => exact ⟨_, exec_raise h.1 ha, .raise ..⟩
  | none =>
    obtain ⟨a, u, hrule, hend⟩ := ruleOf_spec h ha
    exact ⟨_, exec_run h.1 ha hrule, hend.answered _⟩

theorem Inv.runWord_answered {s : State} (h : Inv s) (w : CommandWord) : ∃ t, runWord w s = .next t ∧ Answered s t := by
  cases hd : decode w with
  | error e => exact ⟨_, by simp only [runWord, hd], .raise s (opcField w) (decodeErrorStatus e)⟩
  | ok i =>
    rw [runWord_decoded hd]
    exact h.exec_answered i

theorem Inv.step_answered {s : State} (h : Inv s) {w : CommandWord} {rest : List HostMove} (hr : s.response = none)
    (hh : s.host = .command w :: rest) : ∃ t, step s = .next t ∧ Answered (Machine.acceptCommand rest s) t := by
  rw [step_command h.1 hr hh]
  exact (h.acceptCommand rest).runWord_answered w

/-- Settles O59: the accepted word raises an error or runs as a command, which ends with its one response. -/
theorem oneResponsePerWord : Obligations.OneResponsePerWord := by
  intro s w rest h hr hh
  obtain ⟨t, e, ⟨⟨r, hw⟩, htaken, hhost, hpos⟩⟩ := h.step_answered hr hh
  exact ⟨t, r, e, hw, htaken, hhost, hpos⟩

/-- Settles O58: of the host's moves only an accepted word runs a command, and in the invariant it ends. -/
theorem noStepStops : Obligations.NoStepStops := by
  intro s h
  cases hh : s.host with
  | nil => exact ⟨_, step_noMove h.1 hh⟩
  | cons move rest =>
    cases move with
    | reset => exact ⟨_, step_reset h.1 hh⟩
    | takeResponse => exact ⟨_, step_takeResponse h.1 hh⟩
    | command w =>
      cases hr : s.response with
      | some r => exact ⟨_, step_command_waiting h.1 hr hh⟩
      | none =>
        obtain ⟨t, e, -⟩ := h.step_answered hr hh
        exact ⟨t, e⟩

end Sys2Proof.Machine

/-! PROOFS. The host's procedures (`70_reset_and_hazards.md` R366, R367): the build from an input, the codes read from
the ROM, the decode walk over the node store, and the round trip of the two. -/

namespace Sys2Proof.Machine

/-! ## The build from an input (R366) -/

/-- Neither a command sent by the host nor its response taken changes the configuration (R6). -/
theorem transact_config {w : CommandWord} {r : ResponseWord} {s t : State} (h : transact w s = .ok (r, t)) :
    t.config = s.config := by
  unfold transact at h
  split at h
  · cases h
  · split at h
    · cases h
    · cases h
    · next u hu =>
      have hconfig := step_config hu
      split at h <;> cases h
      next v _ hv => exact (step_config hv).trans hconfig

theorem issue_config {i : Instr} {d : Data} {s t : State} (h : issue i s = .ok (d, t)) : t.config = s.config := by
  unfold issue at h
  cases hx : transact (encode i) s with
  | error e => rw [hx] at h; cases h
  | ok p =>
    obtain ⟨r, u⟩ := p
    simp only [hx, bind, Except.bind] at h
    split_ifs at h
    cases h
    exact transact_config hx

theorem issueAll_cons {i : Instr} {d : Data} {s t : State} (h : issue i s = .ok (d, t)) (is : List Instr) :
    issueAll (i :: is) s = issueAll is t := by
  simp only [issueAll, h, bind, Except.bind]

theorem issueAll_append {is : List Instr} {s t : State} (h : issueAll is s = .ok t) (js : List Instr) :
    issueAll (is ++ js) s = issueAll js t ∧ t.config = s.config := by
  induction is generalizing s with
  | nil => cases h; exact ⟨rfl, rfl⟩
  | cons i is ih =>
    cases hi : issue i s with
    | error e => simp only [issueAll, hi, bind, Except.bind] at h; cases h
    | ok p =>
      obtain ⟨d, u⟩ := p
      rw [issueAll_cons hi] at h
      obtain ⟨hrest, hconfig⟩ := ih h
      exact ⟨(issueAll_cons hi _).trans hrest, hconfig.trans (issue_config hi)⟩

/-- CLEAR leaves a block that has seen no symbol, in any phase (R152). -/
theorem Inv.issue_clear {s : State} (h : Inv s) (hready : s.response = none) :
    ∃ d t, issue .clear s = .ok (d, t) ∧ Loaded t [] := by
  have hinv : Inv (Machine.acceptCommand (.takeResponse :: s.host) s) := h.acceptCommand _
  have e := exec_clear hinv.1
  have ht := exec_inv hinv e
  exact ⟨_, _, issue_of_exec (u := clearBlock _) h.1 hready e rfl,
    .of_cleared (ht.update ht.errorRecord ..) rfl rfl rfl⟩

/-- A BUILT block in the invariant, ready for a command. -/
structure Readable (s : State) : Prop where
  inv : Inv s
  phase : s.phase = .built
  ready : s.response = none

/-- BUILD of a loaded table completes, with an LMAX that no tree's depth can pass (R250, R252). -/
theorem Loaded.build {s : State} {seen : List Nat} (h : Loaded s seen) (hle : s.config.dMax ≤ s.config.lmax + 1) :
    ∃ d t, issue .build s = .ok (d, t) ∧ Readable t ∧ ∀ x, freqRead t x = seen.count x := by
  have hinv : Inv (acceptCommand (.takeResponse :: s.host) s) := h.inv.acceptCommand _
  have hdistinct := (Inv.bounds hinv).distinct
  obtain ⟨u, -, -, hnot, hdone, -⟩ := buildCompletes _ hinv (by rw [acceptCommand_phase, h.phase]; decide)
  obtain ⟨t, d, e, hframe, -⟩ := hdone (hnot (hdistinct.trans hle))
  have hhost : t.host = .takeResponse :: s.host := by rw [hframe]; rfl
  have hphase : t.phase = .built := by rw [hframe]
  have hfreq : t.freq = s.freq := by rw [hframe]; rfl
  have ht := exec_inv hinv e
  exact ⟨d, _, issue_of_exec h.inv.1 h.ready e hhost, ⟨ht.update ht.errorRecord .., hphase, rfl⟩,
    fun x => (congrFun (freqRead_congr hfreq) x).trans (h.counts x)⟩

/-- The commands of the host's encode give a built block with the input's counts (R186, R366). -/
theorem Inv.issueAll_build {s : State} {input : List SymField} (h : Inv s) (hready : s.response = none)
    (hs : ∀ x ∈ input, x.toNat < s.config.dMax) (hlen : input.length ≤ s.config.fmax)
    (hle : s.config.dMax ≤ s.config.lmax + 1) :
    ∃ t, issueAll (.clear :: input.map Instr.addSymbol ++ [.build]) s = .ok t ∧ Readable t ∧
      ∀ x, freqRead t x = (input.map BitVec.toNat).count x := by
  obtain ⟨_, s₀, eclear, h₀⟩ := h.issue_clear hready
  have hc₀ := issue_config eclear
  obtain ⟨s₁, eload, h₁⟩ := h₀.issueAll (input := input) (by rwa [hc₀]) (by rw [hc₀]; simpa using hlen)
  obtain ⟨eappend, hc₁⟩ := issueAll_append eload [.build]
  obtain ⟨_, t, ebuild, ht, hcounts⟩ := h₁.build (by rw [hc₁, hc₀]; exact hle)
  refine ⟨t, ?_, ht, by simpa using hcounts⟩
  rw [List.cons_append, issueAll_cons eclear, eappend, issueAll_cons ebuild]
  rfl

/-! ## Procedures that read (R87) -/

/-- The state of a block that the host has read from: it has taken responses, and nothing of the block has changed. -/
def Received (s t : State) : Prop :=
  ∃ taken position, t = { s with response := none, taken := taken, position := position }

/-- A host procedure gives a value, and of the block with state `s` it has only read. -/
def Gives {α : Type} (x : Except HostStop (α × State)) (a : α) (s : State) : Prop := ∃ t, x = .ok (a, t) ∧ Received s t

theorem Received.refl {s : State} (h : s.response = none) : Received s s := ⟨s.taken, s.position, by rw [← h]⟩

theorem Gives.pure {α : Type} {a : α} {s t : State} (h : Received s t) : Gives (.ok (a, t)) a s := ⟨t, rfl, h⟩

theorem Gives.bind {α β : Type} {x : Except HostStop (α × State)} {f : α × State → Except HostStop (β × State)} {a : α}
    {b : β} {s : State} (hx : Gives x a s) (hf : ∀ t, Received s t → Gives (f (a, t)) b s) : Gives (x >>= f) b s := by
  obtain ⟨t, rfl, ht⟩ := hx
  exact hf t ht

/-- A response word gives its data back (R114). -/
theorem data_of_response {b c : Byte} {d e : Data} (h : some (b ++ d) = some (c ++ e)) : d = e := by
  have hdata : dataField (responseWord b d) = dataField (responseWord c e) := congrArg dataField (Option.some.inj h)
  rwa [dataField_response, dataField_response] at hdata

/-- A read gives the host the same data whatever it has read before (R87, R261). -/
theorem Received.issue {s t : State} {i : Instr} {d : Data} (ht : Received s t)
    (e : exec i s = .next { s with response := some (0x00#8 ++ d) }) (hi : isRead i = true)
    (hstatus : i ≠ .readReg 0#32) :
    Gives (issue i t) d s := by
  obtain ⟨taken, position, rfl⟩ := ht
  obtain ⟨v, ev, hresp, -⟩ := historyDecidesNothing s _
    (acceptCommand (.takeResponse :: s.host) { s with response := none, taken := taken, position := position })
    i hstatus rfl e
  rcases (readsHaveNoEffect _ v i hi ev).1 with ⟨d', rfl⟩ | ⟨hne, hv⟩
  · obtain rfl := data_of_response hresp
    exact ⟨_, issue_of_exec (exec_next_iff.1 e).1 rfl ev rfl, _, _, rfl⟩
  · rw [hv] at hresp
    exact absurd (status_of_response hresp) hne

/-! ## The encode loop (R366) -/

/-- The character of a digit (R281). -/
def digitChar (b : Bool) : Char := if b then '1' else '0'

/-- The encoding of an input (R366): the codes of its symbols, in input order. -/
def encoded (s : State) (input : List SymField) : List Char :=
  input.flatMap fun x => (codeOf s x.toNat).map digitChar

theorem encoded_nil (s : State) : encoded s [] = [] := rfl

theorem encoded_cons (s : State) (x : SymField) (xs : List SymField) :
    encoded s (x :: xs) = (codeOf s x.toNat).map digitChar ++ encoded s xs := List.flatMap_cons

/-- The bit of READ_CODE_BITS's data that the host takes for digit p (R366). -/
theorem codeChunkData_digit {lmax p : Nat} (bits : Nat) (hp : p < lmax) :
    (codeChunkData lmax bits (p / 32)).getLsbD (p % 32) = bits.testBit p := by
  rw [codeChunkData_bit, Nat.div_add_mod, decide_eq_true hp, decide_eq_true (Nat.mod_lt p (by decide))]
  rfl

section
variable {s t : State} (h : Readable s)
include h

theorem Readable.sym_lt {x : Nat} (hx : 0 < freqRead s x) : x < s.config.dMax :=
  have htable := (Inv.bounds h.inv).table
  (htable.mem_order.1 (htable.mem_order_iff_pos.2 hx)).1

/-- A symbol of the table has a code (R286). -/
theorem Readable.valid {x : Nat} (hx : 0 < freqRead s x) : (romRead s x).valid = true :=
  (h.inv.romRead_valid h.phase x).trans (decide_eq_true hx)

/-- The host reads the digits of a symbol's entry one after the other (R366). -/
theorem Readable.readDigits {sym : SymField} (hs : sym.toNat < s.config.dMax) {n p : Nat}
    (hn : p + n ≤ s.config.lmax) (ht : Received s t) :
    Gives (readDigits sym n p t)
      ((List.range' p n).map fun k => digitChar ((romRead s sym.toNat).bits.testBit k)) s := by
  induction n generalizing p t with
  | zero => exact .pure ht
  | succ n ih =>
    obtain ⟨-, -, -, hlmax⟩ := legal_bounds h.inv.1
    have harg : (BitVec.ofNat 32 (p / 32)).toNat = p / 32 := toNat_ofNat_of_lt (by omega)
    have hchunk : ¬ s.config.nchunk ≤ (BitVec.ofNat 32 (p / 32)).toNat := by
      rw [harg, Config.nchunk]; omega
    have e := exec_respond h.inv.1 (admission_readCodeBits h.phase hs) (if_neg hchunk)
    rw [harg] at e
    refine (ht.issue e rfl nofun).bind fun u hu => (ih (by omega) hu).bind fun v hv => ?_
    rw [List.range'_succ, List.map_cons, ← codeChunkData_digit _ (show p < s.config.lmax by omega)]
    exact .pure hv

/-- The host reads a symbol's code (R366, R287, R288). -/
theorem Readable.readCode {sym : SymField} (hs : sym.toNat < s.config.dMax) (ht : Received s t) :
    Gives (readCode sym t) ((codeOf s sym.toNat).map digitChar) s := by
  have hlen := (h.inv.romRead_len_le h.phase sym.toNat).trans (Inv.bounds h.inv).maxLen
  obtain ⟨-, -, -, hlmax⟩ := legal_bounds h.inv.1
  have e := exec_respond h.inv.1 (admission_readCodeLen h.phase hs) rfl
  refine (ht.issue e rfl nofun).bind fun u hu => ?_
  have hfield : (BitVec.ofNat 16 (romRead s sym.toNat).len).toNat = (romRead s sym.toNat).len :=
    toNat_ofNat_of_lt (by omega)
  have hdigits := h.readDigits hs (p := 0) ((Nat.zero_add _).trans_le hlen) hu
  rw [codeOf, List.map_map, List.range_eq_range']
  simpa only [Function.comp_def, codeLenData_len, hfield] using hdigits

/-- The encode loop gives the codes of the symbols, in input order (R366). -/
theorem Readable.encodeSymbols {input : List SymField} (hpos : ∀ x ∈ input, 0 < freqRead s x.toNat)
    (ht : Received s t) : Gives (encodeSymbols input t) (encoded s input) s := by
  induction input generalizing t with
  | nil => exact .pure ht
  | cons x xs ih =>
    obtain ⟨hx, hxs⟩ := List.forall_mem_cons.1 hpos
    exact (h.readCode (h.sym_lt hx) ht).bind fun u hu => (ih hxs hu).bind fun v hv => .pure hv

end

/-! ## The decode walk (R367) -/

theorem isLeafOf_get {s : State} {i x : Nat} (h : isLeafOf s i x = true) :
    ∃ f, cellsGet s.node i = some (.leaf f x) := by
  unfold isLeafOf at h
  split at h
  · next f y hn => exact ⟨f, by rw [hn, beq_iff_eq.1 h]⟩
  · cases h
  · cases h

/-- A node with a child is Internal (R39). -/
theorem childOn_get {s : State} {i k : Nat} {b : Bool} (h : childOn s i b = some k) :
    ∃ f l r, cellsGet s.node i = some (.internal f l r) ∧ (if b then r else l) = k := by
  unfold childOn at h
  split at h
  · next f l r hn => exact ⟨f, l, r, hn, Option.some.inj h⟩
  · cases h
  · cases h

/-- The host's reading of an Internal node's links leads where the digit does (R263, R367). -/
theorem linkChild_internal (f l r : Nat) (b : Bool) :
    linkChild (nodeLinkData (.internal f l r)) (digitChar b) = some (BitVec.ofNat 24 (if b then r else l)) := by
  obtain ⟨hleft, hright, -, hbit⟩ := nodeLinkData_internal f l r
  have hinternal : linkIsInternal (nodeLinkData (.internal f l r)) = true := hbit
  cases b <;> simp [linkChild, hinternal, digitChar, hleft, hright]

section
variable {s t : State} (h : Readable s)
include h

theorem Readable.readLinks {i : Nat} (hi : i < s.nodeCount) {n : NodeRecord} (hn : cellsGet s.node i = some n)
    (ht : Received s t) : Gives (readLinks (BitVec.ofNat 24 i) t) (nodeLinkData n) s := by
  have hcount := Inv.nodeCount_le h.inv
  have harg : ((BitVec.ofNat 24 i).zeroExtend 32).toNat = i := by
    rw [BitVec.toNat_setWidth, toNat_ofNat_of_lt (by omega)]; omega
  have hread : nodeRead s ((BitVec.ofNat 24 i).zeroExtend 32).toNat = .ok n := by
    rw [harg]; exact (Inv.treeOk h.inv (Nat.zero_lt_of_lt hi)).read hi hn
  exact ht.issue (exec_readNodeL h.inv.1 (harg.trans_lt hi) hread) rfl nofun

variable {policy : TrailingPolicy} {root : BitVec 24}

/-- A digit leads the walk to a child, from which it goes on if the child is Internal, and from the root if not
(R367). -/
theorem Readable.decodeWalk_digit {b : Bool} {i k : Nat} {n : NodeRecord} (hi : i < s.nodeCount)
    (hk : childOn s i b = some k) (hn : cellsGet s.node k = some n) {rest : List Char} {out : List SymField}
    {result : DecodeResult}
    (hrest : ∀ u, Received s u → Gives
      (if linkIsInternal (nodeLinkData n) then decodeWalk policy true root rest (BitVec.ofNat 24 k) out u
       else decodeWalk policy true root rest root (out ++ [(nodeLinkData n).extractLsb' 0 16]) u) result s)
    (ht : Received s t) :
    Gives (decodeWalk policy true root (digitChar b :: rest) (BitVec.ofNat 24 i) out t) result s := by
  obtain ⟨f, l, r, hnode, rfl⟩ := childOn_get hk
  have hlt := (Inv.treeOk h.inv (Nat.zero_lt_of_lt hi)).child_lt hi (childOn_mem hk)
  rw [decodeWalk, if_neg (by decide)]
  refine (h.readLinks hi hnode ht).bind fun u hu => ?_
  simp only [linkChild_internal]
  exact (h.readLinks (hlt.trans hi) hn hu).bind hrest

/-- From a node, the digits that lead to a symbol's leaf give the symbol, and the walk goes on from the root (R367). -/
theorem Readable.decodeWalk_path {b : Bool} {path : List Bool} {i j x : Nat} (hi : i < s.nodeCount)
    (hpath : nodeOn s (b :: path) i = some j) (hleaf : isLeafOf s j x = true) {rest : List Char}
    {out : List SymField} {result : DecodeResult}
    (hrest : ∀ u, Received s u → Gives (decodeWalk policy true root rest root (out ++ [BitVec.ofNat 16 x]) u) result s)
    (ht : Received s t) :
    Gives (decodeWalk policy true root ((b :: path).map digitChar ++ rest) (BitVec.ofNat 24 i) out t) result s := by
  induction path generalizing b i t with
  | nil =>
    obtain ⟨k, hk, hj⟩ := Option.bind_eq_some_iff.1 hpath
    obtain rfl := Option.some.inj hj
    obtain ⟨f, hn⟩ := isLeafOf_get hleaf
    obtain ⟨hsym, -, hbit⟩ := nodeLinkData_leaf f x
    refine h.decodeWalk_digit hi hk hn (fun u hu => ?_) ht
    rw [linkIsInternal, hbit, if_neg (by decide), hsym]
    exact hrest u hu
  | cons c path ih =>
    obtain ⟨k, hk, hj⟩ := Option.bind_eq_some_iff.1 hpath
    obtain ⟨m, hm, -⟩ := Option.bind_eq_some_iff.1 hj
    obtain ⟨f, l, r, hn, -⟩ := childOn_get hm
    obtain ⟨-, -, -, hbit⟩ := nodeLinkData_internal f l r
    have hlt := (Inv.treeOk h.inv (Nat.zero_lt_of_lt hi)).child_lt hi (childOn_mem hk)
    refine h.decodeWalk_digit hi hk hn (fun u hu => ?_) ht
    rw [linkIsInternal, hbit, if_pos rfl]
    exact ih (hlt.trans hi) hj hu

/-- With two symbols in the table no code is empty: every other code would begin with an empty one (R284). -/
theorem Readable.codeOf_ne_nil {x y z : Nat} (hx : 0 < freqRead s x) (hy : 0 < freqRead s y) (hne : x ≠ y)
    (hz : 0 < freqRead s z) : codeOf s z ≠ [] := by
  intro hnil
  have hprefix (v : Nat) : codeOf s z <+: codeOf s v := hnil ▸ List.nil_prefix
  by_cases hzx : z = x
  · exact codesArePrefixFree s z y h.inv h.phase (h.valid hz) (h.valid hy) (hzx ▸ hne) (hprefix y)
  · exact codesArePrefixFree s z x h.inv h.phase (h.valid hz) (h.valid hx) hzx (hprefix x)

/-- The walk over the codes of symbols, none of them empty, gives the symbols and ends at the root (R367). -/
theorem Readable.decodeWalk_encoded {input out : List SymField} (hpos : ∀ x ∈ input, 0 < freqRead s x.toNat)
    (hne : ∀ x ∈ input, codeOf s x.toNat ≠ []) (ht : Received s t) :
    Gives (decodeWalk policy true (BitVec.ofNat 24 s.root) (encoded s input) (BitVec.ofNat 24 s.root) out t)
      (.symbols (out ++ input)) s := by
  induction input generalizing out t with
  | nil =>
    rw [encoded_nil, decodeWalk, if_neg (fun hcur => hcur.1 rfl), List.append_nil]
    exact .pure ht
  | cons x xs ih =>
    obtain ⟨hx, hxs⟩ := List.forall_mem_cons.1 hpos
    obtain ⟨hxne, hxsne⟩ := List.forall_mem_cons.1 hne
    obtain ⟨htree, j, hpath, hleaf⟩ := h.inv.code_reaches h.phase (h.valid hx)
    obtain ⟨b, path, hcode⟩ := List.exists_cons_of_ne_nil hxne
    rw [hcode] at hpath
    rw [encoded_cons, hcode]
    refine h.decodeWalk_path htree.root hpath hleaf (fun u hu => ?_) ht
    rw [BitVec.ofNat_toNat, BitVec.setWidth_eq, List.append_cons out x xs]
    exact ih hxs hxsne hu

end

/-! ## The round trip (R366, R367) -/

/-- The host reads ROOT and walks: the decode of the encode (R367). -/
theorem Readable.hostDecode {s t : State} (h : Readable s) {policy : TrailingPolicy} {input : List SymField}
    (hpos : ∀ x ∈ input, 0 < freqRead s x.toNat) (htwo : ∃ x ∈ input, ∃ y ∈ input, x ≠ y) (ht : Received s t) :
    Gives (hostDecode policy (encoded s input) t) (.symbols input) s := by
  obtain ⟨x, hx, y, hy, hne⟩ := htwo
  have hcodes (z : SymField) (hz : z ∈ input) : codeOf s z.toNat ≠ [] :=
    h.codeOf_ne_nil (hpos x hx) (hpos y hy) (mt BitVec.eq_of_toNat_eq hne) (hpos z hz)
  have hvalid : s.rootValid = true := by
    obtain ⟨-, -, -, -, hbuilt⟩ := Inv.built h.inv h.phase
    obtain ⟨htree, -⟩ := h.inv.leaf_of_pos h.phase (hpos x hx)
    exact (hbuilt (Nat.zero_lt_of_lt htree.maxLen_lt)).1
  refine (ht.issue (exec_readReg (arg := 0x05#32) h.inv.1 rfl) rfl (by decide)).bind fun u hu => ?_
  simp only [rootData_valid, rootData_root, hvalid]
  exact h.decodeWalk_encoded hpos hcodes hu

/-- Settles O60: BUILD leaves every symbol of the input a code, which is the path from ROOT to its leaf and not empty. -/
theorem hostRoundTrip : Obligations.HostRoundTrip := by
  intro s policy input h hready hs hlen hle htwo
  obtain ⟨t, hbuild, ht, hcounts⟩ := h.issueAll_build hready hs hlen hle
  have hpos (x : SymField) (hx : x ∈ input) : 0 < freqRead t x.toNat := by
    rw [hcounts]; exact List.count_pos_iff.2 (List.mem_map_of_mem hx)
  obtain ⟨u, hencode, hu⟩ := ht.encodeSymbols hpos (.refl ht.ready)
  obtain ⟨v, hdecode, -⟩ := ht.hostDecode (policy := policy) hpos htwo hu
  refine ⟨_, u, v, ?_, hdecode⟩
  rw [hostEncode, hbuild]
  exact hencode

end Sys2Proof.Machine
